-- ==== Sys2Proof/Word.lean ====
section
/-! DEFINITION. The word and the byte: what a cell's `value` field and one element of the output stream hold. -/

namespace Sys2Proof

/-- The `value` field of a cell: a signed integer (10_state.md R10). A *word value* is one inside the canonical range
of the configuration; that every cell of a state holds one is an invariant of the machine, not part of this type. -/
abbrev Word := Int

/-- One byte of the output stream (10_state.md R22). -/
abbrev Byte := BitVec 8

end Sys2Proof
end

