-- ==== Sys2Proof/Config.lean ====
section
/-! DEFINITION. The implementation parameters of 00_scope.md R4 and the constants derived from them. -/

namespace Sys2Proof

/-- The configuration field `DIVMOD` (41_address.md R91): which pair of division and remainder functions the ALU has.
`truncation` is the default; `other k` names a pair nothing is known of, so that a claim about it holds for every
pair of total functions (R91 "takes `DIVMOD` as an uninterpreted configuration field"). -/
inductive DivMod where
  | truncation
  | other (k : Nat)
  deriving DecidableEq, Repr

/-- The parameters of 00_scope.md R4. `none` in `instrLimit` and `maxNest` is the table's "absent". -/
structure Config where
  /-- `W`, the width of the `value` field in bits. -/
  w : Nat
  /-- `ADDR_MAX`, the highest memory address. -/
  addrMax : Nat
  /-- `INT_VECTOR`, the address of the cell that holds the handler's entry address. -/
  intVector : Nat
  /-- `INSTR_LIMIT`, the instruction-count ceiling. -/
  instrLimit : Option Nat
  /-- `MAX_NEST`, the greatest interrupt nesting depth. -/
  maxNest : Option Nat
  /-- `HAS_DIV`, whether opcode 16 is an instruction. -/
  hasDiv : Bool
  /-- `DIVMOD`, the division and remainder functions. -/
  divMod : DivMod
  /-- `CHAR_MAX`, the greatest input character value. -/
  charMax : Nat
  deriving DecidableEq, Repr

/-- The column "default" of 00_scope.md R4. The table gives `INSTR_LIMIT` no default ("none given", OPEN D11); it is
absent here (log 8). -/
def Config.default : Config :=
  { w := 32, addrMax := 2047, intVector := 0, instrLimit := none, maxNest := none, hasDiv := true,
    divMod := .truncation, charMax := 255 }

/-- `2^(W-1)`. -/
def Config.half (c : Config) : Nat := 2 ^ (c.w - 1)

/-- `2^W`. -/
def Config.full (c : Config) : Nat := 2 ^ c.w

/-- `WORD_MIN = -2^(W-1)` (00_scope.md section 5). -/
def Config.wordMin (c : Config) : Int := -(c.half : Int)

/-- `WORD_MAX = 2^(W-1) - 1` (00_scope.md section 5). -/
def Config.wordMax (c : Config) : Int := (c.half : Int) - 1

/-- `CELL_BITS = W + 8` (30_encoding.md R40). -/
def Config.cellBits (c : Config) : Nat := c.w + 8

/-- The quotient function of the uninterpreted pair `other k`: no body, so nothing can be proved of its values
(41_address.md R91, log 7). -/
opaque Config.otherDivq : Nat → Int → Int → Int

/-- The remainder function of the uninterpreted pair `other k` (41_address.md R91, log 7). -/
opaque Config.otherDivr : Nat → Int → Int → Int

end Sys2Proof
end

