-- ==== Sys2Proof/Syntax.lean ====
section
/-! DEFINITION. Syntax: opcodes, value types, cells and the 29 instructions. -/

namespace Sys2Proof

/-- The `op` field of a cell: the 29 opcodes in the order of their numbers (30_encoding.md R42), and the three reserved
numbers 29, 30, 31, which a cell may hold but which select no instruction (R47). Number 16 is `div` in every
configuration; whether it selects an instruction is the decoder's question (R47). -/
inductive Opcode where
  | nop
  | hlt
  | iret
  | push
  | pop
  | ei
  | di
  | cla
  | inc
  | dec
  | ld
  | st
  | cmp
  | add
  | sub
  | mul
  | div
  | mod
  | or
  | and
  | jc
  | jnc
  | jn
  | jnn
  | jz
  | jnz
  | jmp
  | inp
  | out
  | reserved29
  | reserved30
  | reserved31
  deriving DecidableEq, Repr

/-- The `vt` field of a cell (10_state.md R10), in the order of its codes (30_encoding.md R41). The reserved codes 5, 6
and 7 are no value types: no cell holds one (30_encoding.md R48, log 10). -/
inductive ValueType where
  | none
  | number
  | char
  | addressDirect
  | addressIndirect
  deriving DecidableEq, Repr

/-- One cell: the content of a register or of a memory location (10_state.md R10). -/
structure Cell where
  op : Opcode
  value : Int
  vt : ValueType
  deriving DecidableEq, Repr

/-- `ZERO_CELL = {NOP, 0, None}` (00_scope.md section 6.2). -/
def Cell.zero : Cell := ⟨.nop, 0, .none⟩

/-- The constant cell `K(n) = {NOP, n, None}` (40_cycle_alu.md R66). -/
def Cell.const (n : Int) : Cell := ⟨.nop, n, .none⟩

/-- The four opcode classes (30_encoding.md R42, R43). -/
inductive OpClass where
  | addressless
  | address
  | branch
  | io
  deriving DecidableEq, Repr

/-- The 29 instructions, one constructor for each row of the opcode table. Every instruction is one cell
(30_encoding.md R44), so each carries that cell's two other fields: its value type `t` and its operand `v`. Address
and branch instructions use both (R45); addressless and IO instructions ignore them (R49). -/
inductive Instr where
  /-- `NOP`, opcode 0 (42_addressless.md R94). -/
  | nop (t : ValueType) (v : Word)
  /-- `HLT`, opcode 1 (42_addressless.md R95). -/
  | hlt (t : ValueType) (v : Word)
  /-- `IRET`, opcode 2 (42_addressless.md R96). -/
  | iret (t : ValueType) (v : Word)
  /-- `PUSH`, opcode 3 (42_addressless.md R97). -/
  | push (t : ValueType) (v : Word)
  /-- `POP`, opcode 4 (42_addressless.md R98). -/
  | pop (t : ValueType) (v : Word)
  /-- `EI`, opcode 5 (42_addressless.md R99). -/
  | ei (t : ValueType) (v : Word)
  /-- `DI`, opcode 6 (42_addressless.md R100). -/
  | di (t : ValueType) (v : Word)
  /-- `CLA`, opcode 7 (42_addressless.md R101). -/
  | cla (t : ValueType) (v : Word)
  /-- `INC`, opcode 8 (42_addressless.md R102). -/
  | inc (t : ValueType) (v : Word)
  /-- `DEC`, opcode 9 (42_addressless.md R103). -/
  | dec (t : ValueType) (v : Word)
  /-- `LD`, opcode 10 (41_address.md R81). -/
  | ld (t : ValueType) (v : Word)
  /-- `ST`, opcode 11 (41_address.md R82). -/
  | st (t : ValueType) (v : Word)
  /-- `CMP`, opcode 12 (41_address.md R83). -/
  | cmp (t : ValueType) (v : Word)
  /-- `ADD`, opcode 13 (41_address.md R84). -/
  | add (t : ValueType) (v : Word)
  /-- `SUB`, opcode 14 (41_address.md R85). -/
  | sub (t : ValueType) (v : Word)
  /-- `MUL`, opcode 15 (41_address.md R86). -/
  | mul (t : ValueType) (v : Word)
  /-- `DIV`, opcode 16 (41_address.md R87). -/
  | div (t : ValueType) (v : Word)
  /-- `MOD`, opcode 17 (41_address.md R88). -/
  | mod (t : ValueType) (v : Word)
  /-- `OR`, opcode 18 (41_address.md R89). -/
  | or (t : ValueType) (v : Word)
  /-- `AND`, opcode 19 (41_address.md R90). -/
  | and (t : ValueType) (v : Word)
  /-- `JC`, opcode 20 (43_branch.md R105). -/
  | jc (t : ValueType) (v : Word)
  /-- `JNC`, opcode 21 (43_branch.md R106). -/
  | jnc (t : ValueType) (v : Word)
  /-- `JN`, opcode 22 (43_branch.md R107). -/
  | jn (t : ValueType) (v : Word)
  /-- `JNN`, opcode 23 (43_branch.md R108). -/
  | jnn (t : ValueType) (v : Word)
  /-- `JZ`, opcode 24 (43_branch.md R109). -/
  | jz (t : ValueType) (v : Word)
  /-- `JNZ`, opcode 25 (43_branch.md R110). -/
  | jnz (t : ValueType) (v : Word)
  /-- `JMP`, opcode 26 (43_branch.md R111). -/
  | jmp (t : ValueType) (v : Word)
  /-- `IN`, opcode 27 (44_io.md R114). -/
  | inp (t : ValueType) (v : Word)
  /-- `OUT`, opcode 28 (44_io.md R116). -/
  | out (t : ValueType) (v : Word)
  deriving DecidableEq, Repr

/-- The cell an instruction is (30_encoding.md R44). -/
def Instr.cell : Instr → Cell
  | .nop t v => ⟨.nop, v, t⟩
  | .hlt t v => ⟨.hlt, v, t⟩
  | .iret t v => ⟨.iret, v, t⟩
  | .push t v => ⟨.push, v, t⟩
  | .pop t v => ⟨.pop, v, t⟩
  | .ei t v => ⟨.ei, v, t⟩
  | .di t v => ⟨.di, v, t⟩
  | .cla t v => ⟨.cla, v, t⟩
  | .inc t v => ⟨.inc, v, t⟩
  | .dec t v => ⟨.dec, v, t⟩
  | .ld t v => ⟨.ld, v, t⟩
  | .st t v => ⟨.st, v, t⟩
  | .cmp t v => ⟨.cmp, v, t⟩
  | .add t v => ⟨.add, v, t⟩
  | .sub t v => ⟨.sub, v, t⟩
  | .mul t v => ⟨.mul, v, t⟩
  | .div t v => ⟨.div, v, t⟩
  | .mod t v => ⟨.mod, v, t⟩
  | .or t v => ⟨.or, v, t⟩
  | .and t v => ⟨.and, v, t⟩
  | .jc t v => ⟨.jc, v, t⟩
  | .jnc t v => ⟨.jnc, v, t⟩
  | .jn t v => ⟨.jn, v, t⟩
  | .jnn t v => ⟨.jnn, v, t⟩
  | .jz t v => ⟨.jz, v, t⟩
  | .jnz t v => ⟨.jnz, v, t⟩
  | .jmp t v => ⟨.jmp, v, t⟩
  | .inp t v => ⟨.inp, v, t⟩
  | .out t v => ⟨.out, v, t⟩

end Sys2Proof
end

