-- ==== Sys2Proof/WellFormed.lean ====
section
/-! DEFINITION. What is well formed: a configuration (00_scope.md R4), a word value and a cell (10_state.md R10), and an
instruction the encoding of 30_encoding.md admits. -/

namespace Sys2Proof

/-- A legal configuration (00_scope.md R4): the width, the memory size, the vector address, the ceiling, the bound. -/
def Config.legal (c : Config) : Bool :=
  decide (9 ≤ c.w) && decide ((c.addrMax : Int) + 1 ≤ c.wordMax) && decide (c.intVector ≤ c.addrMax) &&
    (c.instrLimit.all fun n => decide (1 ≤ n)) && (c.maxNest.all fun n => decide (1 ≤ n))

/-- A word value: an integer of the canonical range (10_state.md R10). -/
def Config.isWord (c : Config) (v : Int) : Bool := decide (c.wordMin ≤ v) && decide (v ≤ c.wordMax)

/-- A cell whose value is a word value (10_state.md R10). -/
def Cell.wf (c : Config) (x : Cell) : Bool := c.isWord x.value

/-- A well-formed instruction: its operand fits the `value` field (30_encoding.md R40, R44), and `DIV` exists
(30_encoding.md R47). -/
def Instr.wf (c : Config) (i : Instr) : Bool :=
  i.cell.wf c && (decide (i.cell.op ≠ .div) || c.hasDiv)

end Sys2Proof
end

