-- ==== Sys2Proof/Decode.lean ====
section
/-! DEFINITION. The cell layout and the opcode map of 30_encoding.md: the decoder, total on any bit pattern and rejecting
by name, the encoder, the mnemonics, and the bit-field and sign-extension helpers both use. -/

namespace Sys2Proof

/-- `tc_W(v) = v mod 2^W`, the two's-complement pattern of a word value (00_scope.md section 6.1). -/
def tcW (c : Config) (v : Int) : Nat := (v % (c.full : Int)).toNat

/-- `sext_W`, the inverse of `tc_W` on patterns (00_scope.md section 6.1). -/
def sextW (c : Config) (p : Nat) : Int := if p < c.half then (p : Int) else (p : Int) - (c.full : Int)

/-- The number of an opcode (30_encoding.md R42). -/
def Opcode.number : Opcode → Nat
  | .nop => 0
  | .hlt => 1
  | .iret => 2
  | .push => 3
  | .pop => 4
  | .ei => 5
  | .di => 6
  | .cla => 7
  | .inc => 8
  | .dec => 9
  | .ld => 10
  | .st => 11
  | .cmp => 12
  | .add => 13
  | .sub => 14
  | .mul => 15
  | .div => 16
  | .mod => 17
  | .or => 18
  | .and => 19
  | .jc => 20
  | .jnc => 21
  | .jn => 22
  | .jnn => 23
  | .jz => 24
  | .jnz => 25
  | .jmp => 26
  | .inp => 27
  | .out => 28
  | .reserved29 => 29
  | .reserved30 => 30
  | .reserved31 => 31

/-- The opcode with a number: the inverse of `Opcode.number` on the 5-bit field (30_encoding.md R42, R47). -/
def Opcode.ofNumber : Nat → Option Opcode
  | 0 => some .nop
  | 1 => some .hlt
  | 2 => some .iret
  | 3 => some .push
  | 4 => some .pop
  | 5 => some .ei
  | 6 => some .di
  | 7 => some .cla
  | 8 => some .inc
  | 9 => some .dec
  | 10 => some .ld
  | 11 => some .st
  | 12 => some .cmp
  | 13 => some .add
  | 14 => some .sub
  | 15 => some .mul
  | 16 => some .div
  | 17 => some .mod
  | 18 => some .or
  | 19 => some .and
  | 20 => some .jc
  | 21 => some .jnc
  | 22 => some .jn
  | 23 => some .jnn
  | 24 => some .jz
  | 25 => some .jnz
  | 26 => some .jmp
  | 27 => some .inp
  | 28 => some .out
  | 29 => some .reserved29
  | 30 => some .reserved30
  | 31 => some .reserved31
  | _ => Option.none

/-- The class of an opcode (30_encoding.md R43); a reserved number has none (R47). -/
def Opcode.cls : Opcode → Option OpClass
  | .nop => some .addressless
  | .hlt => some .addressless
  | .iret => some .addressless
  | .push => some .addressless
  | .pop => some .addressless
  | .ei => some .addressless
  | .di => some .addressless
  | .cla => some .addressless
  | .inc => some .addressless
  | .dec => some .addressless
  | .ld => some .address
  | .st => some .address
  | .cmp => some .address
  | .add => some .address
  | .sub => some .address
  | .mul => some .address
  | .div => some .address
  | .mod => some .address
  | .or => some .address
  | .and => some .address
  | .jc => some .branch
  | .jnc => some .branch
  | .jn => some .branch
  | .jnn => some .branch
  | .jz => some .branch
  | .jnz => some .branch
  | .jmp => some .branch
  | .inp => some .io
  | .out => some .io
  | .reserved29 => Option.none
  | .reserved30 => Option.none
  | .reserved31 => Option.none

/-- The canonical mnemonic strings of the wire format, each with its opcode (30_encoding.md R42, R52). -/
def mnemonicTable : List (String × Opcode) :=
  [("NOP", .nop), ("HLT", .hlt), ("IRET", .iret), ("PUSH", .push), ("POP", .pop), ("EI", .ei),
   ("DI", .di), ("CLA", .cla), ("INC", .inc), ("DEC", .dec), ("LD", .ld), ("ST", .st),
   ("CMP", .cmp), ("ADD", .add), ("SUB", .sub), ("MUL", .mul), ("DIV", .div), ("MOD", .mod),
   ("OR", .or), ("AND", .and), ("JC", .jc), ("JNC", .jnc), ("JN", .jn), ("JNN", .jnn),
   ("JZ", .jz), ("JNZ", .jnz), ("JMP", .jmp), ("IN", .inp), ("OUT", .out)]

/-- The opcode with a mnemonic, if the string is one of the 29 (30_encoding.md R52: letter for letter). -/
def Opcode.ofMnemonic (m : String) : Option Opcode := mnemonicTable.lookup m

/-- The value-type codes (30_encoding.md R41). -/
def ValueType.code : ValueType → Nat
  | .none => 0
  | .number => 1
  | .char => 2
  | .addressDirect => 3
  | .addressIndirect => 4

/-- The value type with a code; the codes 5, 6 and 7 are reserved (30_encoding.md R41, R48). -/
def ValueType.ofCode : Nat → Option ValueType
  | 0 => some .none
  | 1 => some .number
  | 2 => some .char
  | 3 => some .addressDirect
  | 4 => some .addressIndirect
  | _ => Option.none

/-- Why a bit pattern is no instruction. -/
inductive DecodeError where
  /-- More than `CELL_BITS` bits are set (30_encoding.md R40). Safe. -/
  | tooWide
  /-- Value-type code 5, 6 or 7 (30_encoding.md R48). Safe. -/
  | reservedValueType
  /-- Opcode number 29, 30 or 31, or 16 when `HAS_DIV` is false (30_encoding.md R47). Safe: the machine's decoder raises
  `Fatal(UnknownOpcode)` for it. -/
  | reservedOpcode
  deriving DecidableEq, Repr

/-- The cell with a bit pattern, `decode(b)` of 30_encoding.md R40. -/
def cellOfBits (c : Config) (b : Nat) : Except DecodeError Cell :=
  if 2 ^ c.cellBits ≤ b then .error .tooWide
  else
    match ValueType.ofCode (b / c.full % 8) with
    | Option.none => .error .reservedValueType
    | some t =>
      match Opcode.ofNumber (b / c.full / 8) with
      | Option.none => .error .tooWide
      | some op => .ok ⟨op, sextW c (b % c.full), t⟩

/-- The bit pattern of a cell, `encode({op, v, t})` of 30_encoding.md R40: the three fields side by side, `op` on top
(the sum of the disjoint fields is the rule's bitwise or of them). -/
def bitsOfCell (c : Config) (x : Cell) : Nat :=
  (x.op.number * 8 + x.vt.code) * c.full + tcW c x.value

/-- The instruction a cell is, by its opcode (30_encoding.md R42, R44); reserved numbers are none (R47). -/
def instrOfCell (c : Config) (x : Cell) : Except DecodeError Instr :=
  match x.op with
  | .nop => .ok (.nop x.vt x.value)
  | .hlt => .ok (.hlt x.vt x.value)
  | .iret => .ok (.iret x.vt x.value)
  | .push => .ok (.push x.vt x.value)
  | .pop => .ok (.pop x.vt x.value)
  | .ei => .ok (.ei x.vt x.value)
  | .di => .ok (.di x.vt x.value)
  | .cla => .ok (.cla x.vt x.value)
  | .inc => .ok (.inc x.vt x.value)
  | .dec => .ok (.dec x.vt x.value)
  | .ld => .ok (.ld x.vt x.value)
  | .st => .ok (.st x.vt x.value)
  | .cmp => .ok (.cmp x.vt x.value)
  | .add => .ok (.add x.vt x.value)
  | .sub => .ok (.sub x.vt x.value)
  | .mul => .ok (.mul x.vt x.value)
  | .div => if c.hasDiv then .ok (.div x.vt x.value) else .error .reservedOpcode
  | .mod => .ok (.mod x.vt x.value)
  | .or => .ok (.or x.vt x.value)
  | .and => .ok (.and x.vt x.value)
  | .jc => .ok (.jc x.vt x.value)
  | .jnc => .ok (.jnc x.vt x.value)
  | .jn => .ok (.jn x.vt x.value)
  | .jnn => .ok (.jnn x.vt x.value)
  | .jz => .ok (.jz x.vt x.value)
  | .jnz => .ok (.jnz x.vt x.value)
  | .jmp => .ok (.jmp x.vt x.value)
  | .inp => .ok (.inp x.vt x.value)
  | .out => .ok (.out x.vt x.value)
  | .reserved29 => .error .reservedOpcode
  | .reserved30 => .error .reservedOpcode
  | .reserved31 => .error .reservedOpcode

/-- The decoder: the instruction a bit pattern is, or the name of what is wrong with it. -/
def decode (c : Config) (b : Nat) : Except DecodeError Instr :=
  match cellOfBits c b with
  | .error e => .error e
  | .ok x => instrOfCell c x

/-- The encoder: an instruction's one word of `CELL_BITS` bits (30_encoding.md R40, R44). -/
def encode (c : Config) (i : Instr) : Nat := bitsOfCell c i.cell

/-- What the decoder yields besides the opcode, with no tick (40_cycle_alu.md R69): the class, and whether an address
fetch is due (only for the Address and Branch classes, 30_encoding.md R49). -/
def decodeControl (c : Config) (x : Cell) : Option (OpClass × Bool) :=
  if x.op = .div ∧ c.hasDiv = false then Option.none
  else
    match x.op.cls with
    | some .address => some (.address, decide (x.vt = .addressIndirect))
    | some .branch => some (.branch, decide (x.vt = .addressIndirect))
    | some k => some (k, false)
    | Option.none => Option.none

/-- The instruction the decoder reads from an instruction whose bits are `w`, `nbits` of them given by the opcode table
and every bit above them 0. An instruction is one cell, the default configuration's 40 bits (30_encoding.md R44). -/
def decodeTableWord (nbits w : Nat) : Option Instr :=
  match decode Config.default (w % 2 ^ nbits) with
  | .ok i => some i
  | .error _ => Option.none

end Sys2Proof
end

