-- ==== Sys2Proof/Machine/State.lean ====
section
/-! DEFINITION. The state of the machine (10_state.md), why a step can stop, memory in its one canonical form, and the
state after reset (10_state.md section 9). -/

namespace Sys2Proof.Machine

/-- The causes of a fatal condition (60_exceptions.md R123). Each is a value of `STATUS`; the step that raises one is a
next state of the model, with everything the completed signals did kept (R124). Safe: no cause replaces an effect the
spec gives. -/
inductive FatalCause where
  /-- Code 1. Raised by the decoder on a reserved opcode number. -/
  | unknownOpcode
  /-- Code 2. Never raised in a machine built to the rules (40_cycle_alu.md R65, log 14). -/
  | unknownAluOperation
  /-- Code 3. Raised by every memory read and write outside `0..ADDR_MAX`. -/
  | addressOutOfRange
  /-- Code 4. Raised by `IN` when no input event is ready. -/
  | inputUnderrun
  /-- Code 5. Raised by the limit check before a fetch. -/
  | instructionLimitExceeded
  /-- Code 6. Raised by `HLT` in handler context. -/
  | nestedHalt
  /-- Code 7. Raised by `DIV` and `MOD` with a zero divisor. -/
  | divideByZero
  /-- Code 8. Raised by an interrupt entry that is due at depth `MAX_NEST`. -/
  | nestDepthExceeded
  deriving DecidableEq, Repr

/-- `STATUS` (10_state.md R25, 60_exceptions.md R120). -/
inductive Status where
  | running
  | halt
  | interruptReturn
  | fatal (cause : FatalCause)
  deriving DecidableEq, Repr

/-- The tick groups, by the names of the trace (40_cycle_alu.md R75, 60_exceptions.md R138). -/
inductive TickGroup where
  | f1 | f2 | f3 | af | of | x1 | s1 | s2
  | pu1 | pu2 | pu3 | pu4 | po1 | po2 | po3 | b1
  | ie1 | ie2 | ie3 | ie4 | ie5 | ie6 | ie7 | ie8 | ie9 | ie10 | ie11 | ie12
  | ix1 | ix2 | ix3 | ix4 | ix5 | ix6 | ix7
  deriving DecidableEq, Repr

/-- One event of the input queue: `char` becomes readable once the clock has reached `arrivesAt` (10_state.md R21). -/
structure InputEvent where
  arrivesAt : Nat
  char : Nat
  deriving DecidableEq, Repr

/-- The trace tuple of one completed tick group (60_exceptions.md R138). `memAtAr` is the cell addressed by `AR`, `none`
when `AR` is out of range. -/
structure TraceTuple where
  tick : Nat
  group : TickGroup
  ac : Cell
  ip : Cell
  cr : Cell
  ps : Cell
  sp : Cell
  dr : Cell
  ar : Cell
  z : Bool
  n : Bool
  c : Bool
  ei : Bool
  memAtAr : Option Cell
  deriving DecidableEq, Repr

/-- One line of the trace: a tuple, or the blank line that ends a block (60_exceptions.md R138, log 9). -/
inductive TraceLine where
  | tuple (t : TraceTuple)
  | blank
  deriving DecidableEq, Repr

/-- The registers (10_state.md R11). No instruction word names one; the stack sequences take one (42_addressless.md R92,
R93). -/
inductive Reg where
  | ac | ip | cr | ps | sp | dr | ar
  deriving DecidableEq, Repr

/-- Memory: the cells that differ from the zero cell, by address. Every address not listed holds `Cell.zero`, which is
what the reset table gives a cell no program term names (10_state.md section 9). The unit is the whole cell
(20_memory.md R30, R33, log 3). -/
abbrev Memory := List (Nat × Cell)

/-- The one canonical form: addresses strictly rising, no entry equal to what an unlisted address reads as. -/
abbrev Memory.wf (m : Memory) : Prop :=
  m.Pairwise (fun x y => x.1 < y.1) ∧ ∀ e ∈ m, e.2 ≠ Cell.zero

/-- Everything the spec gives the machine (10_state.md), and the parameters it is a machine of. Plain data. -/
@[ext]
structure State where
  /-- The parameters (00_scope.md R4): the model's own field, which no step changes (log 1). -/
  cfg : Config
  /-- The accumulator (R12). -/
  ac : Cell
  /-- The program counter (R14). -/
  ip : Cell
  /-- The instruction cell fetched last (R13). -/
  cr : Cell
  /-- The status register, whose value carries the flags (R16, R17). -/
  ps : Cell
  /-- The stack pointer (R15). -/
  sp : Cell
  /-- The data register (R13). -/
  dr : Cell
  /-- The address register (R13). -/
  ar : Cell
  /-- The one memory (R19). -/
  mem : Memory
  /-- The clock `TICK` (R20). -/
  tick : Nat
  /-- The input queue `INQ`, head first (R21). -/
  inq : List InputEvent
  /-- The output stream `OUT`, first byte first (R22). -/
  out : List Byte
  /-- The number of instructions whose fetch has begun, `ICOUNT` (R23). -/
  icount : Nat
  /-- The interrupt nesting depth `DEPTH` (R24). -/
  depth : Nat
  /-- `STATUS` (R25). -/
  status : Status
  /-- The trace emitted so far, first line first (60_exceptions.md R138, log 9). -/
  trace : List TraceLine
  deriving DecidableEq, Repr

/-- Why the machine has no next step. The spec has one reason only: `STATUS` is not `Running`, and then "the machine
takes no further step of any kind" (60_exceptions.md R120). Each constructor is raised by `step`, never by a meaning,
and is safe: the hardware does not go on either (log 5). -/
inductive Fault where
  /-- The machine has halted: `STATUS` is `Halt`. Raised by `step`. Safe. -/
  | halted
  /-- The machine has stopped by an `IRET` outside a handler: `STATUS` is `InterruptReturn`. Raised by `step`. Safe. -/
  | interruptReturned
  /-- The machine has stopped with a fatal condition: `STATUS` is `Fatal(cause)`. Raised by `step`. Safe. -/
  | fatal (cause : FatalCause)
  deriving DecidableEq, Repr

/-- Why an instruction is refused. -/
inductive Refusal where
  /-- The instruction has no meaning in this model yet. Raised by an arm of `exec` only. Safe. No arm raises it. -/
  | notModelled (mnemonic : String)
  deriving DecidableEq, Repr

/-- The reset state of 10_state.md section 9 for a configuration, before any program term is loaded, with the start
address and the event list the host gives (70_reset_and_hazards.md R150). -/
def State.boot (c : Config) (startAddress : Int) (events : List InputEvent) : State :=
  { cfg := c, ac := Cell.zero, ip := Cell.const startAddress, cr := Cell.zero, ps := Cell.zero,
    sp := Cell.const ((c.addrMax : Int) + 1), dr := Cell.zero, ar := Cell.zero, mem := [], tick := 0, inq := events,
    out := [], icount := 0, depth := 0, status := .running, trace := [] }

/-- The machine right after reset, with nothing loaded: the default configuration, start address 0, no input events
(log 2). A run of the spec starts from `Sys2Proof.Machine.load`, which is this state with the host's program, start
address and events. -/
def State.reset : State := State.boot Config.default 0 []

end Sys2Proof.Machine
end

