-- ==== Sys2Proof/Machine/Flags.lean ====
section
/-! DEFINITION. Word arithmetic, the ALU and the flags (40_cycle_alu.md sections 1 and 2, 10_state.md section 6). -/

namespace Sys2Proof.Machine

/-- `wrap`, two's-complement modulo (40_cycle_alu.md R60). -/
def wrap (c : Config) (v : Int) : Int := (v + (c.half : Int)) % (c.full : Int) - (c.half : Int)

/-- The ALU's operation set (40_cycle_alu.md R62). -/
inductive AluOp where
  | add | sub | mul | div | mod | or | and | left | right
  deriving DecidableEq, Repr

/-- The quotient function of `DIVMOD` (41_address.md R91). -/
def divq (c : Config) (a b : Int) : Int :=
  match c.divMod with
  | .truncation => a.tdiv b
  | .other k => Config.otherDivq k a b

/-- The remainder function of `DIVMOD` (41_address.md R91). Under `truncation` a remainder of words is a word, as R88 says;
of the pair `other k` nothing is assumed, and its remainder may be no word (log 19). -/
def divr (c : Config) (a b : Int) : Int :=
  match c.divMod with
  | .truncation => a - b * divq c a b
  | .other k => Config.otherDivr k a b

/-- The column `raw` of 40_cycle_alu.md R62: the exact integer, before wrapping. `DIV` and `MOD` by zero are fatal and
never ask for it (`aluFails`, log 17). -/
def aluRaw (c : Config) (op : AluOp) (a b : Int) : Int :=
  match op with
  | .add => a + b
  | .sub => a - b
  | .mul => a * b
  | .div => divq c a b
  | .mod => divr c a b
  | .or => sextW c (tcW c a ||| tcW c b)
  | .and => sextW c (tcW c a &&& tcW c b)
  | .left => a
  | .right => b

/-- What the ALU answers: the result cell and the three flags (40_cycle_alu.md R61). -/
structure AluResult where
  res : Cell
  z : Bool
  n : Bool
  c : Bool
  deriving DecidableEq, Repr

/-- The ALU (40_cycle_alu.md R61): combinational, the left operand's tags on the result, the flags of R63. DESIGN CHOICE
(log 19): `MOD` takes this generic path too, so a remainder outside the word range, which only a pair `DIVMOD` other than
the default can give, is wrapped and sets `C`, where R88 takes the remainder to be in range and `C` to be 0. A quotient
of such a pair is treated likewise, beyond the one overflow R62 and R87 name. -/
def alu (c : Config) (op : AluOp) (l r : Cell) : AluResult :=
  let raw := aluRaw c op l.value r.value
  let v := wrap c raw
  { res := ⟨l.op, v, l.vt⟩, z := decide (v = 0), n := decide (v < 0),
    c := decide (raw < c.wordMin) || decide (c.wordMax < raw) }

/-- The one way an ALU evaluation fails: a zero divisor (40_cycle_alu.md R62; 41_address.md R87, R88). -/
def aluFails (op : AluOp) (r : Cell) : Bool :=
  (decide (op = .div) || decide (op = .mod)) && decide (r.value = 0)

/-- Bit `i` of `PS.value`'s two's-complement pattern (10_state.md R17). -/
def psBit (s : State) (i : Nat) : Bool := (tcW s.cfg s.ps.value).testBit i

/-- `Z`, bit 0 of `PS.value` (10_state.md R17). -/
def flagZ (s : State) : Bool := psBit s 0

/-- `N`, bit 1 of `PS.value` (10_state.md R17). -/
def flagN (s : State) : Bool := psBit s 1

/-- `C`, bit 2 of `PS.value` (10_state.md R17). -/
def flagC (s : State) : Bool := psBit s 2

/-- `EI`, bit 3 of `PS.value` (10_state.md R17). -/
def flagEI (s : State) : Bool := psBit s 3

/-- The `PS` cell with the flags of a marked ALU call merged in (40_cycle_alu.md R64): bits 0, 1, 2 replaced, every other
bit and the tag fields kept. -/
def mergeFlags (c : Config) (ps : Cell) (z n cy : Bool) : Cell :=
  { ps with
    value := sextW c
      ((tcW c ps.value &&& (c.full - 1 - 7)) ||| z.toNat ||| (n.toNat <<< 1) ||| (cy.toNat <<< 2)) }

/-- The mask cell `K(8)` of `EI` (40_cycle_alu.md R66). -/
def eiMask : Cell := Cell.const 8

/-- The mask cell `K(-9)` of `DI`, the `W`-bit complement of 8 (40_cycle_alu.md R66). -/
def diMask : Cell := Cell.const (-9)

end Sys2Proof.Machine
end

