-- ==== Sys2Proof/Machine/Ops.lean ====
section
/-! DEFINITION. The named operations every instruction is built from: memory and registers, ticks and the trace, the
datapath's signals, the fetch unit, the stack sequences, the interrupt controller with the taking of an interrupt and
the return from one, and the limit check. -/

namespace Sys2Proof.Machine

/-! ### Memory (20_memory.md) -/

/-- The cell at an address of the memory array. -/
def Memory.read : Memory → Nat → Cell
  | [], _ => Cell.zero
  | e :: m, a => if e.1 = a then e.2 else Memory.read m a

/-- Put an entry before the first one with a higher address. -/
def Memory.insertEntry : Memory → Nat → Cell → Memory
  | [], a, x => [(a, x)]
  | e :: m, a, x => if a < e.1 then (a, x) :: e :: m else e :: Memory.insertEntry m a x

/-- Replace the cell at an address: all three fields, no partial write (20_memory.md R32). Writing the zero cell removes
the entry, so that the canonical form is kept. -/
def Memory.write (m : Memory) (a : Nat) (x : Cell) : Memory :=
  let others := m.filter (fun e => decide (e.1 ≠ a))
  if x = Cell.zero then others else Memory.insertEntry others a x

/-- The addresses that exist: `0 .. ADDR_MAX` (20_memory.md R30). -/
def inRange (s : State) (addr : Int) : Bool := decide (0 ≤ addr) && decide (addr ≤ (s.cfg.addrMax : Int))

/-- `MemRead(addr)` (20_memory.md R31): `none` where the rule raises `Fatal(AddressOutOfRange)`. -/
def memRead (s : State) (addr : Int) : Option Cell :=
  if inRange s addr then some (Memory.read s.mem addr.toNat) else none

/-- Store a cell at an address that exists (20_memory.md R32). -/
def State.storeCell (s : State) (addr : Int) (x : Cell) : State :=
  { s with mem := Memory.write s.mem addr.toNat x }

/-! ### Registers (10_state.md R11, R29) -/

/-- The whole cell a register holds. -/
def State.reg (s : State) (r : Reg) : Cell :=
  match r with
  | .ac => s.ac
  | .ip => s.ip
  | .cr => s.cr
  | .ps => s.ps
  | .sp => s.sp
  | .dr => s.dr
  | .ar => s.ar

/-- Write a register: all three fields move (10_state.md R29). -/
def State.setReg (s : State) (r : Reg) (x : Cell) : State :=
  match r with
  | .ac => { s with ac := x }
  | .ip => { s with ip := x }
  | .cr => { s with cr := x }
  | .ps => { s with ps := x }
  | .sp => { s with sp := x }
  | .dr => { s with dr := x }
  | .ar => { s with ar := x }

/-- The plain latch `dst <- src`: the whole cell, without the ALU (40_cycle_alu.md R76). -/
def State.latch (s : State) (dst src : Reg) : State := s.setReg dst (s.reg src)

/-- The micro-operation `R <- ALUN(op, R, right)`: an unmarked ALU call, `PS` not touched unless `R` is `PS`
(40_cycle_alu.md R64, R76). -/
def State.aluLatch (s : State) (r : Reg) (op : AluOp) (right : Cell) : State :=
  s.setReg r (alu s.cfg op (s.reg r) right).res

/-- Merge the flags of a marked ALU call into `PS` (40_cycle_alu.md R64). -/
def State.mergeAlu (s : State) (a : AluResult) : State := s.setReg .ps (mergeFlags s.cfg s.ps a.z a.n a.c)

/-! ### Stopping (60_exceptions.md R120 to R122) -/

/-- How a sequence of signals ends: it goes on, or the machine has stopped in `s` with `s.status` set. -/
inductive Flow where
  | go (s : State)
  | stop (s : State)
  deriving DecidableEq, Repr

/-- Sequence: nothing happens after a stop (60_exceptions.md R121, R122). -/
def Flow.andThen (x : Flow) (f : State → Flow) : Flow :=
  match x with
  | .go s => f s
  | .stop s => .stop s

/-- The state a sequence leaves. -/
def Flow.state : Flow → State
  | .go s => s
  | .stop s => s

/-- An instruction's outcome. A stop is a next state too: the one that holds the new `STATUS` and every partial effect
(60_exceptions.md R124, log 5). -/
def Flow.outcome (x : Flow) : Host.Outcome State Fault Refusal := .next x.state

/-- Set `STATUS` and nothing else. -/
def State.withStatus (s : State) (st : Status) : State := { s with status := st }

/-- `raise Fatal(cause)` (60_exceptions.md R122). -/
def State.raiseFatal (s : State) (cause : FatalCause) : Flow := .stop (s.withStatus (.fatal cause))

/-- `stop(s)`, an expected termination (60_exceptions.md R121). -/
def State.stopAs (s : State) (st : Status) : Flow := .stop (s.withStatus st)

/-! ### Ticks and the trace (40_cycle_alu.md R67, 60_exceptions.md R138) -/

/-- The trace tuple of a tick group, from the state after it. -/
def traceTuple (g : TickGroup) (s : State) : TraceTuple :=
  { tick := s.tick, group := g, ac := s.ac, ip := s.ip, cr := s.cr, ps := s.ps, sp := s.sp, dr := s.dr, ar := s.ar,
    z := flagZ s, n := flagN s, c := flagC s, ei := flagEI s, memAtAr := memRead s s.ar.value }

/-- `TICK <- TICK + 1`. -/
def State.advance (s : State) : State := { s with tick := s.tick + 1 }

/-- Append one line to the trace. -/
def State.emit (s : State) (l : TraceLine) : State := { s with trace := s.trace ++ [l] }

/-- `tick()`: the clock advances, then the trace tuple is emitted. -/
def State.endTick (s : State) (g : TickGroup) : State := s.advance.emit (.tuple (traceTuple g s.advance))

/-- The blank line that ends a trace block. -/
def State.endBlock (s : State) : State := s.emit .blank

/-- End a tick group whose signals have all succeeded. -/
def tickGo (g : TickGroup) (s : State) : Flow := .go (s.endTick g)

/-! ### Signals that use memory or mark an ALU call -/

/-- The signal `DR <- MemRead(AR.value)` (10_state.md R13, 20_memory.md R31). -/
def memToDr (s : State) : Flow :=
  match memRead s s.ar.value with
  | some x => .go (s.setReg .dr x)
  | none => s.raiseFatal .addressOutOfRange

/-- The signal `MemWrite(AR.value, DR)` (20_memory.md R32). -/
def drToMem (s : State) : Flow :=
  if inRange s s.ar.value then .go (s.storeCell s.ar.value s.dr) else s.raiseFatal .addressOutOfRange

/-- The signal `ALUF(op, l, r)` with its result dropped: only the flags move (40_cycle_alu.md R64; 41_address.md R83). -/
def aluFlags (op : AluOp) (l r : Cell) (s : State) : Flow :=
  if aluFails op r then s.raiseFatal .divideByZero else .go (s.mergeAlu (alu s.cfg op l r))

/-- The signal `AC <- ALUF(op, l, r)` (40_cycle_alu.md R64). A zero divisor is reported before any write
(41_address.md R87, R88). -/
def aluToAc (op : AluOp) (l r : Cell) (s : State) : Flow :=
  (aluFlags op l r s).andThen fun t => .go (t.setReg .ac (alu s.cfg op l r).res)

/-! ### The fetch unit (40_cycle_alu.md R68) -/

/-- `F1: AR <- IP`. -/
def groupF1 (s : State) : Flow := tickGo .f1 (s.latch .ar .ip)

/-- `F2: IP <- ALUN(ADD, IP, K(1)); DR <- MemRead(AR.value)`, the increment first. -/
def groupF2 (s : State) : Flow := (memToDr (s.aluLatch .ip .add (Cell.const 1))).andThen (tickGo .f2)

/-- `F3: CR <- DR`. -/
def groupF3 (s : State) : Flow := tickGo .f3 (s.latch .cr .dr)

/-- `Fetch()`, three ticks. -/
def fetch (s : State) : Flow := ((groupF1 s).andThen groupF2).andThen groupF3

/-- The state an instruction's meaning starts from: its cell stands in `CR` and in `DR`, as the fetch leaves it
(40_cycle_alu.md R68 "`DR = CR =` the instruction cell"; log 6). After a fetch of that cell it changes nothing. -/
def State.present (s : State) (x : Cell) : State := (s.setReg .dr x).setReg .cr x

/-! ### The stack protocol (42_addressless.md R92, R93) -/

/-- `SP <- ALUN(SUB, SP, K(1))`. -/
def spDown (g : TickGroup) (s : State) : Flow := tickGo g (s.aluLatch .sp .sub (Cell.const 1))

/-- `AR <- SP`. -/
def spToAr (g : TickGroup) (s : State) : Flow := tickGo g (s.latch .ar .sp)

/-- `DR <- R`. -/
def regToDr (r : Reg) (g : TickGroup) (s : State) : Flow := tickGo g (s.latch .dr r)

/-- `MemWrite(AR.value, DR)` as a tick group of its own. -/
def drToMemTick (g : TickGroup) (s : State) : Flow := (drToMem s).andThen (tickGo g)

/-- `DR <- MemRead(AR.value); SP <- ALUN(ADD, SP, K(1))`, the read first. -/
def popRead (g : TickGroup) (s : State) : Flow :=
  (memToDr s).andThen fun t => tickGo g (t.aluLatch .sp .add (Cell.const 1))

/-- `R <- DR`. -/
def drToReg (r : Reg) (g : TickGroup) (s : State) : Flow := tickGo g (s.latch r .dr)

/-- `push(R)`, four ticks, under the group names of the sequence it stands in. -/
def push (r : Reg) (g1 g2 g3 g4 : TickGroup) (s : State) : Flow :=
  (((spDown g1 s).andThen (spToAr g2)).andThen (regToDr r g3)).andThen (drToMemTick g4)

/-- `pop(R)`, three ticks, under the group names of the sequence it stands in. -/
def pop (r : Reg) (g1 g2 g3 : TickGroup) (s : State) : Flow :=
  ((spToAr g1 s).andThen (popRead g2)).andThen (drToReg r g3)

/-! ### The input port's status line and the interrupt controller (44_io.md R113, 60_exceptions.md R126 to R133) -/

/-- `InputReady()`: the head of the queue exists and has arrived (44_io.md R113). -/
def inputReady (s : State) : Bool :=
  match s.inq with
  | [] => false
  | e :: _ => decide (e.arrivesAt ≤ s.tick)

/-- The condition of the interrupt check (60_exceptions.md R127). -/
def interruptDue (s : State) : Bool := inputReady s && flagEI s

/-- Whether an entry at this depth exceeds `MAX_NEST` (60_exceptions.md R133). -/
def nestExceeded (s : State) : Bool := s.cfg.maxNest.any fun n => decide (n ≤ s.depth)

/-- `IE1: PS <- ALUN(AND, PS, K(-9))`, clear `EI`. -/
def groupIe1 (s : State) : Flow := tickGo .ie1 (s.aluLatch .ps .and diMask)

/-- `IE10: AR <- K(INT_VECTOR)`. -/
def groupIe10 (s : State) : Flow := tickGo .ie10 (s.setReg .ar (Cell.const s.cfg.intVector))

/-- `IE11: DR <- MemRead(AR.value)`. -/
def groupIe11 (s : State) : Flow := (memToDr s).andThen (tickGo .ie11)

/-- `IE12: IP <- DR`. -/
def groupIe12 (s : State) : Flow := tickGo .ie12 (s.latch .ip .dr)

/-- `DEPTH <- DEPTH + 1`, with no tick. -/
def State.enterHandler (s : State) : State := { s with depth := s.depth + 1 }

/-- `DEPTH <- DEPTH - 1`, with no tick. -/
def State.leaveHandler (s : State) : State := { s with depth := s.depth - 1 }

/-- TAKING AN INTERRUPT, `InterruptEntry()` (60_exceptions.md R128): the bound of R133; then `EI` cleared, `IP` and then
`PS` pushed, the vector cell latched into `IP`, the depth raised. Twelve ticks. -/
def interruptEntry (s : State) : Flow :=
  if nestExceeded s then s.raiseFatal .nestDepthExceeded
  else
    ((((((groupIe1 s).andThen (push .ip .ie2 .ie3 .ie4 .ie5)).andThen (push .ps .ie6 .ie7 .ie8 .ie9)).andThen
      groupIe10).andThen groupIe11).andThen groupIe12).andThen fun t => .go t.enterHandler

/-- `IX7: PS <- ALUN(OR, PS, K(8))`, set `EI`. -/
def groupIx7 (s : State) : Flow := tickGo .ix7 (s.aluLatch .ps .or eiMask)

/-- THE RETURN FROM AN INTERRUPT, `InterruptExit()` (60_exceptions.md R130): `PS` and then `IP` popped whole, `EI` set, the
depth lowered. Seven ticks. -/
def interruptExit (s : State) : Flow :=
  (((pop .ps .ix1 .ix2 .ix3 s).andThen (pop .ip .ix4 .ix5 .ix6)).andThen groupIx7).andThen
    fun t => .go t.leaveHandler

/-! ### The limit check (40_cycle_alu.md R74) -/

/-- Whether the instruction-count ceiling is reached. -/
def limitReached (s : State) : Bool := s.cfg.instrLimit.any fun n => decide (n ≤ s.icount)

/-- `ICOUNT <- ICOUNT + 1`. -/
def State.countInstruction (s : State) : State := { s with icount := s.icount + 1 }

/-- `LimitCheck()`. -/
def limitCheck (s : State) : Flow :=
  if limitReached s then s.raiseFatal .instructionLimitExceeded else .go s.countInstruction

/-- Put a cell where `fetch` reads it, if the address exists: what the host's load does to one cell
(70_reset_and_hazards.md R151). -/
def State.placeAtIp (s : State) (x : Cell) : State :=
  if inRange s s.ip.value then s.storeCell s.ip.value x else s

end Sys2Proof.Machine
end

