-- ==== Sys2Proof/Machine/Operands.lean ====
section
/-! DEFINITION. The operand forms: direct and indirect (30_encoding.md R45), address fetch and operand fetch
(40_cycle_alu.md R70, R71), and the frame each instruction class puts around its execute ticks. -/

namespace Sys2Proof.Machine

/-- The extra step is taken "only when operand's `valueType == AddressIndirect`": every other type means direct
(30_encoding.md R45). -/
def isIndirect (t : ValueType) : Bool := decide (t = .addressIndirect)

/-- `AF: AR <- DR; DR <- MemRead(AR.value)` (40_cycle_alu.md R70). -/
def groupAf (s : State) : Flow := (memToDr (s.latch .ar .dr)).andThen (tickGo .af)

/-- `OF: AR <- DR; DR <- MemRead(AR.value)` (40_cycle_alu.md R71). -/
def groupOf (s : State) : Flow := (memToDr (s.latch .ar .dr)).andThen (tickGo .of)

/-- `AddressFetch()` where the operand is indirect, nothing where it is direct. -/
def addressFetch (t : ValueType) (s : State) : Flow := if isIndirect t then groupAf s else .go s

/-- The prefix of an Address-class instruction after its fetch (41_address.md R80). -/
def addressPrefix (t : ValueType) (s : State) : Flow := (addressFetch t s).andThen groupOf

/-- The cell whose value is the effective address or the branch target: the instruction cell itself when direct, the
pointer cell when indirect (30_encoding.md R45); `none` when the pointer's address is out of range. -/
def resolvedCell (s : State) (x : Cell) : Option Cell := if isIndirect x.vt then memRead s x.value else some x

/-- The frame of an Address-class instruction (41_address.md R80). -/
def addressClass (x : Cell) (execute : State → Flow) (s : State) : Host.Outcome State Fault Refusal :=
  ((addressPrefix x.vt (s.present x)).andThen execute).outcome

/-- The frame of an Addressless- or IO-class instruction: operand fields ignored (30_encoding.md R49). -/
def plainClass (x : Cell) (execute : State → Flow) (s : State) : Host.Outcome State Fault Refusal :=
  (execute (s.present x)).outcome

/-- `B1: IP <- DR` (43_branch.md R104). -/
def groupB1 (s : State) : Flow := tickGo .b1 (s.latch .ip .dr)

/-- The execute part of a branch (43_branch.md R104): one tick when taken, no tick when not. -/
def branchExecute (cond : State → Bool) (s : State) : Flow := if cond s then groupB1 s else .go s

/-- The frame of a Branch-class instruction (43_branch.md R104): no operand fetch. -/
def branchClass (x : Cell) (cond : State → Bool) (s : State) : Host.Outcome State Fault Refusal :=
  ((addressFetch x.vt (s.present x)).andThen (branchExecute cond)).outcome

end Sys2Proof.Machine
end

