-- ==== Sys2Proof/Machine/Cycle.lean ====
section
/-! DEFINITION. What the instruction cycle puts around an instruction's meaning (40_cycle_alu.md R73): the limit check and
the fetch before it, the interrupt check after it. -/

namespace Sys2Proof.Machine

/-- The limit check and the three fetch ticks (40_cycle_alu.md R73, R74, R68). -/
def cycleStart (s : State) : Flow := (limitCheck s).andThen fetch

/-- A reserved opcode number in `CR` (40_cycle_alu.md R69, 30_encoding.md R47). -/
def unknownOpcode (s : State) : State := (s.raiseFatal .unknownOpcode).state

/-- `InterruptCheck()` (60_exceptions.md R127). An entry's ticks are a trace block of their own (R138). -/
def interruptCheck (s : State) : Flow :=
  if interruptDue s then (interruptEntry s).andThen fun t => .go t.endBlock else .go s

/-- What follows a meaning (40_cycle_alu.md R73). A completed instruction's trace block ends (60_exceptions.md R138) and
the interrupt check follows; after an expected termination the block ends and no check follows (R121); after a fatal
condition nothing does (R122). -/
def completeCycle (s : State) : State :=
  match s.status with
  | .running => (interruptCheck s.endBlock).state
  | .halt => s.endBlock
  | .interruptReturn => s.endBlock
  | .fatal _ => s

/-- `completeCycle` on a meaning's outcome. -/
def completeOutcome (x : Host.Outcome State Fault Refusal) : Host.Outcome State Fault Refusal :=
  match x with
  | .next t => .next (completeCycle t)
  | .fault r => .fault r
  | .refused r => .refused r

/-- The fault of a step from a state that is not `Running` (60_exceptions.md R120); `Running` has none. -/
def stoppedFault : Status → Option Fault
  | .running => none
  | .halt => some .halted
  | .interruptReturn => some .interruptReturned
  | .fatal c => some (.fatal c)

/-- The numeric code of a status, for the host only (60_exceptions.md R120). -/
def Status.code : Status → Nat
  | .running => 0
  | .halt => 1
  | .interruptReturn => 2
  | .fatal _ => 3

/-- The numeric code of a fatal cause, for the host only (60_exceptions.md R123). -/
def FatalCause.code : FatalCause → Nat
  | .unknownOpcode => 1
  | .unknownAluOperation => 2
  | .addressOutOfRange => 3
  | .inputUnderrun => 4
  | .instructionLimitExceeded => 5
  | .nestedHalt => 6
  | .divideByZero => 7
  | .nestDepthExceeded => 8

/-- Place the cell with a bit pattern where the next fetch reads it. A pattern that is no cell (a reserved value-type code
or too many bits) cannot be loaded (70_reset_and_hazards.md R152 L6) and changes nothing (log 10). -/
def placeWord (s : State) (bits : Nat) : State :=
  match cellOfBits s.cfg bits with
  | .ok x => s.placeAtIp x
  | .error _ => s

end Sys2Proof.Machine
end

