-- ==== Sys2Proof/Machine/Address.lean ====
section
/-! DEFINITION. The Address-class instructions (41_address.md): LD ST CMP ADD SUB MUL DIV MOD OR AND. Each has its execute
ticks and its meaning. -/

namespace Sys2Proof.Machine

/-- The execute tick of `LD` (41_address.md R81): `AC <- ALUF(LEFT, DR, AC)`, the whole operand cell. -/
def x1Ld (s : State) : Flow := (aluToAc .left s.dr s.ac s).andThen (tickGo .x1)

/-- `S1: DR <- AC` (41_address.md R82). -/
def groupS1 (s : State) : Flow := tickGo .s1 (s.latch .dr .ac)

/-- `S2: MemWrite(AR.value, DR)` (41_address.md R82). -/
def groupS2 (s : State) : Flow := drToMemTick .s2 s

/-- The execute ticks of `ST`. -/
def stExecute (s : State) : Flow := (groupS1 s).andThen groupS2

/-- The execute tick of `CMP` (41_address.md R83): `ALUF(SUB, AC, DR)`, the result dropped. -/
def x1Cmp (s : State) : Flow := (aluFlags .sub s.ac s.dr s).andThen (tickGo .x1)

/-- The execute tick of the arithmetic and logic instructions (41_address.md section 4): `AC <- ALUF(op, AC, DR)`. -/
def x1Alu (op : AluOp) (s : State) : Flow := (aluToAc op s.ac s.dr s).andThen (tickGo .x1)

/-- `LD` (41_address.md R81). -/
def execLd (t : ValueType) (v : Word) (s : State) : Host.Outcome State Fault Refusal :=
  addressClass ⟨.ld, v, t⟩ x1Ld s

/-- `ST` (41_address.md R82). -/
def execSt (t : ValueType) (v : Word) (s : State) : Host.Outcome State Fault Refusal :=
  addressClass ⟨.st, v, t⟩ stExecute s

/-- `CMP` (41_address.md R83). -/
def execCmp (t : ValueType) (v : Word) (s : State) : Host.Outcome State Fault Refusal :=
  addressClass ⟨.cmp, v, t⟩ x1Cmp s

/-- `ADD` (41_address.md R84). -/
def execAdd (t : ValueType) (v : Word) (s : State) : Host.Outcome State Fault Refusal :=
  addressClass ⟨.add, v, t⟩ (x1Alu .add) s

/-- `SUB` (41_address.md R85). -/
def execSub (t : ValueType) (v : Word) (s : State) : Host.Outcome State Fault Refusal :=
  addressClass ⟨.sub, v, t⟩ (x1Alu .sub) s

/-- `MUL` (41_address.md R86). -/
def execMul (t : ValueType) (v : Word) (s : State) : Host.Outcome State Fault Refusal :=
  addressClass ⟨.mul, v, t⟩ (x1Alu .mul) s

/-- `DIV` (41_address.md R87). -/
def execDiv (t : ValueType) (v : Word) (s : State) : Host.Outcome State Fault Refusal :=
  addressClass ⟨.div, v, t⟩ (x1Alu .div) s

/-- `MOD` (41_address.md R88); a remainder that is no word is wrapped and sets `C` (log 19). -/
def execMod (t : ValueType) (v : Word) (s : State) : Host.Outcome State Fault Refusal :=
  addressClass ⟨.mod, v, t⟩ (x1Alu .mod) s

/-- `OR` (41_address.md R89). -/
def execOr (t : ValueType) (v : Word) (s : State) : Host.Outcome State Fault Refusal :=
  addressClass ⟨.or, v, t⟩ (x1Alu .or) s

/-- `AND` (41_address.md R90). -/
def execAnd (t : ValueType) (v : Word) (s : State) : Host.Outcome State Fault Refusal :=
  addressClass ⟨.and, v, t⟩ (x1Alu .and) s

end Sys2Proof.Machine
end

