-- ==== Sys2Proof/Machine/Addressless.lean ====
section
/-! DEFINITION. The Addressless-class instructions (42_addressless.md): NOP HLT IRET PUSH POP EI DI CLA INC DEC. -/

namespace Sys2Proof.Machine

/-- The execute part of `HLT` (42_addressless.md R95): no tick; fatal in handler context (60_exceptions.md R132). -/
def hltExecute (s : State) : Flow := if s.depth = 0 then s.stopAs .halt else s.raiseFatal .nestedHalt

/-- The execute part of `IRET` (42_addressless.md R96): a stop outside a handler, the interrupt exit inside one. -/
def iretExecute (s : State) : Flow := if s.depth = 0 then s.stopAs .interruptReturn else interruptExit s

/-- The execute tick of `EI` (42_addressless.md R99): `PS <- ALUN(OR, PS, K(8))`. -/
def x1Ei (s : State) : Flow := tickGo .x1 (s.aluLatch .ps .or eiMask)

/-- The execute tick of `DI` (42_addressless.md R100): `PS <- ALUN(AND, PS, K(-9))`. -/
def x1Di (s : State) : Flow := tickGo .x1 (s.aluLatch .ps .and diMask)

/-- The execute tick `AC <- ALUF(op, AC, K(n))` of `CLA`, `INC` and `DEC` (42_addressless.md R101 to R103). -/
def x1AluConst (op : AluOp) (n : Int) (s : State) : Flow := (aluToAc op s.ac (Cell.const n) s).andThen (tickGo .x1)

/-- `NOP` (42_addressless.md R94). -/
def execNop (t : ValueType) (v : Word) (s : State) : Host.Outcome State Fault Refusal :=
  plainClass ⟨.nop, v, t⟩ (tickGo .x1) s

/-- `HLT` (42_addressless.md R95). -/
def execHlt (t : ValueType) (v : Word) (s : State) : Host.Outcome State Fault Refusal :=
  plainClass ⟨.hlt, v, t⟩ hltExecute s

/-- `IRET` (42_addressless.md R96). -/
def execIret (t : ValueType) (v : Word) (s : State) : Host.Outcome State Fault Refusal :=
  plainClass ⟨.iret, v, t⟩ iretExecute s

/-- `PUSH` (42_addressless.md R97). -/
def execPush (t : ValueType) (v : Word) (s : State) : Host.Outcome State Fault Refusal :=
  plainClass ⟨.push, v, t⟩ (push .ac .pu1 .pu2 .pu3 .pu4) s

/-- `POP` (42_addressless.md R98). -/
def execPop (t : ValueType) (v : Word) (s : State) : Host.Outcome State Fault Refusal :=
  plainClass ⟨.pop, v, t⟩ (pop .ac .po1 .po2 .po3) s

/-- `EI` (42_addressless.md R99). -/
def execEi (t : ValueType) (v : Word) (s : State) : Host.Outcome State Fault Refusal :=
  plainClass ⟨.ei, v, t⟩ x1Ei s

/-- `DI` (42_addressless.md R100). -/
def execDi (t : ValueType) (v : Word) (s : State) : Host.Outcome State Fault Refusal :=
  plainClass ⟨.di, v, t⟩ x1Di s

/-- `CLA` (42_addressless.md R101). -/
def execCla (t : ValueType) (v : Word) (s : State) : Host.Outcome State Fault Refusal :=
  plainClass ⟨.cla, v, t⟩ (x1AluConst .and 0) s

/-- `INC` (42_addressless.md R102). -/
def execInc (t : ValueType) (v : Word) (s : State) : Host.Outcome State Fault Refusal :=
  plainClass ⟨.inc, v, t⟩ (x1AluConst .add 1) s

/-- `DEC` (42_addressless.md R103). -/
def execDec (t : ValueType) (v : Word) (s : State) : Host.Outcome State Fault Refusal :=
  plainClass ⟨.dec, v, t⟩ (x1AluConst .sub 1) s

end Sys2Proof.Machine
end

