-- ==== Sys2Proof/Machine/Branch.lean ====
section
/-! DEFINITION. The Branch-class instructions (43_branch.md): JC JNC JN JNN JZ JNZ JMP, each with its row of the condition
table (R112). -/

namespace Sys2Proof.Machine

/-- `JC` (43_branch.md R105): taken when `C = 1`. -/
def execJc (t : ValueType) (v : Word) (s : State) : Host.Outcome State Fault Refusal :=
  branchClass ⟨.jc, v, t⟩ flagC s

/-- `JNC` (43_branch.md R106): taken when `C = 0`. -/
def execJnc (t : ValueType) (v : Word) (s : State) : Host.Outcome State Fault Refusal :=
  branchClass ⟨.jnc, v, t⟩ (fun u => !flagC u) s

/-- `JN` (43_branch.md R107): taken when `N = 1`. -/
def execJn (t : ValueType) (v : Word) (s : State) : Host.Outcome State Fault Refusal :=
  branchClass ⟨.jn, v, t⟩ flagN s

/-- `JNN` (43_branch.md R108): taken when `N = 0`. -/
def execJnn (t : ValueType) (v : Word) (s : State) : Host.Outcome State Fault Refusal :=
  branchClass ⟨.jnn, v, t⟩ (fun u => !flagN u) s

/-- `JZ` (43_branch.md R109): taken when `Z = 1`. -/
def execJz (t : ValueType) (v : Word) (s : State) : Host.Outcome State Fault Refusal :=
  branchClass ⟨.jz, v, t⟩ flagZ s

/-- `JNZ` (43_branch.md R110): taken when `Z = 0`. -/
def execJnz (t : ValueType) (v : Word) (s : State) : Host.Outcome State Fault Refusal :=
  branchClass ⟨.jnz, v, t⟩ (fun u => !flagZ u) s

/-- `JMP` (43_branch.md R111): taken always. -/
def execJmp (t : ValueType) (v : Word) (s : State) : Host.Outcome State Fault Refusal :=
  branchClass ⟨.jmp, v, t⟩ (fun _ => true) s

end Sys2Proof.Machine
end

