-- ==== Sys2Proof/Machine/Io.lean ====
section
/-! DEFINITION. The IO-class instructions and the two ports (44_io.md): IN OUT. -/

namespace Sys2Proof.Machine

/-- The newline code point (44_io.md R116; from general knowledge, as the spec marks it: U7, log 12). -/
def newline : Int := 10

/-- The byte of a decimal digit: `0x30` to `0x39` (44_io.md R117; U21, log 12). -/
def digitByte (d : Nat) : Byte := BitVec.ofNat 8 (0x30 + d)

/-- The digits of a natural number put before `acc`, most significant first, no leading zero; `fuel` bounds their number. -/
def decDigits : Nat → Nat → List Byte → List Byte
  | 0, _, acc => acc
  | fuel + 1, n, acc => if n < 10 then digitByte n :: acc else decDigits fuel (n / 10) (digitByte (n % 10) :: acc)

/-- `dec(v)`, the decimal text of an integer (44_io.md R117). A number has fewer digits than one more than itself. -/
def dec (v : Int) : List Byte :=
  if v < 0 then 0x2D#8 :: decDigits (v.natAbs + 1) v.natAbs [] else decDigits (v.natAbs + 1) v.natAbs []

/-- The bytes `OUT` writes for a cell (44_io.md R116): one byte for a `Char` or the newline value, decimal text otherwise. -/
def outputBytes (x : Cell) : List Byte :=
  if x.vt = .char ∨ x.value = newline then [BitVec.ofInt 8 x.value] else dec x.value

/-- Append to the output stream (10_state.md R22, 44_io.md R115). -/
def State.write (s : State) (bs : List Byte) : State := { s with out := s.out ++ bs }

/-- `latchAccumulatorFromInput` (44_io.md R114): the head event leaves the queue and becomes a `Char` in `AC`; with no
event ready, `Fatal(InputUnderrun)` and nothing changes. -/
def latchInput (s : State) : Flow :=
  match s.inq with
  | [] => s.raiseFatal .inputUnderrun
  | e :: rest =>
    if e.arrivesAt ≤ s.tick then .go ({ s with inq := rest }.setReg .ac ⟨.nop, e.char, .char⟩)
    else s.raiseFatal .inputUnderrun

/-- The execute tick of `IN`. -/
def x1In (s : State) : Flow := (latchInput s).andThen (tickGo .x1)

/-- The execute tick of `OUT`. -/
def x1Out (s : State) : Flow := tickGo .x1 (s.write (outputBytes s.ac))

/-- `IN` (44_io.md R114). -/
def execIn (t : ValueType) (v : Word) (s : State) : Host.Outcome State Fault Refusal :=
  plainClass ⟨.inp, v, t⟩ x1In s

/-- `OUT` (44_io.md R116). -/
def execOut (t : ValueType) (v : Word) (s : State) : Host.Outcome State Fault Refusal :=
  plainClass ⟨.out, v, t⟩ x1Out s

end Sys2Proof.Machine
end

