-- ==== Sys2Proof/Machine/Dispatch.lean ====
section
/-! DEFINITION. `exec`: one arm per instruction, each one direct call of its meaning. -/

namespace Sys2Proof.Machine

def exec (i : Instr) (s : State) : Host.Outcome State Fault Refusal :=
  match i with
  | .nop t v => Sys2Proof.Machine.execNop t v s
  | .hlt t v => Sys2Proof.Machine.execHlt t v s
  | .iret t v => Sys2Proof.Machine.execIret t v s
  | .push t v => Sys2Proof.Machine.execPush t v s
  | .pop t v => Sys2Proof.Machine.execPop t v s
  | .ei t v => Sys2Proof.Machine.execEi t v s
  | .di t v => Sys2Proof.Machine.execDi t v s
  | .cla t v => Sys2Proof.Machine.execCla t v s
  | .inc t v => Sys2Proof.Machine.execInc t v s
  | .dec t v => Sys2Proof.Machine.execDec t v s
  | .ld t v => Sys2Proof.Machine.execLd t v s
  | .st t v => Sys2Proof.Machine.execSt t v s
  | .cmp t v => Sys2Proof.Machine.execCmp t v s
  | .add t v => Sys2Proof.Machine.execAdd t v s
  | .sub t v => Sys2Proof.Machine.execSub t v s
  | .mul t v => Sys2Proof.Machine.execMul t v s
  | .div t v => Sys2Proof.Machine.execDiv t v s
  | .mod t v => Sys2Proof.Machine.execMod t v s
  | .or t v => Sys2Proof.Machine.execOr t v s
  | .and t v => Sys2Proof.Machine.execAnd t v s
  | .jc t v => Sys2Proof.Machine.execJc t v s
  | .jnc t v => Sys2Proof.Machine.execJnc t v s
  | .jn t v => Sys2Proof.Machine.execJn t v s
  | .jnn t v => Sys2Proof.Machine.execJnn t v s
  | .jz t v => Sys2Proof.Machine.execJz t v s
  | .jnz t v => Sys2Proof.Machine.execJnz t v s
  | .jmp t v => Sys2Proof.Machine.execJmp t v s
  | .inp t v => Sys2Proof.Machine.execIn t v s
  | .out t v => Sys2Proof.Machine.execOut t v s

end Sys2Proof.Machine
end

