-- ==== Sys2Proof/Machine/Step.lean ====
section
/-! DEFINITION. One step: one instruction cycle with its interrupt check (40_cycle_alu.md R73). -/

namespace Sys2Proof.Machine

/-- One whole instruction cycle. From a state that is not `Running` there is no step (60_exceptions.md R120). -/
def step (s : State) : Host.Outcome State Fault Refusal :=
  match stoppedFault s.status with
  | some f => .fault f
  | none =>
    match cycleStart s with
    | .stop t => .next t
    | .go t =>
      match instrOfCell t.cfg t.cr with
      | .ok i => completeOutcome (exec i t)
      | .error _ => .next (unknownOpcode t)

/-- `s` with the instruction whose bits are `w` (the bits from `nbits` up are zero) at the cell the next fetch reads. It
stands for the host's load of that one cell (log 2). -/
def State.withFetchWord (s : State) (nbits w : Nat) : State := placeWord s (w % 2 ^ nbits)

end Sys2Proof.Machine
end

