-- ==== Sys2Proof/Machine/Load.lean ====
section
/-! DEFINITION. The host's side of a run: the two wire formats (30_encoding.md R50, R51), what the loader refuses
(70_reset_and_hazards.md R152), reset with a program loaded (R150, R151), and what the host reads when the run has
ended (R157). -/

namespace Sys2Proof.Machine

/-- One term of the program wire format (30_encoding.md R50). `label` and `termInfo` "do not reach the hardware" and are
left out. -/
structure Term where
  index : Int
  opcode : String
  operand : Option Int
  operandType : Option String
  deriving DecidableEq, Repr

/-- A program in the wire format (30_encoding.md R50). -/
structure Program where
  startAddress : Int
  instructions : List Term
  deriving DecidableEq, Repr

/-- One input event in the wire format (30_encoding.md R51). -/
structure WireEvent where
  arrivesAt : Int
  char : String
  deriving DecidableEq, Repr

/-- The five names of the value types (30_encoding.md R41, R50). -/
def valueTypeNames : List (String × ValueType) :=
  [("None", .none), ("Number", .number), ("Char", .char), ("AddressDirect", .addressDirect),
   ("AddressIndirect", .addressIndirect)]

/-- The value type with a name, if the string is one of the five (30_encoding.md R41). -/
def ValueType.ofName (n : String) : Option ValueType := valueTypeNames.lookup n

/-- The value type of a term: `None` where it names none (30_encoding.md R50). -/
def termType (t : Term) : Option ValueType :=
  match t.operandType with
  | none => some .none
  | some n => ValueType.ofName n

/-- The operand of a term: 0 where it has none (30_encoding.md R50). -/
def termOperand (t : Term) : Int := t.operand.getD 0

/-- The opcode of a term in a configuration: `DIV` is no opcode when `HAS_DIV` is false (30_encoding.md R47, R52). -/
def termOpcode (c : Config) (t : Term) : Option Opcode :=
  match Opcode.ofMnemonic t.opcode with
  | none => none
  | some op => if op = .div ∧ c.hasDiv = false then none else some op

/-- `cell(term)` (30_encoding.md R50). -/
def termCell (c : Config) (t : Term) : Option Cell :=
  match termOpcode c t, termType t with
  | some op, some vt => some ⟨op, termOperand t, vt⟩
  | _, _ => none

/-- The code of a single-character string (30_encoding.md R51). -/
def charCode (s : String) : Option Nat :=
  match s.toList with
  | [ch] => some ch.toNat
  | _ => none

/-- The event of the input queue a wire event becomes (30_encoding.md R51). -/
def inputEvent (c : Config) (e : WireEvent) : Option InputEvent :=
  match charCode e.char with
  | none => none
  | some k => if 0 ≤ e.arrivesAt ∧ k ≤ c.charMax then some ⟨e.arrivesAt.toNat, k⟩ else none

/-- The refusals L1 to L8 (70_reset_and_hazards.md R152). Each is the host's, before any state exists; safe. -/
inductive LoadRefusal where
  /-- L1: the start address is negative or past every term's index, or there are no terms. -/
  | startAddress
  /-- L2: an opcode string is no mnemonic of this configuration. -/
  | mnemonic
  /-- L3: an index is outside `0..ADDR_MAX`. -/
  | index
  /-- L4: two terms have one index. -/
  | duplicateIndex
  /-- L5: an operand is no word value. -/
  | operand
  /-- L6: an operand type is none of the five names. -/
  | operandType
  /-- L7: an input event is not one character of at most `CHAR_MAX` at a time from 0 on. -/
  | event
  /-- L8: the configuration is not legal. -/
  | config
  deriving DecidableEq, Repr

/-- Whether a refusal's condition holds (70_reset_and_hazards.md R152, the table's middle column). -/
def refuses (c : Config) (p : Program) (es : List WireEvent) : LoadRefusal → Bool
  | .startAddress => decide (p.startAddress < 0) || p.instructions.all fun t => decide (t.index < p.startAddress)
  | .mnemonic => p.instructions.any fun t => (termOpcode c t).isNone
  | .index => p.instructions.any fun t => decide (t.index < 0) || decide ((c.addrMax : Int) < t.index)
  | .duplicateIndex => !decide (p.instructions.map Term.index).Nodup
  | .operand => p.instructions.any fun t => !c.isWord (termOperand t)
  | .operandType => p.instructions.any fun t => (termType t).isNone
  | .event => es.any fun e => (inputEvent c e).isNone
  | .config => !c.legal

/-- Every refusal that holds, in the order of the table (log 13). -/
def loadRefusals (c : Config) (p : Program) (es : List WireEvent) : List LoadRefusal :=
  [.startAddress, .mnemonic, .index, .duplicateIndex, .operand, .operandType, .event, .config].filter (refuses c p es)

/-- Load one term's cell at the address its index gives (70_reset_and_hazards.md R151). -/
def loadTerm (c : Config) (m : Memory) (t : Term) : Memory :=
  match termCell c t with
  | some x => Memory.write m t.index.toNat x
  | none => m

/-- `Reset(program, events)` (70_reset_and_hazards.md R150): the state a run starts in, or why there is no run. -/
def load (c : Config) (p : Program) (es : List WireEvent) : Except (List LoadRefusal) State :=
  match loadRefusals c p es with
  | [] => .ok { State.boot c p.startAddress (es.filterMap (inputEvent c)) with
      mem := p.instructions.foldl (loadTerm c) [] }
  | rs => .error rs

/-- What the host may read when the run has ended (70_reset_and_hazards.md R157). -/
structure HostReport where
  status : Status
  out : List Byte
  trace : List TraceLine
  ac : Cell
  ip : Cell
  cr : Cell
  ps : Cell
  sp : Cell
  dr : Cell
  ar : Cell
  mem : Memory
  tick : Nat
  inq : List InputEvent
  deriving DecidableEq, Repr

/-- The host's reading, once `STATUS` has left `Running` (70_reset_and_hazards.md R157); nothing before that (R151). -/
def hostReport (s : State) : Option HostReport :=
  if s.status = .running then none
  else
    some { status := s.status, out := s.out, trace := s.trace, ac := s.ac, ip := s.ip, cr := s.cr, ps := s.ps, sp := s.sp,
           dr := s.dr, ar := s.ar, mem := s.mem, tick := s.tick, inq := s.inq }

end Sys2Proof.Machine
end

