-- ==== Sys2Proof/Machine/Ticks.lean ====
section
/-! DEFINITION. The control unit one tick at a time (10_state.md R26, 40_cycle_alu.md R75): the same machine as `step`, with
`PHASE` as the tick group that comes next. -/

namespace Sys2Proof.Machine

/-- The state of a model that steps one tick at a time: the machine's state and `PHASE` (10_state.md R26). `f1` is "about
to fetch". -/
structure TickState where
  phase : TickGroup
  st : State
  deriving DecidableEq, Repr

/-- The phase after reset (10_state.md section 9). -/
def TickState.atReset (s : State) : TickState := ⟨.f1, s⟩

/-- The one-tick execute group `X1` of the opcode in `CR` (40_cycle_alu.md R72, R75). An opcode without one never has
`X1` next; the group is then empty. -/
def groupX1 (s : State) : Flow :=
  match s.cr.op with
  | .ei => x1Ei s
  | .di => x1Di s
  | .cla => x1AluConst .and 0 s
  | .inc => x1AluConst .add 1 s
  | .dec => x1AluConst .sub 1 s
  | .ld => x1Ld s
  | .cmp => x1Cmp s
  | .add => x1Alu .add s
  | .sub => x1Alu .sub s
  | .mul => x1Alu .mul s
  | .div => x1Alu .div s
  | .mod => x1Alu .mod s
  | .or => x1Alu .or s
  | .and => x1Alu .and s
  | .inp => x1In s
  | .out => x1Out s
  | _ => tickGo .x1 s

/-- The signals of one tick group, with its tick (40_cycle_alu.md R67, R75). The limit check is a zero-tick decision
before `F1`. -/
def tickAct (g : TickGroup) (s : State) : Flow :=
  match g with
  | .f1 => (limitCheck s).andThen groupF1
  | .f2 => groupF2 s
  | .f3 => groupF3 s
  | .af => groupAf s
  | .of => groupOf s
  | .x1 => groupX1 s
  | .s1 => groupS1 s
  | .s2 => groupS2 s
  | .pu1 => spDown .pu1 s
  | .pu2 => spToAr .pu2 s
  | .pu3 => regToDr .ac .pu3 s
  | .pu4 => drToMemTick .pu4 s
  | .po1 => spToAr .po1 s
  | .po2 => popRead .po2 s
  | .po3 => drToReg .ac .po3 s
  | .b1 => groupB1 s
  | .ie1 => groupIe1 s
  | .ie2 => spDown .ie2 s
  | .ie3 => spToAr .ie3 s
  | .ie4 => regToDr .ip .ie4 s
  | .ie5 => drToMemTick .ie5 s
  | .ie6 => spDown .ie6 s
  | .ie7 => spToAr .ie7 s
  | .ie8 => regToDr .ps .ie8 s
  | .ie9 => drToMemTick .ie9 s
  | .ie10 => groupIe10 s
  | .ie11 => groupIe11 s
  | .ie12 => groupIe12 s
  | .ix1 => spToAr .ix1 s
  | .ix2 => popRead .ix2 s
  | .ix3 => drToReg .ps .ix3 s
  | .ix4 => spToAr .ix4 s
  | .ix5 => popRead .ix5 s
  | .ix6 => drToReg .ip .ix6 s
  | .ix7 => groupIx7 s

/-- The zero-tick end of an instruction: its trace block ends and the interrupt is tested (60_exceptions.md R127, R133). -/
def afterInstruction (s : State) : TickState :=
  if interruptDue s.endBlock then
    if nestExceeded s.endBlock then ⟨.ie1, (s.endBlock.raiseFatal .nestDepthExceeded).state⟩ else ⟨.ie1, s.endBlock⟩
  else ⟨.f1, s.endBlock⟩

/-- A zero-tick decision that stops the machine with an expected termination ends the trace block (60_exceptions.md R121,
R138). -/
def afterStop (g : TickGroup) (x : Flow) : TickState :=
  ⟨g, match x.state.status with
    | .fatal _ => x.state
    | _ => x.state.endBlock⟩

/-- A branch after its target is resolved: `B1` when taken, the end of the instruction when not (43_branch.md R104). -/
def branchDecision (cond : State → Bool) (s : State) : TickState :=
  if cond s then ⟨.b1, s⟩ else afterInstruction s

/-- The start of an opcode's execute sequence (40_cycle_alu.md R75). -/
def beginExecute (g : TickGroup) (s : State) : TickState :=
  match s.cr.op with
  | .hlt => afterStop g (hltExecute s)
  | .iret => if s.depth = 0 then afterStop g (s.stopAs .interruptReturn) else ⟨.ix1, s⟩
  | .push => ⟨.pu1, s⟩
  | .pop => ⟨.po1, s⟩
  | .st => ⟨.s1, s⟩
  | .jc => branchDecision flagC s
  | .jnc => branchDecision (fun u => !flagC u) s
  | .jn => branchDecision flagN s
  | .jnn => branchDecision (fun u => !flagN u) s
  | .jz => branchDecision flagZ s
  | .jnz => branchDecision (fun u => !flagZ u) s
  | .jmp => branchDecision (fun _ => true) s
  | _ => ⟨.x1, s⟩

/-- The decoder after `F3` (40_cycle_alu.md R69, R75). -/
def afterDecode (s : State) : TickState :=
  match decodeControl s.cfg s.cr with
  | none => ⟨.f3, unknownOpcode s⟩
  | some (_, true) => ⟨.af, s⟩
  | some (.address, false) => ⟨.of, s⟩
  | some (_, false) => beginExecute .f3 s

/-- After an address fetch: `OF` for the Address class, the branch's execute for the Branch class (40_cycle_alu.md R75). -/
def afterAddressFetch (s : State) : TickState :=
  if s.cr.op.cls = some .address then ⟨.of, s⟩ else beginExecute .af s

/-- What comes after a completed tick group (40_cycle_alu.md R75, column "Then"). -/
def tickAfter (g : TickGroup) (s : State) : TickState :=
  match g with
  | .f1 => ⟨.f2, s⟩
  | .f2 => ⟨.f3, s⟩
  | .f3 => afterDecode s
  | .af => afterAddressFetch s
  | .of => beginExecute .of s
  | .x1 => afterInstruction s
  | .s1 => ⟨.s2, s⟩
  | .s2 => afterInstruction s
  | .pu1 => ⟨.pu2, s⟩
  | .pu2 => ⟨.pu3, s⟩
  | .pu3 => ⟨.pu4, s⟩
  | .pu4 => afterInstruction s
  | .po1 => ⟨.po2, s⟩
  | .po2 => ⟨.po3, s⟩
  | .po3 => afterInstruction s
  | .b1 => afterInstruction s
  | .ie1 => ⟨.ie2, s⟩
  | .ie2 => ⟨.ie3, s⟩
  | .ie3 => ⟨.ie4, s⟩
  | .ie4 => ⟨.ie5, s⟩
  | .ie5 => ⟨.ie6, s⟩
  | .ie6 => ⟨.ie7, s⟩
  | .ie7 => ⟨.ie8, s⟩
  | .ie8 => ⟨.ie9, s⟩
  | .ie9 => ⟨.ie10, s⟩
  | .ie10 => ⟨.ie11, s⟩
  | .ie11 => ⟨.ie12, s⟩
  | .ie12 => ⟨.f1, s.enterHandler.endBlock⟩
  | .ix1 => ⟨.ix2, s⟩
  | .ix2 => ⟨.ix3, s⟩
  | .ix3 => ⟨.ix4, s⟩
  | .ix4 => ⟨.ix5, s⟩
  | .ix5 => ⟨.ix6, s⟩
  | .ix6 => ⟨.ix7, s⟩
  | .ix7 => afterInstruction s.leaveHandler

/-- One tick of the machine, and nothing once it has stopped (60_exceptions.md R120). The phase of a stopped machine is
the group that failed, or the last one that ran. -/
def tickStep (x : TickState) : TickState :=
  if x.st.status = .running then
    match tickAct x.phase x.st with
    | .stop t => ⟨x.phase, t⟩
    | .go t => tickAfter x.phase t
  else x

/-- `n` ticks. -/
def tickRun : Nat → TickState → TickState
  | 0, x => x
  | n + 1, x => tickRun n (tickStep x)

end Sys2Proof.Machine
end

