-- ==== Sys2Proof/Safety.lean ====
section
/-! DEFINITION. The terms statements are written in: what counts as a safe run (60_exceptions.md R120 to R123), the
invariant every state of a run has, and what an instruction may leave unchanged. -/

namespace Sys2Proof.Machine

/-! ### Safe runs -/

/-- An expected termination, "not an error" (60_exceptions.md R120). -/
def Status.expected : Status → Bool
  | .halt => true
  | .interruptReturn => true
  | _ => false

/-- A failure (60_exceptions.md R120, R123). -/
def Status.failed : Status → Bool
  | .fatal _ => true
  | _ => false

/-- A state from which the machine goes on or has ended as expected. -/
def State.Safe (s : State) : Prop := s.status.failed = false

/-- One step of the machine, as a relation. -/
def Steps (s t : State) : Prop := step s = .next t

/-! ### The invariant -/

/-- What holds of every state of a run (00_scope.md R4; 10_state.md R10, R19, R21; 40_cycle_alu.md R74;
60_exceptions.md R133): a legal configuration; every cell of a register, of memory and every character of the input
queue a word value; memory in its canonical form and inside `0..ADDR_MAX`; the two counters within their bounds. -/
structure State.Inv (s : State) : Prop where
  legal : s.cfg.legal = true
  ac : s.ac.wf s.cfg = true
  ip : s.ip.wf s.cfg = true
  cr : s.cr.wf s.cfg = true
  ps : s.ps.wf s.cfg = true
  sp : s.sp.wf s.cfg = true
  dr : s.dr.wf s.cfg = true
  ar : s.ar.wf s.cfg = true
  memForm : Memory.wf s.mem
  memCells : ∀ e ∈ s.mem, e.2.wf s.cfg = true
  memRange : ∀ e ∈ s.mem, e.1 ≤ s.cfg.addrMax
  chars : ∀ e ∈ s.inq, s.cfg.isWord (e.char : Int) = true
  limit : ∀ n, s.cfg.instrLimit = some n → s.icount ≤ n
  nest : ∀ n, s.cfg.maxNest = some n → s.depth ≤ n

/-- The tick number of a trace line, if it is a tuple. -/
def TraceLine.tick : TraceLine → Option Nat
  | .tuple t => some t.tick
  | .blank => none

/-- The trace has one tuple for every completed tick, stamped 1, 2, …, `TICK` in order (60_exceptions.md R138). -/
def State.TraceNumbered (s : State) : Prop := s.trace.filterMap TraceLine.tick = List.range' 1 s.tick

/-! ### Frames: what stays as it was from `s` to `u` -/

/-- Every register outside the list. -/
def KeepsRegs (rs : List Reg) (s u : State) : Prop := ∀ r, r ∉ rs → u.reg r = s.reg r

/-- Every cell of memory: each address reads what it read before. -/
def KeepsMemory (s u : State) : Prop := ∀ a, memRead u a = memRead s a

/-- Every cell of memory but the one at an address. -/
def KeepsMemoryBut (addr : Int) (s u : State) : Prop := ∀ a, a ≠ addr → memRead u a = memRead s a

/-- The input queue and the output stream. -/
def KeepsPorts (s u : State) : Prop := u.inq = s.inq ∧ u.out = s.out

/-- The parameters, the instruction count and the nesting depth. -/
def KeepsCounters (s u : State) : Prop := u.cfg = s.cfg ∧ u.icount = s.icount ∧ u.depth = s.depth

/-- The parameters, both counters and the status. -/
def KeepsControl (s u : State) : Prop := KeepsCounters s u ∧ u.status = s.status

/-- Exactly `n` ticks went by, each with one line added at the end of the trace. -/
def Took (n : Nat) (s u : State) : Prop :=
  u.tick = s.tick + n ∧ ∃ l : List TraceLine, l.length = n ∧ u.trace = s.trace ++ l

/-- The bits of `PS.value` at which the predicate holds, and the tag fields of `PS`. -/
def KeepsPs (keep : Nat → Prop) (s u : State) : Prop :=
  (∀ i, keep i → psBit u i = psBit s i) ∧ u.ps.op = s.ps.op ∧ u.ps.vt = s.ps.vt

/-- `Z`, `N` and `C` as the flag rule sets them from an exact result (40_cycle_alu.md R63), every other bit of `PS` and
its tag fields as they were (R64). -/
def FlagsOf (raw : Int) (s u : State) : Prop :=
  flagZ u = decide (wrap s.cfg raw = 0) ∧ flagN u = decide (wrap s.cfg raw < 0) ∧
    flagC u = (decide (raw < s.cfg.wordMin) || decide (s.cfg.wordMax < raw)) ∧ KeepsPs (fun i => 3 ≤ i) s u

/-- The operand of an Address-class instruction cell `x` is there: `p` is the cell whose value is the effective address,
`y` the cell it holds (41_address.md R80). -/
def Operand (s : State) (x p y : Cell) : Prop := resolvedCell s x = some p ∧ memRead s p.value = some y

/-- The ticks of the address fetch: one when the operand is indirect (40_cycle_alu.md R70). -/
def indirectTicks (t : ValueType) : Nat := if t = .addressIndirect then 1 else 0

/-- What an Address-class instruction with the cell `x` leaves in the working registers (41_address.md R80): the effective
address in `AR`, the operand cell in `DR`, the instruction in `CR`. -/
def LeavesOperand (x p y : Cell) (u : State) : Prop := u.cr = x ∧ u.ar = p ∧ u.dr = y

/-- What an instruction without operand fetch leaves there: its own cell in `CR` and `DR` (40_cycle_alu.md R68). -/
def LeavesCell (x : Cell) (u : State) : Prop := u.cr = x ∧ u.dr = x

/-- An instruction of the form "`AC op DR -> AC`, flags updated" with the exact result `raw` completes (41_address.md
section 4): the wrapped result under the accumulator's tags, the flags, nothing else. -/
def CompletesAlu (i : Instr) (raw : Int) (p y : Cell) (s : State) : Prop :=
  ∃ u, exec i s = .next u ∧ u.ac = ⟨s.ac.op, wrap s.cfg raw, s.ac.vt⟩ ∧ FlagsOf raw s u ∧ LeavesOperand i.cell p y u ∧
    KeepsRegs [.ac, .ps, .cr, .ar, .dr] s u ∧ KeepsMemory s u ∧ KeepsPorts s u ∧ KeepsControl s u ∧
    Took (indirectTicks i.cell.vt + 2) s u

/-- A one-tick instruction of the form "`AC op K(n) -> AC`, flags updated" completes (42_addressless.md R101 to R103). -/
def CompletesAluConst (i : Instr) (raw : Int) (s : State) : Prop :=
  ∃ u, exec i s = .next u ∧ u.ac = ⟨s.ac.op, wrap s.cfg raw, s.ac.vt⟩ ∧ FlagsOf raw s u ∧ LeavesCell i.cell u ∧
    KeepsRegs [.ac, .ps, .cr, .dr] s u ∧ KeepsMemory s u ∧ KeepsPorts s u ∧ KeepsControl s u ∧ Took 1 s u

/-- A branch whose target cell is `p` completes (43_branch.md R104): `IP` takes the whole cell in one tick when the
condition holds, and nothing and no tick when it does not. -/
def CompletesBranch (i : Instr) (taken : Bool) (p : Cell) (s : State) : Prop :=
  ∃ u, exec i s = .next u ∧ u.ip = (if taken then p else s.ip) ∧ u.cr = i.cell ∧ u.dr = p ∧
    u.ar = (if i.cell.vt = .addressIndirect then i.cell else s.ar) ∧ KeepsRegs [.ip, .cr, .dr, .ar] s u ∧
    KeepsMemory s u ∧ KeepsPorts s u ∧ KeepsControl s u ∧ Took (indirectTicks i.cell.vt + (if taken then 1 else 0)) s u

/-- The machine has stopped with a fatal condition and nothing else has happened. -/
def StopsAt (s : State) (cause : FatalCause) (u : State) : Prop := u = s.withStatus (.fatal cause)

end Sys2Proof.Machine
end

