-- ==== Sys2Proof/Certificates/Slice0/Obligations.lean ====
section
/-! DEFINITION. The statements for the provers, in the order of the sections of spec/. -/

open Sys2Proof Sys2Proof.Machine

/-! ### Encoding (30_encoding.md) -/

/-- Decoding inverts encoding, on every instruction of every legal configuration (30_encoding.md R40, R42, R44). -/
def Obligations.DecodeInvertsEncode : Prop :=
  ∀ (c : Config) (i : Instr), c.legal = true → i.wf c = true → decode c (encode c i) = .ok i

/-- Encoding inverts decoding: no two patterns decode to one instruction, and what decodes is well formed. -/
def Obligations.EncodeInvertsDecode : Prop :=
  ∀ (c : Config) (b : Nat) (i : Instr), c.legal = true → decode c b = .ok i → encode c i = b ∧ i.wf c = true

/-- The cell layout of 30_encoding.md R40, both ways. -/
def Obligations.CellPatternFields : Prop :=
  ∀ c : Config, c.legal = true →
    (∀ x : Cell, x.wf c = true →
      bitsOfCell c x = (x.op.number <<< (c.w + 3)) ||| (x.vt.code <<< c.w) ||| (x.value % 2 ^ c.w).toNat ∧
      bitsOfCell c x < 2 ^ (c.w + 8) ∧ cellOfBits c (bitsOfCell c x) = .ok x ∧
      decode c (bitsOfCell c x) = instrOfCell c x) ∧
    (∀ (b : Nat) (y : Cell), cellOfBits c b = .ok y →
      y.op.number = b >>> (c.w + 3) ∧ y.vt.code = (b >>> c.w) % 8 ∧ y.value = sextW c (b % 2 ^ c.w))

/-- A few words of the spec's table decode to the instructions they stand for (95_test_vectors.md section 2). -/
def Obligations.TableWordsDecode : Prop :=
  decodeTableWord 40 0x0000000000 = some (.nop .none 0) ∧
  decodeTableWord 40 0x0800000000 = some (.hlt .none 0) ∧
  decodeTableWord 40 0x5300000005 = some (.ld .addressDirect 5) ∧
  decodeTableWord 40 0x5c00000014 = some (.st .addressIndirect 20) ∧
  decodeTableWord 40 0xd300000007 = some (.jmp .addressDirect 7) ∧
  decodeTableWord 40 0xe000000000 = some (.out .none 0)

/-- The reserved value-type codes 5, 6 and 7 decode to no cell, and nothing else of `CELL_BITS` bits is refused for its
value type (30_encoding.md R48; the refusal by name is the model's, log 10). -/
def Obligations.ReservedValueTypesRefused : Prop :=
  ∀ (c : Config) (b : Nat), c.legal = true →
    (cellOfBits c b = .error .reservedValueType ↔ b < 2 ^ (c.w + 8) ∧ 5 ≤ (b >>> c.w) % 8) ∧
    (cellOfBits c b = .error .tooWide ↔ 2 ^ (c.w + 8) ≤ b)

/-- The class is a range test on the opcode number (30_encoding.md R43), and the address fetch the decoder asks for is the
test `vt = AddressIndirect` within the Address and Branch classes (40_cycle_alu.md R69). -/
def Obligations.ClassIsRangeTest : Prop :=
  ∀ op : Opcode,
    (op.cls = some .addressless ↔ op.number ≤ 9) ∧
    (op.cls = some .address ↔ 10 ≤ op.number ∧ op.number ≤ 19) ∧
    (op.cls = some .branch ↔ 20 ≤ op.number ∧ op.number ≤ 26) ∧
    (op.cls = some .io ↔ 27 ≤ op.number ∧ op.number ≤ 28) ∧
    (∀ (c : Config) (v : Word) (t : ValueType) (k : OpClass) (ind : Bool),
      decodeControl c ⟨op, v, t⟩ = some (k, ind) →
        op.cls = some k ∧ (ind = true ↔ t = .addressIndirect ∧ (k = .address ∨ k = .branch)))

/-! ### Words, ALU and flags (40_cycle_alu.md) -/

/-- `wrap` is two's-complement modulo into the canonical range (40_cycle_alu.md R60). -/
def Obligations.WrapIsModular : Prop :=
  ∀ (c : Config) (v : Int), c.legal = true →
    wrap c v = (v + 2 ^ (c.w - 1)) % 2 ^ c.w - 2 ^ (c.w - 1) ∧ c.isWord (wrap c v) = true ∧
    (∃ k : Int, wrap c v = v + k * 2 ^ c.w) ∧ (c.isWord v = true → wrap c v = v) ∧
    wrap c (wrap c v) = wrap c v ∧ wrap c (c.wordMax + 1) = c.wordMin

/-- A marked ALU call moves `Z`, `N` and `C` by the flag rule and keeps the rest of `PS`; an unmarked one does not touch
`PS` (40_cycle_alu.md R63, R64). -/
def Obligations.MarkedAluMovesThreeFlags : Prop :=
  ∀ (s : State) (op : AluOp) (l r : Cell), s.cfg.legal = true →
    (aluFails op r = false →
      ∃ u, aluFlags op l r s = .go u ∧ FlagsOf (aluRaw s.cfg op l.value r.value) s u ∧ KeepsRegs [.ps] s u ∧
        KeepsMemory s u ∧ KeepsPorts s u ∧ KeepsControl s u ∧ Took 0 s u) ∧
    (∀ d : Reg, d ≠ .ps → (s.aluLatch d op r).ps = s.ps)

/-- `OR` and `AND` act bit by bit on the two's-complement patterns (40_cycle_alu.md R62). -/
def Obligations.BitwiseActsOnPatterns : Prop :=
  ∀ (c : Config) (a b : Int) (i : Nat), c.legal = true →
    (tcW c (aluRaw c .or a b)).testBit i = ((tcW c a).testBit i || (tcW c b).testBit i) ∧
    (tcW c (aluRaw c .and a b)).testBit i = ((tcW c a).testBit i && (tcW c b).testBit i) ∧
    c.isWord (aluRaw c .or a b) = true ∧ c.isWord (aluRaw c .and a b) = true

/-- Which ALU operations can leave the canonical range on words: `DIV` only for the least word by -1, `MOD`, `OR`, `AND`
and the passthroughs never (40_cycle_alu.md R62, the default `DIVMOD`). -/
def Obligations.OnlyLeastByMinusOneOverflowsDivision : Prop :=
  ∀ (c : Config) (a b : Int), c.legal = true → c.divMod = .truncation → c.isWord a = true → c.isWord b = true →
    c.isWord (aluRaw c .or a b) = true ∧ c.isWord (aluRaw c .and a b) = true ∧
    c.isWord (aluRaw c .left a b) = true ∧ c.isWord (aluRaw c .right a b) = true ∧
    (b ≠ 0 → c.isWord (aluRaw c .mod a b) = true ∧
      (c.isWord (aluRaw c .div a b) = false ↔ a = c.wordMin ∧ b = -1))

/-- The default division rounds toward zero, and the remainder has the dividend's sign or is 0 (41_address.md R91). -/
def Obligations.DefaultDivisionTruncates : Prop :=
  ∀ (c : Config) (a b : Int), c.divMod = .truncation → b ≠ 0 →
    a = b * divq c a b + divr c a b ∧ (divr c a b).natAbs < b.natAbs ∧ (b * divq c a b).natAbs ≤ a.natAbs ∧
    (0 ≤ a → 0 ≤ divr c a b) ∧ (a ≤ 0 → divr c a b ≤ 0)

/-! ### Memory (20_memory.md) -/

/-- `MemRead` answers the whole cell inside `0..ADDR_MAX` and is fatal outside; as a signal it moves `DR` only
(20_memory.md R31). -/
def Obligations.ReadIsFatalExactlyOutOfRange : Prop :=
  ∀ s : State,
    (∀ a : Int, memRead s a = none ↔ a < 0 ∨ (s.cfg.addrMax : Int) < a) ∧
    (∀ x, memRead s s.ar.value = some x → memToDr s = .go (s.setReg .dr x)) ∧
    (memRead s s.ar.value = none → ∃ u, memToDr s = .stop u ∧ StopsAt s .addressOutOfRange u)

/-- `MemWrite` replaces the whole cell at `AR` by `DR` and nothing else, with the range check of a read
(20_memory.md R32). -/
def Obligations.WriteReplacesOneCell : Prop :=
  ∀ s : State,
    (0 ≤ s.ar.value ∧ s.ar.value ≤ (s.cfg.addrMax : Int) →
      ∃ u, drToMem s = .go u ∧ memRead u s.ar.value = some s.dr ∧ KeepsMemoryBut s.ar.value s u ∧
        KeepsRegs [] s u ∧ KeepsPorts s u ∧ KeepsControl s u ∧ Took 0 s u) ∧
    (s.ar.value < 0 ∨ (s.cfg.addrMax : Int) < s.ar.value →
      ∃ u, drToMem s = .stop u ∧ StopsAt s .addressOutOfRange u)

/-- In the canonical form equal memories are equal data (the form is the model's: log 3). -/
def Obligations.CanonicalMemoriesAreExtensional : Prop :=
  ∀ m n : Memory, Memory.wf m → Memory.wf n → (∀ a, Memory.read m a = Memory.read n a) → m = n

/-! ### Reset and load (70_reset_and_hazards.md) -/

/-- The state a loaded run starts in (70_reset_and_hazards.md R150, R151; 10_state.md section 9). -/
def Obligations.LoadGivesResetState : Prop :=
  ∀ (c : Config) (p : Program) (es : List WireEvent) (s : State), load c p es = .ok s →
    (∀ t ∈ p.instructions, ∃ x, termCell c t = some x ∧ memRead s t.index = some x) ∧
    (∀ a : Int, 0 ≤ a → a ≤ (c.addrMax : Int) → (∀ t ∈ p.instructions, t.index ≠ a) →
      memRead s a = some Cell.zero) ∧
    s.cfg = c ∧ s.ac = Cell.zero ∧ s.ip = Cell.const p.startAddress ∧ s.cr = Cell.zero ∧ s.ps = Cell.zero ∧
    s.sp = Cell.const ((c.addrMax : Int) + 1) ∧ s.dr = Cell.zero ∧ s.ar = Cell.zero ∧ s.tick = 0 ∧
    es.map (inputEvent c) = s.inq.map some ∧ s.out = [] ∧ s.icount = 0 ∧ s.depth = 0 ∧ s.status = .running

/-- The loader refuses exactly by L1 to L8 (70_reset_and_hazards.md R152); that a character's code is its Unicode scalar
value is the model's choice (log 13). -/
def Obligations.LoaderRefusesExactly : Prop :=
  ∀ (c : Config) (p : Program) (es : List WireEvent),
    (∃ rs, load c p es = .error rs) ↔
      (p.instructions = [] ∨ p.startAddress < 0 ∨ ∀ t ∈ p.instructions, t.index < p.startAddress) ∨
      (∃ t ∈ p.instructions, t.opcode ∉ mnemonicTable.map Prod.fst ∨ (t.opcode = "DIV" ∧ c.hasDiv = false)) ∨
      (∃ t ∈ p.instructions, t.index < 0 ∨ (c.addrMax : Int) < t.index) ∨
      ¬(p.instructions.map Term.index).Nodup ∨
      (∃ t ∈ p.instructions, ∃ v, t.operand = some v ∧ c.isWord v = false) ∨
      (∃ t ∈ p.instructions, ∃ n, t.operandType = some n ∧ n ∉ valueTypeNames.map Prod.fst) ∨
      (∃ e ∈ es, e.arrivesAt < 0 ∨ ∀ ch : Char, e.char.toList = [ch] → c.charMax < ch.toNat) ∨
      c.legal = false

/-- The reset state of the model, with the choices of logs 2 and 8: nothing loaded, the default configuration. It has the
invariant, and its trace is numbered. -/
def Obligations.ResetHasInvariant : Prop :=
  State.reset.Inv ∧ State.reset.TraceNumbered ∧ State.reset.status = .running ∧
    State.reset.ip = ⟨.nop, 0, .none⟩ ∧ State.reset.sp = ⟨.nop, 2048, .none⟩ ∧ flagEI State.reset = false ∧
    (∀ a : Int, 0 ≤ a → a ≤ 2047 → memRead State.reset a = some Cell.zero) ∧ memRead State.reset 2048 = none

/-- Every run that the loader starts begins in the invariant, where input characters fit a word (log 18). -/
def Obligations.LoadHasInvariant : Prop :=
  ∀ (c : Config) (p : Program) (es : List WireEvent) (s : State),
    (c.charMax : Int) ≤ c.wordMax → load c p es = .ok s → s.Inv ∧ s.TraceNumbered

/-! ### The instruction cycle (40_cycle_alu.md) -/

/-- Where the cell at `IP` is an instruction `i` and the ceiling is not reached, a step is `exec i` from the state the
three fetch ticks leave, followed by the end of the cycle (`completeOutcome`: the trace block's end and the interrupt
check). -/
def Obligations.StepRunsDecodedInstruction : Prop :=
  ∀ (s : State) (x : Cell) (i : Instr), s.status = .running → limitReached s = false →
    memRead s s.ip.value = some x → instrOfCell s.cfg x = .ok i →
    ∃ u, step s = completeOutcome (exec i u) ∧ i.cell = x ∧ LeavesCell x u ∧ u.ar = s.ip ∧
      u.ip = ⟨s.ip.op, wrap s.cfg (s.ip.value + 1), s.ip.vt⟩ ∧ KeepsRegs [.ip, .cr, .dr, .ar] s u ∧
      KeepsMemory s u ∧ KeepsPorts s u ∧ u.cfg = s.cfg ∧ u.icount = s.icount + 1 ∧ u.depth = s.depth ∧
      u.status = .running ∧ Took 3 s u

/-- A running machine always has a next step; a stopped one never does, and the fault says how it stopped
(60_exceptions.md R120). That a stop is a next state and a step after it a fault is the model's reading (log 5). -/
def Obligations.StepExistsExactlyWhileRunning : Prop :=
  ∀ s : State,
    (s.status = .running → ∃ t, step s = .next t) ∧
    (s.status = .halt → step s = .fault .halted) ∧
    (s.status = .interruptReturn → step s = .fault .interruptReturned) ∧
    (∀ c, s.status = .fatal c → step s = .fault (.fatal c)) ∧
    Status.code .running = 0 ∧ Status.code .halt = 1 ∧ Status.code .interruptReturn = 2 ∧
    (∀ c, Status.code (.fatal c) = 3)

/-- The ceiling on instructions (40_cycle_alu.md R74). -/
def Obligations.CeilingStopsBeforeFetch : Prop :=
  ∀ s : State, s.status = .running →
    ((∃ n, s.cfg.instrLimit = some n ∧ n ≤ s.icount) →
      ∃ u, step s = .next u ∧ StopsAt s .instructionLimitExceeded u) ∧
    ((∀ n, s.cfg.instrLimit = some n → s.icount < n) → ∀ t, step s = .next t → t.icount = s.icount + 1)

/-- The fetch unit (40_cycle_alu.md R68). -/
def Obligations.FetchTakesThreeTicks : Prop :=
  ∀ s : State,
    (∀ x, memRead s s.ip.value = some x →
      ∃ u, fetch s = .go u ∧ u.ar = s.ip ∧ u.ip = ⟨s.ip.op, wrap s.cfg (s.ip.value + 1), s.ip.vt⟩ ∧
        LeavesCell x u ∧ KeepsRegs [.ip, .cr, .dr, .ar] s u ∧ KeepsMemory s u ∧ KeepsPorts s u ∧
        KeepsControl s u ∧ Took 3 s u) ∧
    (s.ip.value < 0 ∨ (s.cfg.addrMax : Int) < s.ip.value →
      ∃ u, fetch s = .stop u ∧ u.status = .fatal .addressOutOfRange ∧ u.ar = s.ip ∧
        u.ip = ⟨s.ip.op, wrap s.cfg (s.ip.value + 1), s.ip.vt⟩ ∧ KeepsRegs [.ip, .ar] s u ∧ KeepsMemory s u ∧
        KeepsPorts s u ∧ KeepsCounters s u ∧ Took 1 s u)

/-- A fetched cell with a reserved opcode number stops the machine after the three fetch ticks (30_encoding.md R47). -/
def Obligations.ReservedOpcodeStops : Prop :=
  ∀ (s : State) (x : Cell), s.status = .running → limitReached s = false → memRead s s.ip.value = some x →
    (29 ≤ x.op.number ∨ (x.op.number = 16 ∧ s.cfg.hasDiv = false)) →
    ∃ u, step s = .next u ∧ u.status = .fatal .unknownOpcode ∧ LeavesCell x u ∧ u.ar = s.ip ∧
      u.ip = ⟨s.ip.op, wrap s.cfg (s.ip.value + 1), s.ip.vt⟩ ∧ KeepsRegs [.ip, .cr, .dr, .ar] s u ∧
      KeepsMemory s u ∧ KeepsPorts s u ∧ u.cfg = s.cfg ∧ u.icount = s.icount + 1 ∧ u.depth = s.depth ∧ Took 3 s u

/-- A step keeps the parameters, never turns the clock back, takes events from the head of `INQ` only and adds to `OUT`
and the trace at their end only (10_state.md R20, R21, R22). -/
def Obligations.StepMovesStreamsOneWay : Prop :=
  ∀ s t : State, step s = .next t →
    t.cfg = s.cfg ∧ s.tick ≤ t.tick ∧ t.inq <:+ s.inq ∧ s.out <+: t.out ∧ s.trace <+: t.trace

/-- Every step keeps the invariant: cells stay words, memory canonical and in range, the counters within bounds. -/
def Obligations.StepKeepsInvariant : Prop :=
  ∀ s t : State, s.Inv → step s = .next t → t.Inv

/-- Every step keeps the trace numbered: one tuple for each completed tick, stamped in order (60_exceptions.md R138).
That the trace so far is a list in the state is the model's choice (log 9). -/
def Obligations.StepKeepsTraceNumbered : Prop :=
  ∀ s t : State, s.TraceNumbered → step s = .next t → t.TraceNumbered

/-- The control unit that goes tick by tick (40_cycle_alu.md R75) does what one step does, in as many ticks as the step
counts; a tick group that fails is run but not counted. The two machines are the model's choice (log 11). -/
def Obligations.TickMachineRefinesStep : Prop :=
  ∀ s t : State, step s = .next t →
    ∃ n, (tickRun n (TickState.atReset s)).st = t ∧ n ≤ t.tick - s.tick + 1 ∧
      (t.status = .running → n = t.tick - s.tick ∧ tickRun n (TickState.atReset s) = TickState.atReset t)

/-! ### Terminations and the interrupt controller (60_exceptions.md) -/

/-- What identifies each fatal condition (60_exceptions.md R123); `UnknownAluOperation` never occurs (40_cycle_alu.md
R65). -/
def Obligations.FatalCausesAreIdentified : Prop :=
  ∀ s t : State, s.Inv → step s = .next t →
    (t.status = .fatal .unknownOpcode →
      (29 ≤ t.cr.op.number ∨ (t.cr.op.number = 16 ∧ t.cfg.hasDiv = false)) ∧ t.ar = s.ip ∧
        memRead s t.ar.value = some t.cr ∧ t.ip.value = t.ar.value + 1) ∧
    t.status ≠ .fatal .unknownAluOperation ∧
    (t.status = .fatal .addressOutOfRange → t.ar.value < 0 ∨ (t.cfg.addrMax : Int) < t.ar.value) ∧
    (t.status = .fatal .inputUnderrun → t.cr.op = .inp ∧ inputReady t = false ∧ t.inq = s.inq) ∧
    (t.status = .fatal .instructionLimitExceeded → t.cfg.instrLimit = some t.icount ∧ t.ip = s.ip) ∧
    (t.status = .fatal .nestedHalt → t.cr.op = .hlt ∧ 0 < t.depth) ∧
    (t.status = .fatal .divideByZero → (t.cr.op = .div ∨ t.cr.op = .mod) ∧ t.dr.value = 0 ∧ t.ac = s.ac) ∧
    (t.status = .fatal .nestDepthExceeded → t.cfg.maxNest = some t.depth)

/-- `IN` alone takes from the input queue, and `OUT` alone adds to the output stream (10_state.md R21, R22). -/
def Obligations.OnlyInAndOutMovePorts : Prop :=
  ∀ s t : State, step s = .next t →
    (t.inq ≠ s.inq → t.cr.op = .inp ∧ ∃ e, s.inq = e :: t.inq) ∧ (t.out ≠ s.out → t.cr.op = .out)

/-- An expected termination leaves the state right after its fetch: no interrupt check follows (60_exceptions.md R121). -/
def Obligations.NothingFollowsExpectedStop : Prop :=
  ∀ s t : State, step s = .next t → t.status = .halt ∨ t.status = .interruptReturn →
    (t.status = .halt → t.cr.op = .hlt) ∧ (t.status = .interruptReturn → t.cr.op = .iret) ∧ s.depth = 0 ∧
      LeavesCell t.cr t ∧ t.ar = s.ip ∧ t.ip = ⟨s.ip.op, wrap s.cfg (s.ip.value + 1), s.ip.vt⟩ ∧
      KeepsRegs [.ip, .cr, .dr, .ar] s t ∧ KeepsMemory s t ∧ KeepsPorts s t ∧ t.cfg = s.cfg ∧
      t.icount = s.icount + 1 ∧ t.depth = s.depth ∧ t.tick = s.tick + 3

/-- After a completed instruction an interrupt is entered exactly when the head event has arrived and `EI` is 1
(60_exceptions.md R127). -/
def Obligations.InterruptTakenExactlyWhenDue : Prop :=
  ∀ s : State, s.status = .running →
    ((∃ e rest, s.inq = e :: rest ∧ e.arrivesAt ≤ s.tick) ∧ psBit s 3 = true →
      completeCycle s = ((interruptEntry s.endBlock).andThen fun t => .go t.endBlock).state) ∧
    (¬((∃ e rest, s.inq = e :: rest ∧ e.arrivesAt ≤ s.tick) ∧ psBit s 3 = true) → completeCycle s = s.endBlock)

/-- Taking an interrupt (60_exceptions.md R128): what it saves and where, what it changes, what it leaves. -/
def Obligations.InterruptEntrySavesAndVectors : Prop :=
  ∀ s : State, s.cfg.legal = true → nestExceeded s = false → 2 ≤ s.sp.value → s.sp.value ≤ (s.cfg.addrMax : Int) + 1 →
    ∃ u, interruptEntry s = .go u ∧ flagEI u = false ∧ KeepsPs (fun i => i ≠ 3) s u ∧
      memRead u (s.sp.value - 1) = some s.ip ∧ memRead u (s.sp.value - 2) = some u.ps ∧
      (∀ a, a ≠ s.sp.value - 1 → a ≠ s.sp.value - 2 → memRead u a = memRead s a) ∧
      u.sp = ⟨s.sp.op, s.sp.value - 2, s.sp.vt⟩ ∧ u.ar = Cell.const s.cfg.intVector ∧
      memRead u s.cfg.intVector = some u.ip ∧ u.dr = u.ip ∧ KeepsRegs [.ps, .sp, .ar, .dr, .ip] s u ∧
      KeepsPorts s u ∧ u.cfg = s.cfg ∧ u.icount = s.icount ∧ u.depth = s.depth + 1 ∧ u.status = s.status ∧
      Took 12 s u

/-- Where an interrupt entry stops: at the nesting bound before anything happens (60_exceptions.md R133), at the first
push with `SP.value` 0, at the second with `SP.value` 1 (R128), with the completed signals kept (R124). -/
def Obligations.InterruptEntryStops : Prop :=
  ∀ s : State, s.cfg.legal = true →
    ((∃ n, s.cfg.maxNest = some n ∧ n ≤ s.depth) →
      ∃ u, interruptEntry s = .stop u ∧ StopsAt s .nestDepthExceeded u) ∧
    ((∀ n, s.cfg.maxNest = some n → s.depth < n) → s.sp.value = 0 →
      ∃ u, interruptEntry s = .stop u ∧ u.status = .fatal .addressOutOfRange ∧ u.ar.value = -1 ∧ u.sp.value = -1 ∧
        u.dr = s.ip ∧ flagEI u = false ∧ KeepsRegs [.ps, .sp, .ar, .dr] s u ∧ KeepsMemory s u ∧ KeepsPorts s u ∧
        KeepsCounters s u ∧ Took 4 s u) ∧
    ((∀ n, s.cfg.maxNest = some n → s.depth < n) → s.sp.value = 1 →
      ∃ u, interruptEntry s = .stop u ∧ u.status = .fatal .addressOutOfRange ∧ u.ar.value = -1 ∧ u.sp.value = -1 ∧
        u.dr = u.ps ∧ flagEI u = false ∧ memRead u 0 = some s.ip ∧ KeepsRegs [.ps, .sp, .ar, .dr] s u ∧
        KeepsMemoryBut 0 s u ∧ KeepsPorts s u ∧ KeepsCounters s u ∧ Took 8 s u)

/-- An exit undoes an entry: from any later state with the entry's stack pointer, depth and two stack cells, `PS`, `IP`,
`SP` and the depth come back (60_exceptions.md R130). -/
def Obligations.ExitUndoesEntry : Prop :=
  ∀ s u v : State, s.cfg.legal = true → s.ps.wf s.cfg = true → flagEI s = true → 2 ≤ s.sp.value →
    s.sp.value ≤ (s.cfg.addrMax : Int) + 1 → interruptEntry s = .go u →
    v.cfg = u.cfg → v.sp = u.sp → v.depth = u.depth →
    memRead v (s.sp.value - 1) = memRead u (s.sp.value - 1) →
    memRead v (s.sp.value - 2) = memRead u (s.sp.value - 2) →
    ∃ w, interruptExit v = .go w ∧ w.ps = s.ps ∧ w.ip = s.ip ∧ w.sp = s.sp ∧ w.depth = s.depth ∧
      KeepsRegs [.ps, .ip, .sp, .ar, .dr] v w ∧ KeepsMemory v w ∧ KeepsPorts v w ∧ w.cfg = v.cfg ∧
      w.icount = v.icount ∧ w.status = v.status ∧ Took 7 v w

/-- `push(R); pop(R')` leaves `SP` as it was and `R'` equal to `R`'s original cell (42_addressless.md R93), for the
registers those sequences are used with. -/
def Obligations.PushThenPopIsSymmetric : Prop :=
  ∀ (s : State) (r r' : Reg) (g1 g2 g3 g4 g5 g6 g7 : TickGroup), s.cfg.legal = true →
    r ∈ [Reg.ac, .ip, .ps] → r' ∈ [Reg.ac, .ps, .ip] → 1 ≤ s.sp.value → s.sp.value ≤ (s.cfg.addrMax : Int) + 1 →
    ∃ u, (push r g1 g2 g3 g4 s).andThen (pop r' g5 g6 g7) = .go u ∧ u.sp = s.sp ∧ u.reg r' = s.reg r ∧
      memRead u (s.sp.value - 1) = some (s.reg r) ∧ KeepsRegs [r', .ar, .dr] s u ∧
      KeepsMemoryBut (s.sp.value - 1) s u ∧ KeepsPorts s u ∧ KeepsControl s u ∧ Took 7 s u

/-! ### Address class (41_address.md) -/

/-- `LD` completes (41_address.md R81): `AC` is the whole operand cell; `Z` and `N` follow it and `C` is 0. -/
def Obligations.LdLoadsWholeCell : Prop :=
  ∀ (s : State) (t : ValueType) (v : Word) (p y : Cell), s.cfg.legal = true → y.wf s.cfg = true →
    Operand s ⟨.ld, v, t⟩ p y →
    ∃ u, exec (.ld t v) s = .next u ∧ u.ac = y ∧ flagZ u = decide (y.value = 0) ∧ flagN u = decide (y.value < 0) ∧
      flagC u = false ∧ KeepsPs (fun i => 3 ≤ i) s u ∧ LeavesOperand ⟨.ld, v, t⟩ p y u ∧
      KeepsRegs [.ac, .ps, .cr, .ar, .dr] s u ∧ KeepsMemory s u ∧ KeepsPorts s u ∧ KeepsControl s u ∧
      Took (indirectTicks t + 2) s u

/-- `ST` completes (41_address.md R82): the whole accumulator is stored at the effective address, and nowhere else. -/
def Obligations.StStoresWholeCell : Prop :=
  ∀ (s : State) (t : ValueType) (v : Word) (p y : Cell), Operand s ⟨.st, v, t⟩ p y →
    ∃ u, exec (.st t v) s = .next u ∧ memRead u p.value = some s.ac ∧ KeepsMemoryBut p.value s u ∧
      u.cr = ⟨.st, v, t⟩ ∧ u.ar = p ∧ u.dr = s.ac ∧ KeepsRegs [.cr, .ar, .dr] s u ∧ KeepsPorts s u ∧
      KeepsControl s u ∧ Took (indirectTicks t + 3) s u

/-- `CMP` completes (41_address.md R83): the flags of `AC.value - DR.value`, the result dropped. -/
def Obligations.CmpSetsFlagsOnly : Prop :=
  ∀ (s : State) (t : ValueType) (v : Word) (p y : Cell), s.cfg.legal = true → Operand s ⟨.cmp, v, t⟩ p y →
    ∃ u, exec (.cmp t v) s = .next u ∧ FlagsOf (s.ac.value - y.value) s u ∧ LeavesOperand ⟨.cmp, v, t⟩ p y u ∧
      KeepsRegs [.ps, .cr, .ar, .dr] s u ∧ KeepsMemory s u ∧ KeepsPorts s u ∧ KeepsControl s u ∧
      Took (indirectTicks t + 2) s u

/-- `ADD`, `SUB` and `MUL` complete (41_address.md R84, R85, R86). -/
def Obligations.AddSubMulComplete : Prop :=
  ∀ (s : State) (t : ValueType) (v : Word) (p y : Cell), s.cfg.legal = true →
    (Operand s ⟨.add, v, t⟩ p y → CompletesAlu (.add t v) (s.ac.value + y.value) p y s) ∧
    (Operand s ⟨.sub, v, t⟩ p y → CompletesAlu (.sub t v) (s.ac.value - y.value) p y s) ∧
    (Operand s ⟨.mul, v, t⟩ p y → CompletesAlu (.mul t v) (s.ac.value * y.value) p y s)

/-- `DIV` and `MOD` by a divisor that is not 0 complete (41_address.md R87, R88), for every `DIVMOD` (R91,
log 7). That a result outside the word range, of a pair other than the default, is wrapped and sets `C` is the model's
choice (log 19). -/
def Obligations.DivModComplete : Prop :=
  ∀ (s : State) (t : ValueType) (v : Word) (p y : Cell), s.cfg.legal = true → y.value ≠ 0 →
    (Operand s ⟨.div, v, t⟩ p y → CompletesAlu (.div t v) (divq s.cfg s.ac.value y.value) p y s) ∧
    (Operand s ⟨.mod, v, t⟩ p y → CompletesAlu (.mod t v) (divr s.cfg s.ac.value y.value) p y s)

/-- `DIV` and `MOD` by 0 stop in `X1` before any write (41_address.md R87, R88). -/
def Obligations.DivisionByZeroStops : Prop :=
  ∀ (s : State) (i : Instr) (t : ValueType) (v : Word) (p y : Cell), i = .div t v ∨ i = .mod t v → y.value = 0 →
    Operand s i.cell p y →
    ∃ u, exec i s = .next u ∧ u.status = .fatal .divideByZero ∧ LeavesOperand i.cell p y u ∧
      KeepsRegs [.cr, .ar, .dr] s u ∧ KeepsMemory s u ∧ KeepsPorts s u ∧ KeepsCounters s u ∧
      Took (indirectTicks t + 1) s u

/-- `OR` and `AND` complete (41_address.md R89, R90), with `C = 0`. -/
def Obligations.OrAndComplete : Prop :=
  ∀ (s : State) (t : ValueType) (v : Word) (p y : Cell), s.cfg.legal = true →
    (Operand s ⟨.or, v, t⟩ p y →
      CompletesAlu (.or t v) (sextW s.cfg (tcW s.cfg s.ac.value ||| tcW s.cfg y.value)) p y s ∧
        s.cfg.isWord (sextW s.cfg (tcW s.cfg s.ac.value ||| tcW s.cfg y.value)) = true) ∧
    (Operand s ⟨.and, v, t⟩ p y →
      CompletesAlu (.and t v) (sextW s.cfg (tcW s.cfg s.ac.value &&& tcW s.cfg y.value)) p y s ∧
        s.cfg.isWord (sextW s.cfg (tcW s.cfg s.ac.value &&& tcW s.cfg y.value)) = true)

/-- Where an Address-class instruction stops (41_address.md R80): at `AF` when an indirect operand is out of range, at `OF`
when the effective address is, each with the bad address in `AR` and the cell that named it in `DR`. -/
def Obligations.AddressFaultsInPrefix : Prop :=
  ∀ (s : State) (i : Instr), i.cell.op.cls = some .address →
    (resolvedCell s i.cell = none →
      ∃ u, exec i s = .next u ∧ u.status = .fatal .addressOutOfRange ∧ LeavesOperand i.cell i.cell i.cell u ∧
        KeepsRegs [.cr, .ar, .dr] s u ∧ KeepsMemory s u ∧ KeepsPorts s u ∧ KeepsCounters s u ∧ Took 0 s u) ∧
    (∀ p, resolvedCell s i.cell = some p → memRead s p.value = none →
      ∃ u, exec i s = .next u ∧ u.status = .fatal .addressOutOfRange ∧ LeavesOperand i.cell p p u ∧
        KeepsRegs [.cr, .ar, .dr] s u ∧ KeepsMemory s u ∧ KeepsPorts s u ∧ KeepsCounters s u ∧
        Took (indirectTicks i.cell.vt) s u)

/-! ### Addressless class and the stack (42_addressless.md) -/

/-- `NOP` completes: one tick, nothing else (42_addressless.md R94). -/
def Obligations.NopTakesOneTick : Prop :=
  ∀ (s : State) (t : ValueType) (v : Word),
    ∃ u, exec (.nop t v) s = .next u ∧ LeavesCell ⟨.nop, v, t⟩ u ∧ KeepsRegs [.cr, .dr] s u ∧ KeepsMemory s u ∧
      KeepsPorts s u ∧ KeepsControl s u ∧ Took 1 s u

/-- `HLT` ends the run outside a handler and is fatal inside one, with no tick (42_addressless.md R95). -/
def Obligations.HltEndsRun : Prop :=
  ∀ (s : State) (t : ValueType) (v : Word),
    ∃ u, exec (.hlt t v) s = .next u ∧ u.status = (if s.depth = 0 then .halt else .fatal .nestedHalt) ∧
      LeavesCell ⟨.hlt, v, t⟩ u ∧ KeepsRegs [.cr, .dr] s u ∧ KeepsMemory s u ∧ KeepsPorts s u ∧ KeepsCounters s u ∧
      Took 0 s u

/-- `IRET` outside a handler ends the run, with no tick (42_addressless.md R96). -/
def Obligations.IretOutsideHandlerEndsRun : Prop :=
  ∀ (s : State) (t : ValueType) (v : Word), s.depth = 0 →
    ∃ u, exec (.iret t v) s = .next u ∧ u.status = .interruptReturn ∧ LeavesCell ⟨.iret, v, t⟩ u ∧
      KeepsRegs [.cr, .dr] s u ∧ KeepsMemory s u ∧ KeepsPorts s u ∧ KeepsCounters s u ∧ Took 0 s u

/-- `IRET` in a handler completes (42_addressless.md R96, 60_exceptions.md R130): `PS` and `IP` are the two cells on top of
the stack, `EI` is set, `SP` goes up by 2 and the depth down by one. -/
def Obligations.IretReturnsFromHandler : Prop :=
  ∀ (s : State) (t : ValueType) (v : Word) (q i : Cell), s.cfg.legal = true → 0 < s.depth →
    memRead s s.sp.value = some q → memRead s (s.sp.value + 1) = some i →
    ∃ u, exec (.iret t v) s = .next u ∧ u.ip = i ∧ flagEI u = true ∧
      (∀ j, j ≠ 3 → psBit u j = (tcW s.cfg q.value).testBit j) ∧ u.ps.op = q.op ∧ u.ps.vt = q.vt ∧
      u.sp = ⟨s.sp.op, s.sp.value + 2, s.sp.vt⟩ ∧ u.ar = ⟨s.sp.op, s.sp.value + 1, s.sp.vt⟩ ∧ u.dr = i ∧
      u.cr = ⟨.iret, v, t⟩ ∧ KeepsRegs [.ip, .ps, .sp, .ar, .dr, .cr] s u ∧ KeepsMemory s u ∧ KeepsPorts s u ∧
      u.cfg = s.cfg ∧ u.icount = s.icount ∧ u.depth + 1 = s.depth ∧ u.status = s.status ∧ Took 7 s u

/-- `PUSH` completes (42_addressless.md R92, R97): the whole accumulator at the lowered stack pointer. -/
def Obligations.PushStoresAtLoweredSp : Prop :=
  ∀ (s : State) (t : ValueType) (v : Word), s.cfg.legal = true → 1 ≤ s.sp.value →
    s.sp.value ≤ (s.cfg.addrMax : Int) + 1 →
    ∃ u, exec (.push t v) s = .next u ∧ u.sp = ⟨s.sp.op, s.sp.value - 1, s.sp.vt⟩ ∧
      memRead u (s.sp.value - 1) = some s.ac ∧ KeepsMemoryBut (s.sp.value - 1) s u ∧ u.ar = u.sp ∧ u.dr = s.ac ∧
      u.cr = ⟨.push, v, t⟩ ∧ KeepsRegs [.sp, .ar, .dr, .cr] s u ∧ KeepsPorts s u ∧ KeepsControl s u ∧ Took 4 s u

/-- `POP` completes (42_addressless.md R93, R98): the whole cell on top of the stack, the flags untouched. -/
def Obligations.PopLoadsTopOfStack : Prop :=
  ∀ (s : State) (t : ValueType) (v : Word) (y : Cell), s.cfg.legal = true → memRead s s.sp.value = some y →
    ∃ u, exec (.pop t v) s = .next u ∧ u.ac = y ∧ u.sp = ⟨s.sp.op, s.sp.value + 1, s.sp.vt⟩ ∧ u.ar = s.sp ∧ u.dr = y ∧
      u.cr = ⟨.pop, v, t⟩ ∧ KeepsRegs [.ac, .sp, .ar, .dr, .cr] s u ∧ KeepsMemory s u ∧ KeepsPorts s u ∧
      KeepsControl s u ∧ Took 3 s u

/-- Where the stack instructions stop (42_addressless.md R92, R93, R96): `PUSH` at `PU4` with `SP`, `AR` and `DR` already
changed; `POP` and `IRET` at their read with `AR` already latched; `IRET` at its second read with `PS` already popped. -/
def Obligations.StackAccessOutOfRangeStops : Prop :=
  ∀ (s : State) (t : ValueType) (v : Word), s.cfg.legal = true → s.sp.wf s.cfg = true →
    (s.sp.value ≤ 0 ∨ (s.cfg.addrMax : Int) + 1 < s.sp.value →
      ∃ u, exec (.push t v) s = .next u ∧ u.status = .fatal .addressOutOfRange ∧
        u.sp = ⟨s.sp.op, wrap s.cfg (s.sp.value - 1), s.sp.vt⟩ ∧ u.ar = u.sp ∧ u.dr = s.ac ∧ u.cr = ⟨.push, v, t⟩ ∧
        KeepsRegs [.sp, .ar, .dr, .cr] s u ∧ KeepsMemory s u ∧ KeepsPorts s u ∧ KeepsCounters s u ∧ Took 3 s u) ∧
    (memRead s s.sp.value = none → ∀ i : Instr, i = .pop t v ∨ (i = .iret t v ∧ 0 < s.depth) →
      ∃ u, exec i s = .next u ∧ u.status = .fatal .addressOutOfRange ∧ u.ar = s.sp ∧ LeavesCell i.cell u ∧
        KeepsRegs [.ar, .cr, .dr] s u ∧ KeepsMemory s u ∧ KeepsPorts s u ∧ KeepsCounters s u ∧ Took 1 s u) ∧
    (∀ q, 0 < s.depth → memRead s s.sp.value = some q → memRead s (s.sp.value + 1) = none →
      ∃ u, exec (.iret t v) s = .next u ∧ u.status = .fatal .addressOutOfRange ∧ u.ps = q ∧ u.dr = q ∧
        u.sp = ⟨s.sp.op, s.sp.value + 1, s.sp.vt⟩ ∧ u.ar = u.sp ∧ u.cr = ⟨.iret, v, t⟩ ∧
        KeepsRegs [.ps, .sp, .ar, .dr, .cr] s u ∧ KeepsMemory s u ∧ KeepsPorts s u ∧ KeepsCounters s u ∧
        Took 4 s u)

/-- `EI` and `DI` complete (42_addressless.md R99, R100): bit 3 of `PS.value` and nothing else of `PS`. -/
def Obligations.EiDiMoveOneBit : Prop :=
  ∀ (s : State) (t : ValueType) (v : Word), s.cfg.legal = true →
    (∃ u, exec (.ei t v) s = .next u ∧ flagEI u = true ∧ KeepsPs (fun i => i ≠ 3) s u ∧ LeavesCell ⟨.ei, v, t⟩ u ∧
      KeepsRegs [.ps, .cr, .dr] s u ∧ KeepsMemory s u ∧ KeepsPorts s u ∧ KeepsControl s u ∧ Took 1 s u) ∧
    (∃ u, exec (.di t v) s = .next u ∧ flagEI u = false ∧ KeepsPs (fun i => i ≠ 3) s u ∧ LeavesCell ⟨.di, v, t⟩ u ∧
      KeepsRegs [.ps, .cr, .dr] s u ∧ KeepsMemory s u ∧ KeepsPorts s u ∧ KeepsControl s u ∧ Took 1 s u)

/-- `CLA`, `INC` and `DEC` complete (42_addressless.md R101, R102, R103). -/
def Obligations.ClaIncDecComplete : Prop :=
  ∀ (s : State) (t : ValueType) (v : Word), s.cfg.legal = true →
    CompletesAluConst (.cla t v) 0 s ∧ CompletesAluConst (.inc t v) (s.ac.value + 1) s ∧
      CompletesAluConst (.dec t v) (s.ac.value - 1) s

/-! ### Branch class (43_branch.md) -/

/-- The seven branches complete, each by its row of the condition table (43_branch.md R104, R112). -/
def Obligations.BranchesFollowConditionTable : Prop :=
  ∀ (s : State) (t : ValueType) (v : Word) (p : Cell),
    (resolvedCell s ⟨.jc, v, t⟩ = some p → CompletesBranch (.jc t v) (psBit s 2) p s) ∧
    (resolvedCell s ⟨.jnc, v, t⟩ = some p → CompletesBranch (.jnc t v) (!psBit s 2) p s) ∧
    (resolvedCell s ⟨.jn, v, t⟩ = some p → CompletesBranch (.jn t v) (psBit s 1) p s) ∧
    (resolvedCell s ⟨.jnn, v, t⟩ = some p → CompletesBranch (.jnn t v) (!psBit s 1) p s) ∧
    (resolvedCell s ⟨.jz, v, t⟩ = some p → CompletesBranch (.jz t v) (psBit s 0) p s) ∧
    (resolvedCell s ⟨.jnz, v, t⟩ = some p → CompletesBranch (.jnz t v) (!psBit s 0) p s) ∧
    (resolvedCell s ⟨.jmp, v, t⟩ = some p → CompletesBranch (.jmp t v) true p s)

/-- A branch whose pointer is out of range stops in its address fetch, whether or not it would have been taken
(43_branch.md R119). -/
def Obligations.BranchPointerOutOfRangeStops : Prop :=
  ∀ (s : State) (i : Instr), i.cell.op.cls = some .branch → i.cell.vt = .addressIndirect →
    i.cell.value < 0 ∨ (s.cfg.addrMax : Int) < i.cell.value →
    ∃ u, exec i s = .next u ∧ u.status = .fatal .addressOutOfRange ∧ LeavesOperand i.cell i.cell i.cell u ∧
      KeepsRegs [.cr, .ar, .dr] s u ∧ KeepsMemory s u ∧ KeepsPorts s u ∧ KeepsCounters s u ∧ Took 0 s u

/-! ### IO class (44_io.md) -/

/-- `IN` with a ready head event completes (44_io.md R114). -/
def Obligations.InReadsReadyCharacter : Prop :=
  ∀ (s : State) (t : ValueType) (v : Word) (e : InputEvent) (rest : List InputEvent), s.inq = e :: rest →
    e.arrivesAt ≤ s.tick →
    ∃ u, exec (.inp t v) s = .next u ∧ u.ac = ⟨.nop, e.char, .char⟩ ∧ u.inq = rest ∧ u.out = s.out ∧
      LeavesCell ⟨.inp, v, t⟩ u ∧ KeepsRegs [.ac, .cr, .dr] s u ∧ KeepsMemory s u ∧ KeepsControl s u ∧ Took 1 s u

/-- `IN` with no ready head event stops and takes nothing (44_io.md R113, R114). -/
def Obligations.InWithoutInputStops : Prop :=
  ∀ (s : State) (t : ValueType) (v : Word), (∀ e rest, s.inq = e :: rest → s.tick < e.arrivesAt) →
    ∃ u, exec (.inp t v) s = .next u ∧ u.status = .fatal .inputUnderrun ∧ LeavesCell ⟨.inp, v, t⟩ u ∧
      KeepsRegs [.cr, .dr] s u ∧ KeepsMemory s u ∧ KeepsPorts s u ∧ KeepsCounters s u ∧ Took 0 s u

/-- `OUT` completes (44_io.md R116): one byte for a character or the newline value, decimal text otherwise.
The code 10 is general knowledge (log 12). -/
def Obligations.OutWritesAccumulator : Prop :=
  ∀ (s : State) (t : ValueType) (v : Word),
    ∃ u, exec (.out t v) s = .next u ∧
      (s.ac.vt = .char ∨ s.ac.value = 10 → ∃ b : Byte, (b.toNat : Int) = s.ac.value % 256 ∧ u.out = s.out ++ [b]) ∧
      (¬(s.ac.vt = .char ∨ s.ac.value = 10) → u.out = s.out ++ dec s.ac.value) ∧ u.inq = s.inq ∧
      LeavesCell ⟨.out, v, t⟩ u ∧ KeepsRegs [.cr, .dr] s u ∧ KeepsMemory s u ∧ KeepsControl s u ∧ Took 1 s u

/-- `dec` is the shortest decimal numeral, most significant digit first (44_io.md R117). The ASCII codes are
general knowledge (log 12). -/
def Obligations.DecimalTextIsShortest : Prop :=
  (∀ n : Nat,
    (∀ b ∈ dec n, 0x30 ≤ b.toNat ∧ b.toNat ≤ 0x39) ∧
    (dec n).foldl (fun k b => 10 * k + (b.toNat - 0x30)) 0 = n ∧ dec n ≠ [] ∧
    (n ≠ 0 → (dec n).head? ≠ some 0x30#8) ∧ (n = 0 → dec n = [0x30#8])) ∧
  (∀ n : Nat, 0 < n → dec (-(n : Int)) = 0x2D#8 :: dec n)
end

