-- ==== Sys2Proof/Laws/State.lean ====
section
/-! SUPPORT. One lemma per field per update of the state, true by `rfl`, so that no proof unfolds a record update; and what
the shared readers (`memRead`, `inRange`, the flags, `inputReady`) see across an update. -/

namespace Sys2Proof.Machine

variable (s : State)

/-! ### Reading a register -/

@[simp] theorem reg_ac : s.reg .ac = s.ac := rfl
@[simp] theorem reg_ip : s.reg .ip = s.ip := rfl
@[simp] theorem reg_cr : s.reg .cr = s.cr := rfl
@[simp] theorem reg_ps : s.reg .ps = s.ps := rfl
@[simp] theorem reg_sp : s.reg .sp = s.sp := rfl
@[simp] theorem reg_dr : s.reg .dr = s.dr := rfl
@[simp] theorem reg_ar : s.reg .ar = s.ar := rfl

/-! ### Writing a register -/

@[simp] theorem setReg_ac_ac (x : Cell) : (s.setReg .ac x).ac = x := rfl
@[simp] theorem setReg_ac_ip (x : Cell) : (s.setReg .ac x).ip = s.ip := rfl
@[simp] theorem setReg_ac_cr (x : Cell) : (s.setReg .ac x).cr = s.cr := rfl
@[simp] theorem setReg_ac_ps (x : Cell) : (s.setReg .ac x).ps = s.ps := rfl
@[simp] theorem setReg_ac_sp (x : Cell) : (s.setReg .ac x).sp = s.sp := rfl
@[simp] theorem setReg_ac_dr (x : Cell) : (s.setReg .ac x).dr = s.dr := rfl
@[simp] theorem setReg_ac_ar (x : Cell) : (s.setReg .ac x).ar = s.ar := rfl
@[simp] theorem setReg_ip_ac (x : Cell) : (s.setReg .ip x).ac = s.ac := rfl
@[simp] theorem setReg_ip_ip (x : Cell) : (s.setReg .ip x).ip = x := rfl
@[simp] theorem setReg_ip_cr (x : Cell) : (s.setReg .ip x).cr = s.cr := rfl
@[simp] theorem setReg_ip_ps (x : Cell) : (s.setReg .ip x).ps = s.ps := rfl
@[simp] theorem setReg_ip_sp (x : Cell) : (s.setReg .ip x).sp = s.sp := rfl
@[simp] theorem setReg_ip_dr (x : Cell) : (s.setReg .ip x).dr = s.dr := rfl
@[simp] theorem setReg_ip_ar (x : Cell) : (s.setReg .ip x).ar = s.ar := rfl
@[simp] theorem setReg_cr_ac (x : Cell) : (s.setReg .cr x).ac = s.ac := rfl
@[simp] theorem setReg_cr_ip (x : Cell) : (s.setReg .cr x).ip = s.ip := rfl
@[simp] theorem setReg_cr_cr (x : Cell) : (s.setReg .cr x).cr = x := rfl
@[simp] theorem setReg_cr_ps (x : Cell) : (s.setReg .cr x).ps = s.ps := rfl
@[simp] theorem setReg_cr_sp (x : Cell) : (s.setReg .cr x).sp = s.sp := rfl
@[simp] theorem setReg_cr_dr (x : Cell) : (s.setReg .cr x).dr = s.dr := rfl
@[simp] theorem setReg_cr_ar (x : Cell) : (s.setReg .cr x).ar = s.ar := rfl
@[simp] theorem setReg_ps_ac (x : Cell) : (s.setReg .ps x).ac = s.ac := rfl
@[simp] theorem setReg_ps_ip (x : Cell) : (s.setReg .ps x).ip = s.ip := rfl
@[simp] theorem setReg_ps_cr (x : Cell) : (s.setReg .ps x).cr = s.cr := rfl
@[simp] theorem setReg_ps_ps (x : Cell) : (s.setReg .ps x).ps = x := rfl
@[simp] theorem setReg_ps_sp (x : Cell) : (s.setReg .ps x).sp = s.sp := rfl
@[simp] theorem setReg_ps_dr (x : Cell) : (s.setReg .ps x).dr = s.dr := rfl
@[simp] theorem setReg_ps_ar (x : Cell) : (s.setReg .ps x).ar = s.ar := rfl
@[simp] theorem setReg_sp_ac (x : Cell) : (s.setReg .sp x).ac = s.ac := rfl
@[simp] theorem setReg_sp_ip (x : Cell) : (s.setReg .sp x).ip = s.ip := rfl
@[simp] theorem setReg_sp_cr (x : Cell) : (s.setReg .sp x).cr = s.cr := rfl
@[simp] theorem setReg_sp_ps (x : Cell) : (s.setReg .sp x).ps = s.ps := rfl
@[simp] theorem setReg_sp_sp (x : Cell) : (s.setReg .sp x).sp = x := rfl
@[simp] theorem setReg_sp_dr (x : Cell) : (s.setReg .sp x).dr = s.dr := rfl
@[simp] theorem setReg_sp_ar (x : Cell) : (s.setReg .sp x).ar = s.ar := rfl
@[simp] theorem setReg_dr_ac (x : Cell) : (s.setReg .dr x).ac = s.ac := rfl
@[simp] theorem setReg_dr_ip (x : Cell) : (s.setReg .dr x).ip = s.ip := rfl
@[simp] theorem setReg_dr_cr (x : Cell) : (s.setReg .dr x).cr = s.cr := rfl
@[simp] theorem setReg_dr_ps (x : Cell) : (s.setReg .dr x).ps = s.ps := rfl
@[simp] theorem setReg_dr_sp (x : Cell) : (s.setReg .dr x).sp = s.sp := rfl
@[simp] theorem setReg_dr_dr (x : Cell) : (s.setReg .dr x).dr = x := rfl
@[simp] theorem setReg_dr_ar (x : Cell) : (s.setReg .dr x).ar = s.ar := rfl
@[simp] theorem setReg_ar_ac (x : Cell) : (s.setReg .ar x).ac = s.ac := rfl
@[simp] theorem setReg_ar_ip (x : Cell) : (s.setReg .ar x).ip = s.ip := rfl
@[simp] theorem setReg_ar_cr (x : Cell) : (s.setReg .ar x).cr = s.cr := rfl
@[simp] theorem setReg_ar_ps (x : Cell) : (s.setReg .ar x).ps = s.ps := rfl
@[simp] theorem setReg_ar_sp (x : Cell) : (s.setReg .ar x).sp = s.sp := rfl
@[simp] theorem setReg_ar_dr (x : Cell) : (s.setReg .ar x).dr = s.dr := rfl
@[simp] theorem setReg_ar_ar (x : Cell) : (s.setReg .ar x).ar = x := rfl
@[simp] theorem setReg_cfg (r : Reg) (x : Cell) : (s.setReg r x).cfg = s.cfg := by cases r <;> rfl
@[simp] theorem setReg_mem (r : Reg) (x : Cell) : (s.setReg r x).mem = s.mem := by cases r <;> rfl
@[simp] theorem setReg_tick (r : Reg) (x : Cell) : (s.setReg r x).tick = s.tick := by cases r <;> rfl
@[simp] theorem setReg_inq (r : Reg) (x : Cell) : (s.setReg r x).inq = s.inq := by cases r <;> rfl
@[simp] theorem setReg_out (r : Reg) (x : Cell) : (s.setReg r x).out = s.out := by cases r <;> rfl
@[simp] theorem setReg_icount (r : Reg) (x : Cell) : (s.setReg r x).icount = s.icount := by cases r <;> rfl
@[simp] theorem setReg_depth (r : Reg) (x : Cell) : (s.setReg r x).depth = s.depth := by cases r <;> rfl
@[simp] theorem setReg_status (r : Reg) (x : Cell) : (s.setReg r x).status = s.status := by cases r <;> rfl
@[simp] theorem setReg_trace (r : Reg) (x : Cell) : (s.setReg r x).trace = s.trace := by cases r <;> rfl

@[simp] theorem setReg_reg_same (r : Reg) (x : Cell) : (s.setReg r x).reg r = x := by cases r <;> rfl

@[simp] theorem setReg_reg_other (r q : Reg) (x : Cell) (h : q ≠ r) : (s.setReg r x).reg q = s.reg q := by
  cases r <;> cases q <;> first | rfl | exact absurd rfl h

@[simp] theorem setReg_setReg (r : Reg) (x y : Cell) : (s.setReg r x).setReg r y = s.setReg r y := by cases r <;> rfl

@[simp] theorem setReg_reg_self (r : Reg) : s.setReg r (s.reg r) = s := by cases r <;> rfl

/-! ### Latches and unmarked ALU calls are register writes -/

@[simp] theorem latch_eq (d r : Reg) : s.latch d r = s.setReg d (s.reg r) := rfl

@[simp] theorem aluLatch_eq (r : Reg) (op : AluOp) (x : Cell) :
    s.aluLatch r op x = s.setReg r (alu s.cfg op (s.reg r) x).res := rfl

@[simp] theorem mergeAlu_eq (a : AluResult) : s.mergeAlu a = s.setReg .ps (mergeFlags s.cfg s.ps a.z a.n a.c) := rfl

@[simp] theorem present_eq (x : Cell) : s.present x = (s.setReg .dr x).setReg .cr x := rfl

/-! ### `storeCell` -/

@[simp] theorem storeCell_cfg (a : Int) (x : Cell) : (s.storeCell a x).cfg = s.cfg := rfl
@[simp] theorem storeCell_ac (a : Int) (x : Cell) : (s.storeCell a x).ac = s.ac := rfl
@[simp] theorem storeCell_ip (a : Int) (x : Cell) : (s.storeCell a x).ip = s.ip := rfl
@[simp] theorem storeCell_cr (a : Int) (x : Cell) : (s.storeCell a x).cr = s.cr := rfl
@[simp] theorem storeCell_ps (a : Int) (x : Cell) : (s.storeCell a x).ps = s.ps := rfl
@[simp] theorem storeCell_sp (a : Int) (x : Cell) : (s.storeCell a x).sp = s.sp := rfl
@[simp] theorem storeCell_dr (a : Int) (x : Cell) : (s.storeCell a x).dr = s.dr := rfl
@[simp] theorem storeCell_ar (a : Int) (x : Cell) : (s.storeCell a x).ar = s.ar := rfl
@[simp] theorem storeCell_mem (a : Int) (x : Cell) : (s.storeCell a x).mem = Memory.write s.mem a.toNat x := rfl
@[simp] theorem storeCell_tick (a : Int) (x : Cell) : (s.storeCell a x).tick = s.tick := rfl
@[simp] theorem storeCell_inq (a : Int) (x : Cell) : (s.storeCell a x).inq = s.inq := rfl
@[simp] theorem storeCell_out (a : Int) (x : Cell) : (s.storeCell a x).out = s.out := rfl
@[simp] theorem storeCell_icount (a : Int) (x : Cell) : (s.storeCell a x).icount = s.icount := rfl
@[simp] theorem storeCell_depth (a : Int) (x : Cell) : (s.storeCell a x).depth = s.depth := rfl
@[simp] theorem storeCell_status (a : Int) (x : Cell) : (s.storeCell a x).status = s.status := rfl
@[simp] theorem storeCell_trace (a : Int) (x : Cell) : (s.storeCell a x).trace = s.trace := rfl

/-! ### `withStatus` -/

@[simp] theorem withStatus_cfg (st : Status) : (s.withStatus st).cfg = s.cfg := rfl
@[simp] theorem withStatus_ac (st : Status) : (s.withStatus st).ac = s.ac := rfl
@[simp] theorem withStatus_ip (st : Status) : (s.withStatus st).ip = s.ip := rfl
@[simp] theorem withStatus_cr (st : Status) : (s.withStatus st).cr = s.cr := rfl
@[simp] theorem withStatus_ps (st : Status) : (s.withStatus st).ps = s.ps := rfl
@[simp] theorem withStatus_sp (st : Status) : (s.withStatus st).sp = s.sp := rfl
@[simp] theorem withStatus_dr (st : Status) : (s.withStatus st).dr = s.dr := rfl
@[simp] theorem withStatus_ar (st : Status) : (s.withStatus st).ar = s.ar := rfl
@[simp] theorem withStatus_mem (st : Status) : (s.withStatus st).mem = s.mem := rfl
@[simp] theorem withStatus_tick (st : Status) : (s.withStatus st).tick = s.tick := rfl
@[simp] theorem withStatus_inq (st : Status) : (s.withStatus st).inq = s.inq := rfl
@[simp] theorem withStatus_out (st : Status) : (s.withStatus st).out = s.out := rfl
@[simp] theorem withStatus_icount (st : Status) : (s.withStatus st).icount = s.icount := rfl
@[simp] theorem withStatus_depth (st : Status) : (s.withStatus st).depth = s.depth := rfl
@[simp] theorem withStatus_status (st : Status) : (s.withStatus st).status = st := rfl
@[simp] theorem withStatus_trace (st : Status) : (s.withStatus st).trace = s.trace := rfl

/-! ### `advance` -/

@[simp] theorem advance_cfg : (s.advance).cfg = s.cfg := rfl
@[simp] theorem advance_ac : (s.advance).ac = s.ac := rfl
@[simp] theorem advance_ip : (s.advance).ip = s.ip := rfl
@[simp] theorem advance_cr : (s.advance).cr = s.cr := rfl
@[simp] theorem advance_ps : (s.advance).ps = s.ps := rfl
@[simp] theorem advance_sp : (s.advance).sp = s.sp := rfl
@[simp] theorem advance_dr : (s.advance).dr = s.dr := rfl
@[simp] theorem advance_ar : (s.advance).ar = s.ar := rfl
@[simp] theorem advance_mem : (s.advance).mem = s.mem := rfl
@[simp] theorem advance_tick : (s.advance).tick = s.tick + 1 := rfl
@[simp] theorem advance_inq : (s.advance).inq = s.inq := rfl
@[simp] theorem advance_out : (s.advance).out = s.out := rfl
@[simp] theorem advance_icount : (s.advance).icount = s.icount := rfl
@[simp] theorem advance_depth : (s.advance).depth = s.depth := rfl
@[simp] theorem advance_status : (s.advance).status = s.status := rfl
@[simp] theorem advance_trace : (s.advance).trace = s.trace := rfl

/-! ### `emit` -/

@[simp] theorem emit_cfg (l : TraceLine) : (s.emit l).cfg = s.cfg := rfl
@[simp] theorem emit_ac (l : TraceLine) : (s.emit l).ac = s.ac := rfl
@[simp] theorem emit_ip (l : TraceLine) : (s.emit l).ip = s.ip := rfl
@[simp] theorem emit_cr (l : TraceLine) : (s.emit l).cr = s.cr := rfl
@[simp] theorem emit_ps (l : TraceLine) : (s.emit l).ps = s.ps := rfl
@[simp] theorem emit_sp (l : TraceLine) : (s.emit l).sp = s.sp := rfl
@[simp] theorem emit_dr (l : TraceLine) : (s.emit l).dr = s.dr := rfl
@[simp] theorem emit_ar (l : TraceLine) : (s.emit l).ar = s.ar := rfl
@[simp] theorem emit_mem (l : TraceLine) : (s.emit l).mem = s.mem := rfl
@[simp] theorem emit_tick (l : TraceLine) : (s.emit l).tick = s.tick := rfl
@[simp] theorem emit_inq (l : TraceLine) : (s.emit l).inq = s.inq := rfl
@[simp] theorem emit_out (l : TraceLine) : (s.emit l).out = s.out := rfl
@[simp] theorem emit_icount (l : TraceLine) : (s.emit l).icount = s.icount := rfl
@[simp] theorem emit_depth (l : TraceLine) : (s.emit l).depth = s.depth := rfl
@[simp] theorem emit_status (l : TraceLine) : (s.emit l).status = s.status := rfl
@[simp] theorem emit_trace (l : TraceLine) : (s.emit l).trace = s.trace ++ [l] := rfl

/-! ### `endTick` -/

@[simp] theorem endTick_cfg (g : TickGroup) : (s.endTick g).cfg = s.cfg := rfl
@[simp] theorem endTick_ac (g : TickGroup) : (s.endTick g).ac = s.ac := rfl
@[simp] theorem endTick_ip (g : TickGroup) : (s.endTick g).ip = s.ip := rfl
@[simp] theorem endTick_cr (g : TickGroup) : (s.endTick g).cr = s.cr := rfl
@[simp] theorem endTick_ps (g : TickGroup) : (s.endTick g).ps = s.ps := rfl
@[simp] theorem endTick_sp (g : TickGroup) : (s.endTick g).sp = s.sp := rfl
@[simp] theorem endTick_dr (g : TickGroup) : (s.endTick g).dr = s.dr := rfl
@[simp] theorem endTick_ar (g : TickGroup) : (s.endTick g).ar = s.ar := rfl
@[simp] theorem endTick_mem (g : TickGroup) : (s.endTick g).mem = s.mem := rfl
@[simp] theorem endTick_tick (g : TickGroup) : (s.endTick g).tick = s.tick + 1 := rfl
@[simp] theorem endTick_inq (g : TickGroup) : (s.endTick g).inq = s.inq := rfl
@[simp] theorem endTick_out (g : TickGroup) : (s.endTick g).out = s.out := rfl
@[simp] theorem endTick_icount (g : TickGroup) : (s.endTick g).icount = s.icount := rfl
@[simp] theorem endTick_depth (g : TickGroup) : (s.endTick g).depth = s.depth := rfl
@[simp] theorem endTick_status (g : TickGroup) : (s.endTick g).status = s.status := rfl
@[simp] theorem endTick_trace (g : TickGroup) : (s.endTick g).trace = s.trace ++ [.tuple (traceTuple g s.advance)] := rfl

/-! ### `endBlock` -/

@[simp] theorem endBlock_cfg : (s.endBlock).cfg = s.cfg := rfl
@[simp] theorem endBlock_ac : (s.endBlock).ac = s.ac := rfl
@[simp] theorem endBlock_ip : (s.endBlock).ip = s.ip := rfl
@[simp] theorem endBlock_cr : (s.endBlock).cr = s.cr := rfl
@[simp] theorem endBlock_ps : (s.endBlock).ps = s.ps := rfl
@[simp] theorem endBlock_sp : (s.endBlock).sp = s.sp := rfl
@[simp] theorem endBlock_dr : (s.endBlock).dr = s.dr := rfl
@[simp] theorem endBlock_ar : (s.endBlock).ar = s.ar := rfl
@[simp] theorem endBlock_mem : (s.endBlock).mem = s.mem := rfl
@[simp] theorem endBlock_tick : (s.endBlock).tick = s.tick := rfl
@[simp] theorem endBlock_inq : (s.endBlock).inq = s.inq := rfl
@[simp] theorem endBlock_out : (s.endBlock).out = s.out := rfl
@[simp] theorem endBlock_icount : (s.endBlock).icount = s.icount := rfl
@[simp] theorem endBlock_depth : (s.endBlock).depth = s.depth := rfl
@[simp] theorem endBlock_status : (s.endBlock).status = s.status := rfl
@[simp] theorem endBlock_trace : (s.endBlock).trace = s.trace ++ [.blank] := rfl

/-! ### `enterHandler` -/

@[simp] theorem enterHandler_cfg : (s.enterHandler).cfg = s.cfg := rfl
@[simp] theorem enterHandler_ac : (s.enterHandler).ac = s.ac := rfl
@[simp] theorem enterHandler_ip : (s.enterHandler).ip = s.ip := rfl
@[simp] theorem enterHandler_cr : (s.enterHandler).cr = s.cr := rfl
@[simp] theorem enterHandler_ps : (s.enterHandler).ps = s.ps := rfl
@[simp] theorem enterHandler_sp : (s.enterHandler).sp = s.sp := rfl
@[simp] theorem enterHandler_dr : (s.enterHandler).dr = s.dr := rfl
@[simp] theorem enterHandler_ar : (s.enterHandler).ar = s.ar := rfl
@[simp] theorem enterHandler_mem : (s.enterHandler).mem = s.mem := rfl
@[simp] theorem enterHandler_tick : (s.enterHandler).tick = s.tick := rfl
@[simp] theorem enterHandler_inq : (s.enterHandler).inq = s.inq := rfl
@[simp] theorem enterHandler_out : (s.enterHandler).out = s.out := rfl
@[simp] theorem enterHandler_icount : (s.enterHandler).icount = s.icount := rfl
@[simp] theorem enterHandler_depth : (s.enterHandler).depth = s.depth + 1 := rfl
@[simp] theorem enterHandler_status : (s.enterHandler).status = s.status := rfl
@[simp] theorem enterHandler_trace : (s.enterHandler).trace = s.trace := rfl

/-! ### `leaveHandler` -/

@[simp] theorem leaveHandler_cfg : (s.leaveHandler).cfg = s.cfg := rfl
@[simp] theorem leaveHandler_ac : (s.leaveHandler).ac = s.ac := rfl
@[simp] theorem leaveHandler_ip : (s.leaveHandler).ip = s.ip := rfl
@[simp] theorem leaveHandler_cr : (s.leaveHandler).cr = s.cr := rfl
@[simp] theorem leaveHandler_ps : (s.leaveHandler).ps = s.ps := rfl
@[simp] theorem leaveHandler_sp : (s.leaveHandler).sp = s.sp := rfl
@[simp] theorem leaveHandler_dr : (s.leaveHandler).dr = s.dr := rfl
@[simp] theorem leaveHandler_ar : (s.leaveHandler).ar = s.ar := rfl
@[simp] theorem leaveHandler_mem : (s.leaveHandler).mem = s.mem := rfl
@[simp] theorem leaveHandler_tick : (s.leaveHandler).tick = s.tick := rfl
@[simp] theorem leaveHandler_inq : (s.leaveHandler).inq = s.inq := rfl
@[simp] theorem leaveHandler_out : (s.leaveHandler).out = s.out := rfl
@[simp] theorem leaveHandler_icount : (s.leaveHandler).icount = s.icount := rfl
@[simp] theorem leaveHandler_depth : (s.leaveHandler).depth = s.depth - 1 := rfl
@[simp] theorem leaveHandler_status : (s.leaveHandler).status = s.status := rfl
@[simp] theorem leaveHandler_trace : (s.leaveHandler).trace = s.trace := rfl

/-! ### `countInstruction` -/

@[simp] theorem countInstruction_cfg : (s.countInstruction).cfg = s.cfg := rfl
@[simp] theorem countInstruction_ac : (s.countInstruction).ac = s.ac := rfl
@[simp] theorem countInstruction_ip : (s.countInstruction).ip = s.ip := rfl
@[simp] theorem countInstruction_cr : (s.countInstruction).cr = s.cr := rfl
@[simp] theorem countInstruction_ps : (s.countInstruction).ps = s.ps := rfl
@[simp] theorem countInstruction_sp : (s.countInstruction).sp = s.sp := rfl
@[simp] theorem countInstruction_dr : (s.countInstruction).dr = s.dr := rfl
@[simp] theorem countInstruction_ar : (s.countInstruction).ar = s.ar := rfl
@[simp] theorem countInstruction_mem : (s.countInstruction).mem = s.mem := rfl
@[simp] theorem countInstruction_tick : (s.countInstruction).tick = s.tick := rfl
@[simp] theorem countInstruction_inq : (s.countInstruction).inq = s.inq := rfl
@[simp] theorem countInstruction_out : (s.countInstruction).out = s.out := rfl
@[simp] theorem countInstruction_icount : (s.countInstruction).icount = s.icount + 1 := rfl
@[simp] theorem countInstruction_depth : (s.countInstruction).depth = s.depth := rfl
@[simp] theorem countInstruction_status : (s.countInstruction).status = s.status := rfl
@[simp] theorem countInstruction_trace : (s.countInstruction).trace = s.trace := rfl

/-! ### `write` -/

@[simp] theorem write_cfg (bs : List Byte) : (s.write bs).cfg = s.cfg := rfl
@[simp] theorem write_ac (bs : List Byte) : (s.write bs).ac = s.ac := rfl
@[simp] theorem write_ip (bs : List Byte) : (s.write bs).ip = s.ip := rfl
@[simp] theorem write_cr (bs : List Byte) : (s.write bs).cr = s.cr := rfl
@[simp] theorem write_ps (bs : List Byte) : (s.write bs).ps = s.ps := rfl
@[simp] theorem write_sp (bs : List Byte) : (s.write bs).sp = s.sp := rfl
@[simp] theorem write_dr (bs : List Byte) : (s.write bs).dr = s.dr := rfl
@[simp] theorem write_ar (bs : List Byte) : (s.write bs).ar = s.ar := rfl
@[simp] theorem write_mem (bs : List Byte) : (s.write bs).mem = s.mem := rfl
@[simp] theorem write_tick (bs : List Byte) : (s.write bs).tick = s.tick := rfl
@[simp] theorem write_inq (bs : List Byte) : (s.write bs).inq = s.inq := rfl
@[simp] theorem write_out (bs : List Byte) : (s.write bs).out = s.out ++ bs := rfl
@[simp] theorem write_icount (bs : List Byte) : (s.write bs).icount = s.icount := rfl
@[simp] theorem write_depth (bs : List Byte) : (s.write bs).depth = s.depth := rfl
@[simp] theorem write_status (bs : List Byte) : (s.write bs).status = s.status := rfl
@[simp] theorem write_trace (bs : List Byte) : (s.write bs).trace = s.trace := rfl

/-! ### The registers as a whole across the other updates -/

@[simp] theorem storeCell_reg (a : Int) (x : Cell) (r : Reg) : (s.storeCell a x).reg r = s.reg r := by cases r <;> rfl
@[simp] theorem withStatus_reg (st : Status) (r : Reg) : (s.withStatus st).reg r = s.reg r := by cases r <;> rfl
@[simp] theorem endTick_reg (g : TickGroup) (r : Reg) : (s.endTick g).reg r = s.reg r := by cases r <;> rfl
@[simp] theorem endBlock_reg (r : Reg) : (s.endBlock).reg r = s.reg r := by cases r <;> rfl
@[simp] theorem enterHandler_reg (r : Reg) : (s.enterHandler).reg r = s.reg r := by cases r <;> rfl
@[simp] theorem leaveHandler_reg (r : Reg) : (s.leaveHandler).reg r = s.reg r := by cases r <;> rfl
@[simp] theorem countInstruction_reg (r : Reg) : (s.countInstruction).reg r = s.reg r := by cases r <;> rfl
@[simp] theorem write_reg (bs : List Byte) (r : Reg) : (s.write bs).reg r = s.reg r := by cases r <;> rfl
@[simp] theorem advance_reg (r : Reg) : (s.advance).reg r = s.reg r := by cases r <;> rfl

/-! ### What reads memory, `ADDR_MAX` or `PS` only sees those -/

@[simp] theorem inRange_storeCell (a : Int) (x : Cell) (b : Int) : inRange (s.storeCell a x) b = inRange s b := rfl
@[simp] theorem psBit_storeCell (a : Int) (x : Cell) (i : Nat) : psBit (s.storeCell a x) i = psBit s i := rfl
@[simp] theorem flagZ_storeCell (a : Int) (x : Cell) : flagZ (s.storeCell a x) = flagZ s := rfl
@[simp] theorem flagN_storeCell (a : Int) (x : Cell) : flagN (s.storeCell a x) = flagN s := rfl
@[simp] theorem flagC_storeCell (a : Int) (x : Cell) : flagC (s.storeCell a x) = flagC s := rfl
@[simp] theorem flagEI_storeCell (a : Int) (x : Cell) : flagEI (s.storeCell a x) = flagEI s := rfl
@[simp] theorem inputReady_storeCell (a : Int) (x : Cell) : inputReady (s.storeCell a x) = inputReady s := rfl
@[simp] theorem inRange_withStatus (st : Status) (b : Int) : inRange (s.withStatus st) b = inRange s b := rfl
@[simp] theorem memRead_withStatus (st : Status) (b : Int) : memRead (s.withStatus st) b = memRead s b := rfl
@[simp] theorem psBit_withStatus (st : Status) (i : Nat) : psBit (s.withStatus st) i = psBit s i := rfl
@[simp] theorem flagZ_withStatus (st : Status) : flagZ (s.withStatus st) = flagZ s := rfl
@[simp] theorem flagN_withStatus (st : Status) : flagN (s.withStatus st) = flagN s := rfl
@[simp] theorem flagC_withStatus (st : Status) : flagC (s.withStatus st) = flagC s := rfl
@[simp] theorem flagEI_withStatus (st : Status) : flagEI (s.withStatus st) = flagEI s := rfl
@[simp] theorem inputReady_withStatus (st : Status) : inputReady (s.withStatus st) = inputReady s := rfl
@[simp] theorem inRange_endTick (g : TickGroup) (b : Int) : inRange (s.endTick g) b = inRange s b := rfl
@[simp] theorem memRead_endTick (g : TickGroup) (b : Int) : memRead (s.endTick g) b = memRead s b := rfl
@[simp] theorem psBit_endTick (g : TickGroup) (i : Nat) : psBit (s.endTick g) i = psBit s i := rfl
@[simp] theorem flagZ_endTick (g : TickGroup) : flagZ (s.endTick g) = flagZ s := rfl
@[simp] theorem flagN_endTick (g : TickGroup) : flagN (s.endTick g) = flagN s := rfl
@[simp] theorem flagC_endTick (g : TickGroup) : flagC (s.endTick g) = flagC s := rfl
@[simp] theorem flagEI_endTick (g : TickGroup) : flagEI (s.endTick g) = flagEI s := rfl
@[simp] theorem inRange_endBlock (b : Int) : inRange (s.endBlock) b = inRange s b := rfl
@[simp] theorem memRead_endBlock (b : Int) : memRead (s.endBlock) b = memRead s b := rfl
@[simp] theorem psBit_endBlock (i : Nat) : psBit (s.endBlock) i = psBit s i := rfl
@[simp] theorem flagZ_endBlock : flagZ (s.endBlock) = flagZ s := rfl
@[simp] theorem flagN_endBlock : flagN (s.endBlock) = flagN s := rfl
@[simp] theorem flagC_endBlock : flagC (s.endBlock) = flagC s := rfl
@[simp] theorem flagEI_endBlock : flagEI (s.endBlock) = flagEI s := rfl
@[simp] theorem inputReady_endBlock : inputReady (s.endBlock) = inputReady s := rfl
@[simp] theorem inRange_enterHandler (b : Int) : inRange (s.enterHandler) b = inRange s b := rfl
@[simp] theorem memRead_enterHandler (b : Int) : memRead (s.enterHandler) b = memRead s b := rfl
@[simp] theorem psBit_enterHandler (i : Nat) : psBit (s.enterHandler) i = psBit s i := rfl
@[simp] theorem flagZ_enterHandler : flagZ (s.enterHandler) = flagZ s := rfl
@[simp] theorem flagN_enterHandler : flagN (s.enterHandler) = flagN s := rfl
@[simp] theorem flagC_enterHandler : flagC (s.enterHandler) = flagC s := rfl
@[simp] theorem flagEI_enterHandler : flagEI (s.enterHandler) = flagEI s := rfl
@[simp] theorem inputReady_enterHandler : inputReady (s.enterHandler) = inputReady s := rfl
@[simp] theorem inRange_leaveHandler (b : Int) : inRange (s.leaveHandler) b = inRange s b := rfl
@[simp] theorem memRead_leaveHandler (b : Int) : memRead (s.leaveHandler) b = memRead s b := rfl
@[simp] theorem psBit_leaveHandler (i : Nat) : psBit (s.leaveHandler) i = psBit s i := rfl
@[simp] theorem flagZ_leaveHandler : flagZ (s.leaveHandler) = flagZ s := rfl
@[simp] theorem flagN_leaveHandler : flagN (s.leaveHandler) = flagN s := rfl
@[simp] theorem flagC_leaveHandler : flagC (s.leaveHandler) = flagC s := rfl
@[simp] theorem flagEI_leaveHandler : flagEI (s.leaveHandler) = flagEI s := rfl
@[simp] theorem inputReady_leaveHandler : inputReady (s.leaveHandler) = inputReady s := rfl
@[simp] theorem inRange_countInstruction (b : Int) : inRange (s.countInstruction) b = inRange s b := rfl
@[simp] theorem memRead_countInstruction (b : Int) : memRead (s.countInstruction) b = memRead s b := rfl
@[simp] theorem psBit_countInstruction (i : Nat) : psBit (s.countInstruction) i = psBit s i := rfl
@[simp] theorem flagZ_countInstruction : flagZ (s.countInstruction) = flagZ s := rfl
@[simp] theorem flagN_countInstruction : flagN (s.countInstruction) = flagN s := rfl
@[simp] theorem flagC_countInstruction : flagC (s.countInstruction) = flagC s := rfl
@[simp] theorem flagEI_countInstruction : flagEI (s.countInstruction) = flagEI s := rfl
@[simp] theorem inputReady_countInstruction : inputReady (s.countInstruction) = inputReady s := rfl
@[simp] theorem inRange_write (bs : List Byte) (b : Int) : inRange (s.write bs) b = inRange s b := rfl
@[simp] theorem memRead_write (bs : List Byte) (b : Int) : memRead (s.write bs) b = memRead s b := rfl
@[simp] theorem psBit_write (bs : List Byte) (i : Nat) : psBit (s.write bs) i = psBit s i := rfl
@[simp] theorem flagZ_write (bs : List Byte) : flagZ (s.write bs) = flagZ s := rfl
@[simp] theorem flagN_write (bs : List Byte) : flagN (s.write bs) = flagN s := rfl
@[simp] theorem flagC_write (bs : List Byte) : flagC (s.write bs) = flagC s := rfl
@[simp] theorem flagEI_write (bs : List Byte) : flagEI (s.write bs) = flagEI s := rfl
@[simp] theorem inputReady_write (bs : List Byte) : inputReady (s.write bs) = inputReady s := rfl
@[simp] theorem inRange_advance (b : Int) : inRange (s.advance) b = inRange s b := rfl
@[simp] theorem memRead_advance (b : Int) : memRead (s.advance) b = memRead s b := rfl
@[simp] theorem psBit_advance (i : Nat) : psBit (s.advance) i = psBit s i := rfl
@[simp] theorem flagZ_advance : flagZ (s.advance) = flagZ s := rfl
@[simp] theorem flagN_advance : flagN (s.advance) = flagN s := rfl
@[simp] theorem flagC_advance : flagC (s.advance) = flagC s := rfl
@[simp] theorem flagEI_advance : flagEI (s.advance) = flagEI s := rfl
@[simp] theorem inRange_setReg (r : Reg) (x : Cell) (b : Int) : inRange (s.setReg r x) b = inRange s b := by cases r <;> rfl
@[simp] theorem memRead_setReg (r : Reg) (x : Cell) (b : Int) : memRead (s.setReg r x) b = memRead s b := by cases r <;> rfl
@[simp] theorem inputReady_setReg (r : Reg) (x : Cell) : inputReady (s.setReg r x) = inputReady s := by cases r <;> rfl
@[simp] theorem psBit_setReg_ac (x : Cell) (i : Nat) : psBit (s.setReg .ac x) i = psBit s i := rfl
@[simp] theorem flagZ_setReg_ac (x : Cell) : flagZ (s.setReg .ac x) = flagZ s := rfl
@[simp] theorem flagN_setReg_ac (x : Cell) : flagN (s.setReg .ac x) = flagN s := rfl
@[simp] theorem flagC_setReg_ac (x : Cell) : flagC (s.setReg .ac x) = flagC s := rfl
@[simp] theorem flagEI_setReg_ac (x : Cell) : flagEI (s.setReg .ac x) = flagEI s := rfl
@[simp] theorem psBit_setReg_ip (x : Cell) (i : Nat) : psBit (s.setReg .ip x) i = psBit s i := rfl
@[simp] theorem flagZ_setReg_ip (x : Cell) : flagZ (s.setReg .ip x) = flagZ s := rfl
@[simp] theorem flagN_setReg_ip (x : Cell) : flagN (s.setReg .ip x) = flagN s := rfl
@[simp] theorem flagC_setReg_ip (x : Cell) : flagC (s.setReg .ip x) = flagC s := rfl
@[simp] theorem flagEI_setReg_ip (x : Cell) : flagEI (s.setReg .ip x) = flagEI s := rfl
@[simp] theorem psBit_setReg_cr (x : Cell) (i : Nat) : psBit (s.setReg .cr x) i = psBit s i := rfl
@[simp] theorem flagZ_setReg_cr (x : Cell) : flagZ (s.setReg .cr x) = flagZ s := rfl
@[simp] theorem flagN_setReg_cr (x : Cell) : flagN (s.setReg .cr x) = flagN s := rfl
@[simp] theorem flagC_setReg_cr (x : Cell) : flagC (s.setReg .cr x) = flagC s := rfl
@[simp] theorem flagEI_setReg_cr (x : Cell) : flagEI (s.setReg .cr x) = flagEI s := rfl
@[simp] theorem psBit_setReg_sp (x : Cell) (i : Nat) : psBit (s.setReg .sp x) i = psBit s i := rfl
@[simp] theorem flagZ_setReg_sp (x : Cell) : flagZ (s.setReg .sp x) = flagZ s := rfl
@[simp] theorem flagN_setReg_sp (x : Cell) : flagN (s.setReg .sp x) = flagN s := rfl
@[simp] theorem flagC_setReg_sp (x : Cell) : flagC (s.setReg .sp x) = flagC s := rfl
@[simp] theorem flagEI_setReg_sp (x : Cell) : flagEI (s.setReg .sp x) = flagEI s := rfl
@[simp] theorem psBit_setReg_dr (x : Cell) (i : Nat) : psBit (s.setReg .dr x) i = psBit s i := rfl
@[simp] theorem flagZ_setReg_dr (x : Cell) : flagZ (s.setReg .dr x) = flagZ s := rfl
@[simp] theorem flagN_setReg_dr (x : Cell) : flagN (s.setReg .dr x) = flagN s := rfl
@[simp] theorem flagC_setReg_dr (x : Cell) : flagC (s.setReg .dr x) = flagC s := rfl
@[simp] theorem flagEI_setReg_dr (x : Cell) : flagEI (s.setReg .dr x) = flagEI s := rfl
@[simp] theorem psBit_setReg_ar (x : Cell) (i : Nat) : psBit (s.setReg .ar x) i = psBit s i := rfl
@[simp] theorem flagZ_setReg_ar (x : Cell) : flagZ (s.setReg .ar x) = flagZ s := rfl
@[simp] theorem flagN_setReg_ar (x : Cell) : flagN (s.setReg .ar x) = flagN s := rfl
@[simp] theorem flagC_setReg_ar (x : Cell) : flagC (s.setReg .ar x) = flagC s := rfl
@[simp] theorem flagEI_setReg_ar (x : Cell) : flagEI (s.setReg .ar x) = flagEI s := rfl

/-! ### Sequences -/

@[simp] theorem go_andThen (f : State → Flow) : (Flow.go s).andThen f = f s := rfl
@[simp] theorem stop_andThen (f : State → Flow) : (Flow.stop s).andThen f = .stop s := rfl
@[simp] theorem go_state : (Flow.go s).state = s := rfl
@[simp] theorem stop_state : (Flow.stop s).state = s := rfl
@[simp] theorem outcome_eq (x : Flow) : x.outcome = .next x.state := rfl
@[simp] theorem tickGo_eq (g : TickGroup) : tickGo g s = .go (s.endTick g) := rfl
@[simp] theorem raiseFatal_eq (c : FatalCause) : s.raiseFatal c = .stop (s.withStatus (.fatal c)) := rfl
@[simp] theorem stopAs_eq (st : Status) : s.stopAs st = .stop (s.withStatus st) := rfl

theorem andThen_assoc (x : Flow) (f g : State → Flow) :
    (x.andThen f).andThen g = x.andThen fun t => (f t).andThen g := by cases x <;> rfl

end Sys2Proof.Machine
end

