-- ==== Sys2Proof/Laws/Word.lean ====
section
/-! SUPPORT. Word values and their two's-complement patterns: `tc_W` and `sext_W` are inverse to each other. -/

namespace Sys2Proof.Machine

theorem half_pos (c : Config) : 0 < c.half := by unfold Config.half; positivity

theorem full_pos (c : Config) : 0 < c.full := by unfold Config.full; positivity

/-- `2^W` is twice `2^(W-1)`. -/
theorem full_eq_two_half (c : Config) (h : 1 ≤ c.w) : c.full = 2 * c.half := by
  unfold Config.full Config.half
  conv_lhs => rw [show c.w = c.w - 1 + 1 by omega, pow_succ]
  ring

/-- A legal configuration has words of at least 9 bits (00_scope.md R4). -/
theorem nine_le_of_legal (c : Config) (h : c.legal = true) : 9 ≤ c.w := by
  simp [Config.legal] at h; omega

theorem full_eq_of_legal (c : Config) (h : c.legal = true) : c.full = 2 * c.half :=
  full_eq_two_half c (by have := nine_le_of_legal c h; omega)

/-- A legal configuration's `2^(W-1)` is at least 256. -/
theorem half_ge_of_legal (c : Config) (h : c.legal = true) : 256 ≤ c.half := by
  have h9 := nine_le_of_legal c h
  unfold Config.half
  calc 256 = 2 ^ 8 := by norm_num
    _ ≤ 2 ^ (c.w - 1) := Nat.pow_le_pow_right (by norm_num) (by omega)

/-- `ADDR_MAX + 1` is a word value (00_scope.md R4). -/
theorem addrMax_of_legal (c : Config) (h : c.legal = true) : (c.addrMax : Int) + 1 ≤ c.wordMax := by
  simp [Config.legal] at h; omega

/-- `INT_VECTOR` is a memory address (00_scope.md R4). -/
theorem intVector_of_legal (c : Config) (h : c.legal = true) : c.intVector ≤ c.addrMax := by
  simp [Config.legal] at h; omega

theorem isWord_iff (c : Config) (v : Int) : c.isWord v = true ↔ -(c.half : Int) ≤ v ∧ v ≤ (c.half : Int) - 1 := by
  unfold Config.isWord Config.wordMin Config.wordMax
  rw [Bool.and_eq_true, decide_eq_true_eq, decide_eq_true_eq]

/-- A pattern has at most `W` bits. -/
theorem tcW_lt (c : Config) (v : Int) : tcW c v < c.full := by
  have hf := full_pos c
  have h1 := Int.emod_nonneg v (b := (c.full : Int)) (by omega)
  have h2 := Int.emod_lt_of_pos v (b := (c.full : Int)) (by omega)
  unfold tcW; omega

/-- Sign extension of a `W`-bit pattern is a word value. -/
theorem isWord_sextW (c : Config) (hc : c.legal = true) (p : Nat) (hp : p < c.full) :
    c.isWord (sextW c p) = true := by
  have hf := full_eq_of_legal c hc
  rw [isWord_iff]; unfold sextW; split <;> omega

/-- The pattern of a sign-extended pattern is that pattern. -/
theorem tcW_sextW (c : Config) (p : Nat) (hp : p < c.full) : tcW c (sextW c p) = p := by
  unfold tcW sextW
  split
  · rw [Int.emod_eq_of_lt (by omega) (by omega)]; omega
  · rw [Int.sub_emod_right, Int.emod_eq_of_lt (by omega) (by omega)]; omega

/-- The sign extension of a word value's pattern is that value. -/
theorem sextW_tcW (c : Config) (hc : c.legal = true) (v : Int) (hv : c.isWord v = true) : sextW c (tcW c v) = v := by
  have hf := full_eq_of_legal c hc
  have hw := (isWord_iff c v).mp hv
  have hp := half_pos c
  unfold tcW sextW
  by_cases h : 0 ≤ v
  · rw [Int.emod_eq_of_lt h (by omega)]
    split <;> omega
  · rw [← Int.add_emod_right, Int.emod_eq_of_lt (by omega) (by omega)]
    split <;> omega

/-- A small natural number is its own pattern. -/
theorem tcW_natCast (c : Config) (n : Nat) (h : n < c.full) : tcW c (n : Int) = n := by
  unfold tcW; rw [Int.emod_eq_of_lt (by omega) (by omega)]; omega

/-- The pattern of `-9` is the complement of 8 (42_addressless.md R100). -/
theorem tcW_neg_nine (c : Config) (hc : c.legal = true) : tcW c (-9) = c.full - (8 + 1) := by
  have hf := full_eq_of_legal c hc
  have hh := half_ge_of_legal c hc
  unfold tcW
  rw [← Int.add_emod_right, Int.emod_eq_of_lt (by omega) (by omega)]; omega

/-- A bit of the complement of a mask. -/
theorem testBit_full_sub (c : Config) (m i : Nat) (h : m < c.full) :
    (c.full - (m + 1)).testBit i = (decide (i < c.w) && !m.testBit i) :=
  Nat.testBit_two_pow_sub_succ h i

/-- A pattern has no bits from `W` up. -/
theorem testBit_tcW_high (c : Config) (v : Int) (i : Nat) (h : c.w ≤ i) : (tcW c v).testBit i = false := by
  apply Nat.testBit_eq_false_of_lt
  exact lt_of_lt_of_le (tcW_lt c v) (Nat.pow_le_pow_right (by norm_num) h)

end Sys2Proof.Machine
end

