-- ==== Sys2Proof/Laws/Flags.lean ====
section
/-! SUPPORT. What the flag merge and the two `EI` masks do to the bits of `PS`, and the counting of `IP` and `SP` inside the
word range. -/

namespace Sys2Proof.Machine

/-- `wrap` lands in the canonical range. -/
theorem isWord_wrap (c : Config) (hc : c.legal = true) (v : Int) : c.isWord (wrap c v) = true := by
  have hf := full_eq_of_legal c hc
  have hp := full_pos c
  have h1 := Int.emod_nonneg (v + (c.half : Int)) (b := (c.full : Int)) (by omega)
  have h2 := Int.emod_lt_of_pos (v + (c.half : Int)) (b := (c.full : Int)) (by omega)
  rw [isWord_iff]; unfold wrap; omega

/-- `wrap` changes no word value. -/
theorem wrap_of_isWord (c : Config) (hc : c.legal = true) (v : Int) (hv : c.isWord v = true) : wrap c v = v := by
  have hf := full_eq_of_legal c hc
  have h := (isWord_iff c v).mp hv
  unfold wrap
  rw [Int.emod_eq_of_lt (by omega) (by omega)]; omega

/-- A legal configuration's masks are small. -/
theorem small_lt_full (c : Config) (hc : c.legal = true) (n : Nat) (h : n < 512) : n < c.full := by
  have h1 := half_ge_of_legal c hc
  have h2 := full_eq_of_legal c hc
  omega

/-- The flag bits as one number. -/
theorem flagBits_testBit (z n cy : Bool) (i : Nat) :
    (z.toNat ||| (n.toNat <<< 1) ||| (cy.toNat <<< 2)).testBit i =
      (match i with | 0 => z | 1 => n | 2 => cy | _ => false) := by
  match i with
  | 0 => cases z <;> cases n <;> cases cy <;> rfl
  | 1 => cases z <;> cases n <;> cases cy <;> rfl
  | 2 => cases z <;> cases n <;> cases cy <;> rfl
  | i + 3 =>
    apply Nat.testBit_eq_false_of_lt
    refine lt_of_lt_of_le (b := 8) ?_ ?_
    · cases z <;> cases n <;> cases cy <;> decide
    · exact Nat.pow_le_pow_right (n := 2) (i := 3) (by norm_num) (by omega)

/-- The pattern `mergeFlags` extends. -/
theorem mergeFlags_pattern_lt (c : Config) (hc : c.legal = true) (ps : Cell) (z n cy : Bool) :
    ((tcW c ps.value &&& (c.full - 1 - 7)) ||| z.toNat ||| (n.toNat <<< 1) ||| (cy.toNat <<< 2)) < c.full := by
  have h8 : ∀ k, k < 8 → k < 2 ^ c.w := fun k hk => small_lt_full c hc k (by omega)
  unfold Config.full
  refine Nat.or_lt_two_pow (Nat.or_lt_two_pow (Nat.or_lt_two_pow ?_ ?_) ?_) ?_
  · exact lt_of_le_of_lt Nat.and_le_left (tcW_lt c _)
  · exact h8 _ (by cases z <;> decide)
  · exact h8 _ (by cases n <;> decide)
  · exact h8 _ (by cases cy <;> decide)

/-- The bits of a cell with flags merged in: `Z`, `N`, `C` at 0, 1, 2, every other bit as it was. -/
theorem mergeFlags_testBit (c : Config) (hc : c.legal = true) (ps : Cell) (z n cy : Bool) (i : Nat) :
    (tcW c (mergeFlags c ps z n cy).value).testBit i =
      (match i with | 0 => z | 1 => n | 2 => cy | _ => (tcW c ps.value).testBit i) := by
  have hm : c.full - 1 - 7 = c.full - (7 + 1) := by omega
  have hw := nine_le_of_legal c hc
  show (tcW c (sextW c _)).testBit i = _
  rw [tcW_sextW c _ (mergeFlags_pattern_lt c hc ps z n cy), Nat.or_assoc, Nat.or_assoc, ← Nat.or_assoc z.toNat,
    Nat.testBit_or, flagBits_testBit, Nat.testBit_and, hm, testBit_full_sub c 7 i (small_lt_full c hc 7 (by omega))]
  match i with
  | 0 => simp
  | 1 => simp [show (7 : Nat).testBit 1 = true from rfl]
  | 2 => simp [show (7 : Nat).testBit 2 = true from rfl]
  | i + 3 =>
    have h7 : (7 : Nat).testBit (i + 3) = false := by
      apply Nat.testBit_eq_false_of_lt
      exact lt_of_lt_of_le (b := 8) (by norm_num) (Nat.pow_le_pow_right (n := 2) (i := 3) (by norm_num) (by omega))
    by_cases hi : i + 3 < c.w
    · simp [h7, hi]
    · simp [hi, testBit_tcW_high c ps.value (i + 3) (by omega)]

/-- Or-ing or and-ing two patterns gives a pattern. -/
theorem or_lt_full (c : Config) (a b : Int) : tcW c a ||| tcW c b < c.full := Nat.or_lt_two_pow (tcW_lt c a) (tcW_lt c b)

theorem and_lt_full (c : Config) (a b : Int) : tcW c a &&& tcW c b < c.full :=
  lt_of_le_of_lt Nat.and_le_left (tcW_lt c a)

/-- The ALU's `OR` and `AND` are already words, so wrapping changes nothing. -/
theorem alu_or_value (c : Config) (hc : c.legal = true) (l r : Cell) :
    (alu c .or l r).res.value = sextW c (tcW c l.value ||| tcW c r.value) :=
  wrap_of_isWord c hc _ (isWord_sextW c hc _ (or_lt_full c _ _))

theorem alu_and_value (c : Config) (hc : c.legal = true) (l r : Cell) :
    (alu c .and l r).res.value = sextW c (tcW c l.value &&& tcW c r.value) :=
  wrap_of_isWord c hc _ (isWord_sextW c hc _ (and_lt_full c _ _))

/-- Setting `EI`: bit 3, every other bit as it was. -/
theorem alu_or_eiMask_testBit (c : Config) (hc : c.legal = true) (x : Cell) (i : Nat) :
    (tcW c (alu c .or x eiMask).res.value).testBit i = (decide (i = 3) || (tcW c x.value).testBit i) := by
  rw [alu_or_value c hc, tcW_sextW c _ (or_lt_full c _ _), Nat.testBit_or,
    show eiMask.value = ((8 : Nat) : Int) from rfl, tcW_natCast c 8 (small_lt_full c hc 8 (by omega)),
    show (8 : Nat) = 2 ^ 3 from rfl, Nat.testBit_two_pow, Bool.or_comm]
  congr 1
  exact decide_eq_decide.mpr eq_comm

/-- Clearing `EI`: bit 3, every other bit as it was. -/
theorem alu_and_diMask_testBit (c : Config) (hc : c.legal = true) (x : Cell) (i : Nat) :
    (tcW c (alu c .and x diMask).res.value).testBit i = (!decide (i = 3) && (tcW c x.value).testBit i) := by
  rw [alu_and_value c hc, tcW_sextW c _ (and_lt_full c _ _), Nat.testBit_and,
    show diMask.value = -9 from rfl, tcW_neg_nine c hc, testBit_full_sub c 8 i (small_lt_full c hc 8 (by omega)),
    show (8 : Nat) = 2 ^ 3 from rfl, Nat.testBit_two_pow]
  by_cases hi : i < c.w
  · by_cases h3 : i = 3
    · subst h3; simp
    · simp [hi, h3, Ne.symm h3]
  · simp [hi, testBit_tcW_high c x.value i (by omega)]

/-- A cell counted up or down inside the word range: the tags stay. -/
theorem alu_add_one (c : Config) (hc : c.legal = true) (x : Cell) (h0 : 0 ≤ x.value) (h1 : x.value ≤ (c.addrMax : Int)) :
    (alu c .add x (Cell.const 1)).res = ⟨x.op, x.value + 1, x.vt⟩ := by
  have ha := addrMax_of_legal c hc
  have hw : c.wordMax = (c.half : Int) - 1 := rfl
  have : wrap c (x.value + 1) = x.value + 1 := wrap_of_isWord c hc _ ((isWord_iff c _).mpr (by omega))
  show (⟨x.op, wrap c (x.value + 1), x.vt⟩ : Cell) = _
  rw [this]

theorem alu_sub_one (c : Config) (hc : c.legal = true) (x : Cell) (h0 : 0 ≤ x.value)
    (h1 : x.value ≤ (c.addrMax : Int) + 1) : (alu c .sub x (Cell.const 1)).res = ⟨x.op, x.value - 1, x.vt⟩ := by
  have ha := addrMax_of_legal c hc
  have hh := half_ge_of_legal c hc
  have hw : c.wordMax = (c.half : Int) - 1 := rfl
  have : wrap c (x.value - 1) = x.value - 1 := wrap_of_isWord c hc _ ((isWord_iff c _).mpr (by omega))
  show (⟨x.op, wrap c (x.value - 1), x.vt⟩ : Cell) = _
  rw [this]

end Sys2Proof.Machine
end

