-- ==== Sys2Proof/Laws/Memory.lean ====
section
/-! SUPPORT. Memory: what one write does to the entries, and that every memory operation keeps the canonical form. -/

namespace Sys2Proof.Machine

@[simp] theorem Memory.read_nil (a : Nat) : Memory.read [] a = Cell.zero := rfl

theorem Memory.read_cons (e : Nat × Cell) (m : Memory) (a : Nat) :
    Memory.read (e :: m) a = if e.1 = a then e.2 else Memory.read m a := rfl

/-- An address no entry lists reads as the zero cell. -/
theorem Memory.read_unlisted (m : Memory) (a : Nat) (h : ∀ e ∈ m, e.1 ≠ a) : Memory.read m a = Cell.zero := by
  induction m with
  | nil => rfl
  | cons e m ih =>
    rw [Memory.read_cons, if_neg (h e (by simp))]
    exact ih fun x hx => h x (by simp [hx])

/-- The entries after an insertion are the new one and the old ones. -/
theorem Memory.mem_insertEntry (m : Memory) (a : Nat) (x : Cell) (e : Nat × Cell) :
    e ∈ Memory.insertEntry m a x ↔ e = (a, x) ∨ e ∈ m := by
  induction m with
  | nil => simp [Memory.insertEntry]
  | cons d m ih =>
    unfold Memory.insertEntry
    split
    · simp
    · simp only [List.mem_cons, ih]; tauto

/-- Inserting an entry at an address that is not listed leaves every other address as it was. -/
theorem Memory.read_insertEntry (m : Memory) (a : Nat) (x : Cell) (h : ∀ e ∈ m, e.1 ≠ a) (b : Nat) :
    Memory.read (Memory.insertEntry m a x) b = if b = a then x else Memory.read m b := by
  induction m with
  | nil => simp [Memory.insertEntry, Memory.read, eq_comm]
  | cons d m ih =>
    have hd : d.1 ≠ a := h d (by simp)
    have ih := ih fun e he => h e (by simp [he])
    unfold Memory.insertEntry
    split
    · simp [Memory.read, eq_comm]
    · simp only [Memory.read_cons, ih]
      by_cases hb : b = a
      · subst hb; simp [hd]
      · simp [hb]

/-- Dropping the entries of one address leaves every other address as it was. -/
theorem Memory.read_filter (m : Memory) (a b : Nat) (h : b ≠ a) :
    Memory.read (m.filter fun e => decide (e.1 ≠ a)) b = Memory.read m b := by
  induction m with
  | nil => rfl
  | cons d m ih =>
    by_cases hd : d.1 = a
    · have hb : d.1 ≠ b := fun hb => h (hb ▸ hd)
      rw [List.filter_cons_of_neg (by simp [hd]), ih, Memory.read_cons, if_neg hb]
    · rw [List.filter_cons_of_pos (by simp [hd]), Memory.read_cons, Memory.read_cons, ih]

/-- THE SPEC OF `Memory.write`: the written address reads the cell, every other address reads as before. -/
theorem Memory.read_write (m : Memory) (a : Nat) (x : Cell) (b : Nat) :
    Memory.read (Memory.write m a x) b = if b = a then x else Memory.read m b := by
  have hf : ∀ e ∈ m.filter (fun e => decide (e.1 ≠ a)), e.1 ≠ a := by
    intro e he; simpa using (List.mem_filter.mp he).2
  unfold Memory.write
  by_cases hx : x = Cell.zero
  · by_cases hb : b = a
    · subst hb; simp only [hx, if_true]; exact Memory.read_unlisted _ _ hf
    · simp only [hx, if_true, hb, if_false]; exact Memory.read_filter m a b hb
  · simp only [hx, if_false, Memory.read_insertEntry _ _ _ hf]
    by_cases hb : b = a
    · simp [hb]
    · simp only [hb, if_false]; exact Memory.read_filter m a b hb

/-- Insertion keeps the addresses strictly rising. -/
theorem Memory.pairwise_insertEntry (m : Memory) (a : Nat) (x : Cell)
    (hp : m.Pairwise fun d e => d.1 < e.1) (h : ∀ e ∈ m, e.1 ≠ a) :
    (Memory.insertEntry m a x).Pairwise fun d e => d.1 < e.1 := by
  induction m with
  | nil => simp [Memory.insertEntry]
  | cons d m ih =>
    have hd := List.pairwise_cons.mp hp
    have hne : d.1 ≠ a := h d (by simp)
    unfold Memory.insertEntry
    split
    · rename_i hlt
      refine List.pairwise_cons.mpr ⟨fun e he => ?_, hp⟩
      rcases List.mem_cons.mp he with rfl | he
      · exact hlt
      · exact lt_trans hlt (hd.1 e he)
    · rename_i hnl
      refine List.pairwise_cons.mpr ⟨fun e he => ?_, ih hd.2 fun e he => h e (by simp [he])⟩
      rcases (Memory.mem_insertEntry m a x e).mp he with rfl | he
      · show d.1 < a
        omega
      · exact hd.1 e he

/-- Every entry after a write is the written one or an old one of another address. -/
theorem Memory.mem_write (m : Memory) (a : Nat) (x : Cell) (e : Nat × Cell) (h : e ∈ Memory.write m a x) :
    (e = (a, x) ∧ x ≠ Cell.zero) ∨ e ∈ m := by
  unfold Memory.write at h
  by_cases hx : x = Cell.zero
  · simp only [hx, if_true, List.mem_filter] at h; exact .inr h.1
  · simp only [hx, if_false, Memory.mem_insertEntry, List.mem_filter] at h
    rcases h with h | h
    · exact .inl ⟨h, hx⟩
    · exact .inr h.1

/-- EVERY WRITE KEEPS THE CANONICAL FORM. -/
theorem Memory.wf_write (m : Memory) (a : Nat) (x : Cell) (h : Memory.wf m) : Memory.wf (Memory.write m a x) := by
  refine ⟨?_, fun e he => ?_⟩
  · have hf := h.1.filter fun e => decide (e.1 ≠ a)
    have hn : ∀ e ∈ m.filter (fun e => decide (e.1 ≠ a)), e.1 ≠ a := by
      intro e he; simpa using (List.mem_filter.mp he).2
    unfold Memory.write
    by_cases hx : x = Cell.zero
    · simpa only [hx, if_true] using hf
    · simpa only [hx, if_false] using Memory.pairwise_insertEntry _ a x hf hn
  · rcases Memory.mem_write m a x e he with ⟨rfl, hx⟩ | he
    · exact hx
    · exact h.2 e he

/-- The empty memory of the reset state has the canonical form. -/
theorem Memory.wf_nil : Memory.wf [] := by constructor <;> simp

/-- A cell read from memory is the zero cell or one of the entries. -/
theorem Memory.read_mem (m : Memory) (a : Nat) : Memory.read m a = Cell.zero ∨ (a, Memory.read m a) ∈ m := by
  induction m with
  | nil => exact .inl rfl
  | cons d m ih =>
    rw [Memory.read_cons]
    by_cases h : d.1 = a
    · simp only [h, if_true]; exact .inr (by subst h; simp)
    · simp only [h, if_false]
      rcases ih with ih | ih
      · exact .inl ih
      · exact .inr (List.mem_cons_of_mem _ ih)

/-- What a read answers: it fails outside `0..ADDR_MAX` and nowhere else (20_memory.md R31). -/
theorem memRead_eq_some (s : State) (a : Int) (x : Cell) :
    memRead s a = some x ↔ inRange s a = true ∧ x = Memory.read s.mem a.toNat := by
  unfold memRead
  by_cases h : inRange s a = true
  · simp only [h, if_true, Option.some.injEq, true_and]; exact eq_comm
  · simp [h]

theorem memRead_eq_none (s : State) (a : Int) : memRead s a = none ↔ inRange s a = false := by
  unfold memRead
  by_cases h : inRange s a = true <;> simp [h]

theorem inRange_iff (s : State) (a : Int) : inRange s a = true ↔ 0 ≤ a ∧ a ≤ (s.cfg.addrMax : Int) := by
  simp [inRange]

/-- A read after a store: the stored cell at the address, what was there at every other one. -/
theorem memRead_storeCell (s : State) (a b : Int) (x : Cell) (ha : inRange s a = true) :
    memRead (s.storeCell a x) b = if b = a then (some x) else memRead s b := by
  have h0 := ((inRange_iff s a).mp ha)
  unfold memRead
  rw [show inRange (s.storeCell a x) b = inRange s b from rfl,
    show (s.storeCell a x).mem = Memory.write s.mem a.toNat x from rfl, Memory.read_write]
  by_cases hb : b = a
  · subst hb; simp [ha]
  · by_cases hr : inRange s b = true
    · have h1 := (inRange_iff s b).mp hr
      have : b.toNat ≠ a.toNat := by omega
      simp [hr, hb, this]
    · simp [hr, hb]

end Sys2Proof.Machine
end

