-- ==== Sys2Proof/Laws/Ops.lean ====
section
/-! SUPPORT. For each shared operation one lemma that says once everything it can do. A trace suffix `l` is given by its
length only; `Laws/Signals.lean` says what its tuples are. -/

namespace Sys2Proof.Machine

/-! ### Single signals -/

/-- Everything `DR <- MemRead(AR.value)` can do. -/
theorem memToDr_spec (s : State) :
    (∃ x, memRead s s.ar.value = some x ∧ memToDr s = .go (s.setReg .dr x)) ∨
    (inRange s s.ar.value = false ∧ memToDr s = .stop (s.withStatus (.fatal .addressOutOfRange))) := by
  unfold memToDr
  cases h : memRead s s.ar.value with
  | none => exact .inr ⟨(memRead_eq_none s _).mp h, rfl⟩
  | some x => exact .inl ⟨x, rfl, rfl⟩

/-- Everything `MemWrite(AR.value, DR)` can do. -/
theorem drToMem_spec (s : State) :
    (inRange s s.ar.value = true ∧ drToMem s = .go (s.storeCell s.ar.value s.dr)) ∨
    (inRange s s.ar.value = false ∧ drToMem s = .stop (s.withStatus (.fatal .addressOutOfRange))) := by
  unfold drToMem
  cases h : inRange s s.ar.value
  · exact .inr ⟨rfl, rfl⟩
  · exact .inl ⟨rfl, rfl⟩

/-- Everything a marked ALU call with its result dropped can do. -/
theorem aluFlags_spec (op : AluOp) (l r : Cell) (s : State) :
    (aluFails op r = false ∧ aluFlags op l r s = .go (s.mergeAlu (alu s.cfg op l r))) ∨
    (aluFails op r = true ∧ aluFlags op l r s = .stop (s.withStatus (.fatal .divideByZero))) := by
  unfold aluFlags
  cases h : aluFails op r
  · exact .inl ⟨rfl, rfl⟩
  · exact .inr ⟨rfl, rfl⟩

/-- Everything `AC <- ALUF(op, l, r)` can do. -/
theorem aluToAc_spec (op : AluOp) (l r : Cell) (s : State) :
    (aluFails op r = false ∧
      aluToAc op l r s = .go ((s.mergeAlu (alu s.cfg op l r)).setReg .ac (alu s.cfg op l r).res)) ∨
    (aluFails op r = true ∧ aluToAc op l r s = .stop (s.withStatus (.fatal .divideByZero))) := by
  rcases aluFlags_spec op l r s with ⟨h, e⟩ | ⟨h, e⟩
  · exact .inl ⟨h, by simp [aluToAc, e]⟩
  · exact .inr ⟨h, by simp [aluToAc, e]⟩

/-- The limit check: refused at the ceiling, one more instruction counted below it. -/
theorem limitCheck_spec (s : State) :
    (limitReached s = false ∧ limitCheck s = .go s.countInstruction) ∨
    (limitReached s = true ∧ limitCheck s = .stop (s.withStatus (.fatal .instructionLimitExceeded))) := by
  unfold limitCheck
  cases h : limitReached s
  · exact .inl ⟨rfl, rfl⟩
  · exact .inr ⟨rfl, rfl⟩

/-! ### Address fetch and operand fetch -/

/-- Everything `AF` can do: the cell in `DR` goes to `AR`, the cell it names to `DR`. -/
theorem groupAf_spec (s : State) :
    (∃ x l, memRead s s.dr.value = some x ∧ l.length = 1 ∧
      groupAf s = .go { s with ar := s.dr, dr := x, tick := s.tick + 1, trace := s.trace ++ l }) ∨
    (inRange s s.dr.value = false ∧
      groupAf s = .stop { s with ar := s.dr, status := .fatal .addressOutOfRange }) := by
  unfold groupAf
  rcases memToDr_spec (s.latch .ar .dr) with ⟨x, hx, e⟩ | ⟨h, e⟩
  · exact .inl ⟨x, [.tuple _], by simpa using hx, rfl, by rw [e]; rfl⟩
  · exact .inr ⟨by simpa using h, by rw [e]; rfl⟩

/-- Everything `OF` can do: the same signals as `AF`. -/
theorem groupOf_spec (s : State) :
    (∃ x l, memRead s s.dr.value = some x ∧ l.length = 1 ∧
      groupOf s = .go { s with ar := s.dr, dr := x, tick := s.tick + 1, trace := s.trace ++ l }) ∨
    (inRange s s.dr.value = false ∧
      groupOf s = .stop { s with ar := s.dr, status := .fatal .addressOutOfRange }) := by
  unfold groupOf
  rcases memToDr_spec (s.latch .ar .dr) with ⟨x, hx, e⟩ | ⟨h, e⟩
  · exact .inl ⟨x, [.tuple _], by simpa using hx, rfl, by rw [e]; rfl⟩
  · exact .inr ⟨by simpa using h, by rw [e]; rfl⟩

/-- The ticks of the address fetch of an operand form. -/
def fetchTicks (t : ValueType) : Nat := if isIndirect t then 1 else 0

/-- What the address fetch leaves where the operand resolves to the cell `p`: `DR = p`, and `AR` the instruction cell when
a fetch was made. -/
theorem addressFetch_spec (s : State) (x p : Cell) (h : resolvedCell s x = some p) :
    ∃ l, l.length = fetchTicks x.vt ∧
      addressFetch x.vt (s.present x) =
        .go { s with cr := x, dr := p, ar := if isIndirect x.vt then x else s.ar,
                     tick := s.tick + fetchTicks x.vt, trace := s.trace ++ l } := by
  unfold addressFetch fetchTicks resolvedCell at *
  cases hi : isIndirect x.vt
  · rw [hi] at h
    obtain rfl : x = p := by simpa using h
    exact ⟨[], by simp, by simp [State.present, State.setReg]⟩
  · rw [hi] at h
    have h : memRead s x.value = some p := by simpa using h
    rcases groupAf_spec (s.present x) with ⟨y, l, hy, hl, e⟩ | ⟨hn, e⟩
    · have hy : memRead s x.value = some y := by simpa using hy
      obtain rfl : p = y := by rw [h] at hy; exact Option.some.inj hy
      exact ⟨l, by simp [hl], by simp only [if_true]; rw [e]; rfl⟩
    · exact absurd hn (by simp [((memRead_eq_some s _ _).mp h).1])

/-- The address fetch of an operand that does not resolve: `AR` has the bad address, `DR` still the instruction cell. -/
theorem addressFetch_none (s : State) (x : Cell) (h : resolvedCell s x = none) :
    isIndirect x.vt = true ∧ inRange s x.value = false ∧
      addressFetch x.vt (s.present x) =
        .stop { s with cr := x, dr := x, ar := x, status := .fatal .addressOutOfRange } := by
  unfold addressFetch resolvedCell at *
  cases hi : isIndirect x.vt
  · rw [hi] at h; simp at h
  · rw [hi] at h
    have h : memRead s x.value = none := by simpa using h
    refine ⟨rfl, (memRead_eq_none s _).mp h, ?_⟩
    rcases groupAf_spec (s.present x) with ⟨y, l, hy, -, -⟩ | ⟨-, e⟩
    · have hy : memRead s x.value = some y := by simpa using hy
      rw [h] at hy; simp at hy
    · simp only [if_true]; rw [e]; rfl

/-- What an Address-class prefix leaves where the effective address is `p.value` and it holds `y` (41_address.md R80). -/
theorem addressPrefix_spec (s : State) (x p y : Cell) (h : resolvedCell s x = some p)
    (hy : memRead s p.value = some y) :
    ∃ l, l.length = fetchTicks x.vt + 1 ∧
      addressPrefix x.vt (s.present x) =
        .go { s with cr := x, ar := p, dr := y, tick := s.tick + (fetchTicks x.vt + 1), trace := s.trace ++ l } := by
  obtain ⟨l, hl, e⟩ := addressFetch_spec s x p h
  unfold addressPrefix
  rw [e, go_andThen]
  rcases groupOf_spec { s with
      cr := x, dr := p, ar := if isIndirect x.vt then x else s.ar, tick := s.tick + fetchTicks x.vt,
      trace := s.trace ++ l } with ⟨z, l', hz, hl', e'⟩ | ⟨hn, e'⟩
  · obtain rfl : y = z := by
      have hz : memRead s p.value = some z := hz
      rw [hy] at hz; exact Option.some.inj hz
    refine ⟨l ++ l', by simp [hl, hl'], ?_⟩
    rw [e']; simp [Nat.add_assoc]
  · have hn : inRange s p.value = false := hn
    exact absurd hn (by simp [((memRead_eq_some s _ _).mp hy).1])

/-- The prefix faults at the operand fetch where the effective address does not exist: `AR` holds it, `DR` still the cell
that named it. -/
theorem addressPrefix_outOfRange (s : State) (x p : Cell) (h : resolvedCell s x = some p)
    (hy : inRange s p.value = false) :
    ∃ l, l.length = fetchTicks x.vt ∧
      addressPrefix x.vt (s.present x) =
        .stop { s with cr := x, ar := p, dr := p, tick := s.tick + fetchTicks x.vt, trace := s.trace ++ l,
                       status := .fatal .addressOutOfRange } := by
  obtain ⟨l, hl, e⟩ := addressFetch_spec s x p h
  refine ⟨l, hl, ?_⟩
  unfold addressPrefix
  rw [e, go_andThen]
  rcases groupOf_spec { s with
      cr := x, dr := p, ar := if isIndirect x.vt then x else s.ar, tick := s.tick + fetchTicks x.vt,
      trace := s.trace ++ l } with ⟨z, l', hz, -, -⟩ | ⟨-, e'⟩
  · have hz : memRead s p.value = some z := hz
    exact absurd hy (by simp [((memRead_eq_some s _ _).mp hz).1])
  · rw [e']

/-! ### The trace grows by one line for each tick -/

/-- `b` is `a` with `n` more lines. -/
def Grows (n : Nat) (a b : List TraceLine) : Prop := ∃ d, d.length = n ∧ b = a ++ d

theorem Grows.refl (a : List TraceLine) : Grows 0 a a := ⟨[], rfl, by simp⟩

theorem Grows.snoc {n : Nat} {a b : List TraceLine} (h : Grows n a b) (x : TraceLine) :
    Grows (n + 1) a (b ++ [x]) := by
  obtain ⟨d, hd, rfl⟩ := h
  exact ⟨d ++ [x], by simp [hd], by simp⟩

theorem Grows.trans {m n : Nat} {a b c : List TraceLine} (h : Grows m a b) (k : Grows n b c) : Grows (m + n) a c := by
  obtain ⟨d, hd, rfl⟩ := h
  obtain ⟨e, he, rfl⟩ := k
  exact ⟨d ++ e, by simp [hd, he], by simp⟩

/-! ### The fetch unit -/

/-- The state after `F1` and the increment of `F2`. -/
def fetchReady (s : State) : State :=
  ((s.setReg .ar s.ip).endTick .f1).setReg .ip (alu s.cfg .add s.ip (Cell.const 1)).res

theorem fetchReady_eq (s : State) :
    fetchReady s =
      { s with ar := s.ip, ip := (alu s.cfg .add s.ip (Cell.const 1)).res, tick := s.tick + 1,
               trace := (fetchReady s).trace } := by
  apply State.ext <;> simp [fetchReady]

theorem fetchReady_trace (s : State) : Grows 1 s.trace (fetchReady s).trace := by
  simp only [fetchReady, endTick_trace, setReg_trace]
  exact (Grows.refl _).snoc _

/-- A fetch is the read of `F2` from there, and `F3`. -/
theorem fetch_eq (s : State) : fetch s = ((memToDr (fetchReady s)).andThen (tickGo .f2)).andThen groupF3 := by
  simp [fetch, groupF1, groupF2, fetchReady]

/-- Everything the fetch can do. -/
theorem fetch_spec (s : State) :
    (∃ x tr, memRead s s.ip.value = some x ∧ Grows 3 s.trace tr ∧
      fetch s = .go { s with ar := s.ip, ip := (alu s.cfg .add s.ip (Cell.const 1)).res, dr := x, cr := x,
                             tick := s.tick + 3, trace := tr }) ∨
    (∃ tr, inRange s s.ip.value = false ∧ Grows 1 s.trace tr ∧
      fetch s = .stop { s with ar := s.ip, ip := (alu s.cfg .add s.ip (Cell.const 1)).res, tick := s.tick + 1,
                               trace := tr, status := .fatal .addressOutOfRange }) := by
  have hg := fetchReady_trace s
  rw [fetch_eq, fetchReady_eq]
  generalize (fetchReady s).trace = tr at hg
  rcases memToDr_spec { s with
      ar := s.ip, ip := (alu s.cfg .add s.ip (Cell.const 1)).res, tick := s.tick + 1, trace := tr }
    with ⟨x, hx, e⟩ | ⟨h, e⟩
  · exact .inl ⟨x, _, hx, (hg.snoc (.tuple (traceTuple .f2 _))).snoc (.tuple (traceTuple .f3 _)), by rw [e]; rfl⟩
  · exact .inr ⟨_, h, hg, by rw [e]; rfl⟩

/-! ### The stack protocol -/

/-- The state after the first three ticks of a push: `top` is the new stack pointer. -/
def pushReady (r : Reg) (g1 g2 g3 : TickGroup) (top : Cell) (s : State) : State :=
  (((((s.setReg .sp top).endTick g1).setReg .ar top).endTick g2).setReg .dr (s.reg r)).endTick g3

theorem pushReady_eq (r : Reg) (g1 g2 g3 : TickGroup) (top : Cell) (s : State) :
    pushReady r g1 g2 g3 top s =
      { s with sp := top, ar := top, dr := s.reg r, tick := s.tick + 3,
               trace := (pushReady r g1 g2 g3 top s).trace } := by
  apply State.ext <;> simp [pushReady]

theorem pushReady_trace (r : Reg) (g1 g2 g3 : TickGroup) (top : Cell) (s : State) :
    Grows 3 s.trace (pushReady r g1 g2 g3 top s).trace := by
  simp only [pushReady, endTick_trace, setReg_trace]
  exact (((Grows.refl _).snoc _).snoc _).snoc _

/-- A push is those three ticks and then the store. -/
theorem push_eq (r : Reg) (g1 g2 g3 g4 : TickGroup) (s : State) (h1 : r ≠ .sp) (h2 : r ≠ .ar) :
    push r g1 g2 g3 g4 s =
      drToMemTick g4 (pushReady r g1 g2 g3 (alu s.cfg .sub s.sp (Cell.const 1)).res s) := by
  have hr : ∀ x : Cell, ((((s.setReg .sp x).endTick g1).setReg .ar x).endTick g2).reg r = s.reg r := fun x => by
    rw [endTick_reg, setReg_reg_other _ _ _ _ h2, endTick_reg, setReg_reg_other _ _ _ _ h1]
  simp only [push, spDown, spToAr, regToDr, tickGo_eq, go_andThen, pushReady, latch_eq, aluLatch_eq, reg_sp,
    endTick_sp, setReg_sp_sp, hr]

/-- Everything `push(R)` of a register the sequence does not write itself can do (42_addressless.md R92). -/
theorem push_spec (r : Reg) (g1 g2 g3 g4 : TickGroup) (s : State) (h1 : r ≠ .sp) (h2 : r ≠ .ar) (top : Cell)
    (ht : top = (alu s.cfg .sub s.sp (Cell.const 1)).res) :
    (∃ tr, inRange s top.value = true ∧ Grows 4 s.trace tr ∧
      push r g1 g2 g3 g4 s =
        .go { s with sp := top, ar := top, dr := s.reg r, mem := Memory.write s.mem top.value.toNat (s.reg r),
                     tick := s.tick + 4, trace := tr }) ∨
    (∃ tr, inRange s top.value = false ∧ Grows 3 s.trace tr ∧
      push r g1 g2 g3 g4 s =
        .stop { s with sp := top, ar := top, dr := s.reg r, tick := s.tick + 3, trace := tr,
                       status := .fatal .addressOutOfRange }) := by
  have hg := pushReady_trace r g1 g2 g3 top s
  rw [push_eq r g1 g2 g3 g4 s h1 h2, ← ht, pushReady_eq]
  generalize (pushReady r g1 g2 g3 top s).trace = tr at hg
  unfold drToMemTick
  rcases drToMem_spec { s with sp := top, ar := top, dr := s.reg r, tick := s.tick + 3, trace := tr }
    with ⟨h, e⟩ | ⟨h, e⟩
  · exact .inl ⟨_, h, hg.snoc _, by rw [e]; rfl⟩
  · exact .inr ⟨_, h, hg, by rw [e]; rfl⟩

/-- The state after the second tick of a pop that read `x`. -/
def popReady (g1 g2 : TickGroup) (x : Cell) (s : State) : State :=
  ((((s.setReg .ar s.sp).endTick g1).setReg .dr x).setReg .sp (alu s.cfg .add s.sp (Cell.const 1)).res).endTick g2

theorem popReady_eq (g1 g2 : TickGroup) (x : Cell) (s : State) :
    popReady g1 g2 x s =
      { s with ar := s.sp, dr := x, sp := (alu s.cfg .add s.sp (Cell.const 1)).res, tick := s.tick + 2,
               trace := (popReady g1 g2 x s).trace } := by
  apply State.ext <;> simp [popReady]

theorem popReady_trace (g1 g2 : TickGroup) (x : Cell) (s : State) :
    Grows 2 s.trace (popReady g1 g2 x s).trace := by
  simp only [popReady, endTick_trace, setReg_trace]
  exact ((Grows.refl _).snoc _).snoc _

/-- Everything `pop(R)` can do (42_addressless.md R93). -/
theorem pop_spec (r : Reg) (g1 g2 g3 : TickGroup) (s : State) :
    (∃ x tr, memRead s s.sp.value = some x ∧ Grows 3 s.trace tr ∧
      pop r g1 g2 g3 s =
        .go ({ s with ar := s.sp, dr := x, sp := (alu s.cfg .add s.sp (Cell.const 1)).res, tick := s.tick + 3,
                      trace := tr }.setReg r x)) ∨
    (∃ tr, inRange s s.sp.value = false ∧ Grows 1 s.trace tr ∧
      pop r g1 g2 g3 s =
        .stop { s with ar := s.sp, tick := s.tick + 1, trace := tr, status := .fatal .addressOutOfRange }) := by
  rcases memToDr_spec ((s.setReg .ar s.sp).endTick g1) with ⟨x, hx, e⟩ | ⟨h, e⟩
  · have hg := popReady_trace g1 g2 x s
    have hp : pop r g1 g2 g3 s = .go (((popReady g1 g2 x s).setReg r x).endTick g3) := by
      simp [pop, spToAr, popRead, drToReg, popReady, e]
    rw [popReady_eq] at hp
    generalize (popReady g1 g2 x s).trace = tr at hg hp
    refine .inl ⟨x, tr ++ [.tuple (traceTuple g3 ({ s with
      ar := s.sp, dr := x, sp := (alu s.cfg .add s.sp (Cell.const 1)).res, tick := s.tick + 2,
      trace := tr }.setReg r x).advance)], by simpa using hx, hg.snoc _, hp.trans ?_⟩
    cases r <;> rfl
  · refine .inr ⟨s.trace ++ [.tuple (traceTuple g1 (s.setReg .ar s.sp).advance)], by simpa using h,
      (Grows.refl _).snoc _, ?_⟩
    simp only [pop, spToAr, popRead, tickGo_eq, go_andThen, latch_eq, reg_sp, e, stop_andThen]
    rfl

end Sys2Proof.Machine
end

