-- ==== Sys2Proof/Laws/Interrupt.lean ====
section
/-! SUPPORT. Everything the taking of an interrupt and the return from one can do (60_exceptions.md R128, R130). -/

namespace Sys2Proof.Machine

/-- `PS` after `IE1`: `EI` cleared. -/
def entryPs (s : State) : Cell := (alu s.cfg .and s.ps diMask).res

/-- `SP` after the first push of an entry. -/
def entrySp1 (s : State) : Cell := (alu s.cfg .sub s.sp (Cell.const 1)).res

/-- `SP` after the second push of an entry. -/
def entrySp2 (s : State) : Cell := (alu s.cfg .sub (entrySp1 s) (Cell.const 1)).res

/-- Memory after the two pushes of an entry: `IP` and below it `PS`. -/
def entryMem (s : State) : Memory :=
  Memory.write (Memory.write s.mem (entrySp1 s).value.toNat s.ip) (entrySp2 s).value.toNat (entryPs s)

theorem interruptEntry_nest (s : State) (h : nestExceeded s = true) :
    interruptEntry s = .stop (s.withStatus (.fatal .nestDepthExceeded)) := by simp [interruptEntry, h]

/-- `IE1` as a state. -/
theorem groupIe1_eq (s : State) :
    ∃ tr, Grows 1 s.trace tr ∧
      groupIe1 s = .go { s with ps := entryPs s, tick := s.tick + 1, trace := tr } :=
  ⟨_, (Grows.refl _).snoc _, rfl⟩

/-- `IE1` and the push of `IP`. -/
theorem entryFirst_spec (s : State) :
    (∃ tr, inRange s (entrySp1 s).value = true ∧ Grows 5 s.trace tr ∧
      (groupIe1 s).andThen (push .ip .ie2 .ie3 .ie4 .ie5) =
        .go { s with ps := entryPs s, sp := entrySp1 s, ar := entrySp1 s, dr := s.ip,
                     mem := Memory.write s.mem (entrySp1 s).value.toNat s.ip, tick := s.tick + 5, trace := tr }) ∨
    (∃ tr, inRange s (entrySp1 s).value = false ∧ Grows 4 s.trace tr ∧
      (groupIe1 s).andThen (push .ip .ie2 .ie3 .ie4 .ie5) =
        .stop { s with ps := entryPs s, sp := entrySp1 s, ar := entrySp1 s, dr := s.ip, tick := s.tick + 4,
                       trace := tr, status := .fatal .addressOutOfRange }) := by
  obtain ⟨t1, g1, e1⟩ := groupIe1_eq s
  rw [e1, go_andThen]
  rcases push_spec .ip .ie2 .ie3 .ie4 .ie5 { s with ps := entryPs s, tick := s.tick + 1, trace := t1 }
      (by simp) (by simp) (entrySp1 s) rfl with ⟨t2, h, g2, e2⟩ | ⟨t2, h, g2, e2⟩
  · exact .inl ⟨t2, h, g1.trans g2, e2⟩
  · exact .inr ⟨t2, h, g1.trans g2, e2⟩

/-- `IE1` and both pushes. -/
theorem entryPushes_spec (s : State) (h1 : inRange s (entrySp1 s).value = true) :
    (∃ tr, inRange s (entrySp2 s).value = true ∧ Grows 9 s.trace tr ∧
      ((groupIe1 s).andThen (push .ip .ie2 .ie3 .ie4 .ie5)).andThen (push .ps .ie6 .ie7 .ie8 .ie9) =
        .go { s with ps := entryPs s, sp := entrySp2 s, ar := entrySp2 s, dr := entryPs s, mem := entryMem s,
                     tick := s.tick + 9, trace := tr }) ∨
    (∃ tr, inRange s (entrySp2 s).value = false ∧ Grows 8 s.trace tr ∧
      ((groupIe1 s).andThen (push .ip .ie2 .ie3 .ie4 .ie5)).andThen (push .ps .ie6 .ie7 .ie8 .ie9) =
        .stop { s with ps := entryPs s, sp := entrySp2 s, ar := entrySp2 s, dr := entryPs s,
                       mem := Memory.write s.mem (entrySp1 s).value.toNat s.ip, tick := s.tick + 8, trace := tr,
                       status := .fatal .addressOutOfRange }) := by
  rcases entryFirst_spec s with ⟨t1, -, g1, e1⟩ | ⟨t1, h, -, -⟩
  · rw [e1, go_andThen]
    rcases push_spec .ps .ie6 .ie7 .ie8 .ie9 { s with
        ps := entryPs s, sp := entrySp1 s, ar := entrySp1 s, dr := s.ip,
        mem := Memory.write s.mem (entrySp1 s).value.toNat s.ip, tick := s.tick + 5, trace := t1 }
        (by simp) (by simp) (entrySp2 s) rfl with ⟨t2, h, g2, e2⟩ | ⟨t2, h, g2, e2⟩
    · exact .inl ⟨t2, h, g1.trans g2, e2⟩
    · exact .inr ⟨t2, h, g1.trans g2, e2⟩
  · rw [h1] at h; cases h

/-- An entry whose first push has no room. -/
theorem interruptEntry_noRoom1 (s : State) (hn : nestExceeded s = false) (h : inRange s (entrySp1 s).value = false) :
    ∃ tr, Grows 4 s.trace tr ∧
      interruptEntry s =
        .stop { s with ps := entryPs s, sp := entrySp1 s, ar := entrySp1 s, dr := s.ip, tick := s.tick + 4,
                       trace := tr, status := .fatal .addressOutOfRange } := by
  rcases entryFirst_spec s with ⟨t1, h1, -, -⟩ | ⟨t1, -, g1, e1⟩
  · rw [h] at h1; cases h1
  · exact ⟨t1, g1, by simp [interruptEntry, hn, e1]⟩

/-- An entry whose second push has no room. -/
theorem interruptEntry_noRoom2 (s : State) (hn : nestExceeded s = false) (h1 : inRange s (entrySp1 s).value = true)
    (h2 : inRange s (entrySp2 s).value = false) :
    ∃ tr, Grows 8 s.trace tr ∧
      interruptEntry s =
        .stop { s with ps := entryPs s, sp := entrySp2 s, ar := entrySp2 s, dr := entryPs s,
                       mem := Memory.write s.mem (entrySp1 s).value.toNat s.ip, tick := s.tick + 8, trace := tr,
                       status := .fatal .addressOutOfRange } := by
  rcases entryPushes_spec s h1 with ⟨t1, h, -, -⟩ | ⟨t1, -, g1, e1⟩
  · rw [h2] at h; cases h
  · exact ⟨t1, g1, by simp [interruptEntry, hn, e1]⟩

/-- The state after `IE11`, from a state in which both pushes are made and `v` is read. -/
def vectorReady (v : Cell) (s : State) : State :=
  (((s.setReg .ar (Cell.const s.cfg.intVector)).endTick .ie10).setReg .dr v).endTick .ie11

theorem vectorReady_eq (v : Cell) (s : State) :
    vectorReady v s =
      { s with ar := Cell.const s.cfg.intVector, dr := v, tick := s.tick + 2, trace := (vectorReady v s).trace } := by
  apply State.ext <;> simp [vectorReady]

theorem vectorReady_trace (v : Cell) (s : State) : Grows 2 s.trace (vectorReady v s).trace := by
  simp only [vectorReady, endTick_trace, setReg_trace]
  exact ((Grows.refl _).snoc _).snoc _

/-- `IE10` to `IE12` and the depth, where the vector cell exists. -/
theorem entryVector_eq (s : State) (v : Cell) (h : memRead s s.cfg.intVector = some v) :
    ∃ tr, Grows 3 s.trace tr ∧
      (((groupIe10 s).andThen groupIe11).andThen groupIe12).andThen (fun t => .go t.enterHandler) =
        .go { s with ar := Cell.const s.cfg.intVector, dr := v, ip := v, tick := s.tick + 3,
                     depth := s.depth + 1, trace := tr } := by
  have hm : memToDr ((s.setReg .ar (Cell.const s.cfg.intVector)).endTick .ie10) =
      .go (((s.setReg .ar (Cell.const s.cfg.intVector)).endTick .ie10).setReg .dr v) := by
    rcases memToDr_spec ((s.setReg .ar (Cell.const s.cfg.intVector)).endTick .ie10) with ⟨x, hx, e⟩ | ⟨hn, -⟩
    · have hx : memRead s s.cfg.intVector = some x := by simpa [Cell.const] using hx
      rw [h] at hx
      rw [e, Option.some.inj hx]
    · have hn : inRange s s.cfg.intVector = false := by simpa [Cell.const] using hn
      rw [((memRead_eq_some s _ _).mp h).1] at hn; cases hn
  have hg := vectorReady_trace v s
  have hr : (((groupIe10 s).andThen groupIe11).andThen groupIe12).andThen (fun t => .go t.enterHandler) =
      .go (((vectorReady v s).setReg .ip (vectorReady v s).dr).endTick .ie12).enterHandler := by
    simp [groupIe10, groupIe11, groupIe12, hm, vectorReady]
  rw [vectorReady_eq] at hr
  generalize (vectorReady v s).trace = tr at hg hr
  exact ⟨_, hg.snoc _, hr⟩

/-- A completed entry. The vector cell is read after the pushes. -/
theorem interruptEntry_go (s : State) (hn : nestExceeded s = false) (h1 : inRange s (entrySp1 s).value = true)
    (h2 : inRange s (entrySp2 s).value = true) (hv : inRange s s.cfg.intVector = true) (v : Cell)
    (ev : v = Memory.read (entryMem s) s.cfg.intVector) :
    ∃ tr, Grows 12 s.trace tr ∧
      interruptEntry s =
        .go { s with ps := entryPs s, sp := entrySp2 s, ar := Cell.const s.cfg.intVector, dr := v, ip := v,
                     mem := entryMem s, tick := s.tick + 12, depth := s.depth + 1, trace := tr } := by
  rcases entryPushes_spec s h1 with ⟨t1, -, g1, e1⟩ | ⟨t1, h, -, -⟩
  · obtain ⟨t2, g2, e2⟩ := entryVector_eq { s with
      ps := entryPs s, sp := entrySp2 s, ar := entrySp2 s, dr := entryPs s, mem := entryMem s,
      tick := s.tick + 9, trace := t1 } v ((memRead_eq_some _ _ _).mpr ⟨hv, ev⟩)
    refine ⟨t2, g1.trans g2, ?_⟩
    rw [← e2]
    simp only [interruptEntry, hn, e1, go_andThen, andThen_assoc]
    rfl
  · rw [h2] at h; cases h

/-- An entry whose vector cell does not exist (no legal configuration has one): stopped at `IE11`. -/
theorem interruptEntry_noVector (s : State) (hn : nestExceeded s = false) (h1 : inRange s (entrySp1 s).value = true)
    (h2 : inRange s (entrySp2 s).value = true) (hv : inRange s s.cfg.intVector = false) :
    ∃ tr, Grows 10 s.trace tr ∧
      interruptEntry s =
        .stop { s with ps := entryPs s, sp := entrySp2 s, ar := Cell.const s.cfg.intVector, dr := entryPs s,
                       mem := entryMem s, tick := s.tick + 10, trace := tr, status := .fatal .addressOutOfRange } := by
  rcases entryPushes_spec s h1 with ⟨t1, -, g1, e1⟩ | ⟨t1, h, -, -⟩
  · refine ⟨t1 ++ [.tuple (traceTuple .ie10 { s with
      ps := entryPs s, sp := entrySp2 s, ar := Cell.const s.cfg.intVector, dr := entryPs s, mem := entryMem s,
      tick := s.tick + 10, trace := t1 })], g1.snoc _, ?_⟩
    simp only [interruptEntry, hn, e1, go_andThen, groupIe10, tickGo_eq, groupIe11]
    rcases memToDr_spec (({ s with
        ps := entryPs s, sp := entrySp2 s, ar := entrySp2 s, dr := entryPs s, mem := entryMem s, tick := s.tick + 9,
        trace := t1 } : State).setReg .ar (Cell.const s.cfg.intVector) |>.endTick .ie10) with ⟨x, hx, -⟩ | ⟨-, e⟩
    · have hx : inRange s s.cfg.intVector = true := ((memRead_eq_some _ _ _).mp hx).1
      rw [hv] at hx; cases hx
    · rw [e]; rfl
  · rw [h2] at h; cases h

/-- `SP` after the first pop of an exit. -/
def exitSp1 (s : State) : Cell := (alu s.cfg .add s.sp (Cell.const 1)).res

/-- `SP` after the second pop of an exit. -/
def exitSp2 (s : State) : Cell := (alu s.cfg .add (exitSp1 s) (Cell.const 1)).res

/-- The two pops of an exit: `p` and `i` are the two cells on top of the stack. -/
theorem exitPops_eq (s : State) (p i : Cell) (hp : memRead s s.sp.value = some p)
    (hi : memRead s (exitSp1 s).value = some i) :
    ∃ tr, Grows 6 s.trace tr ∧
      (pop .ps .ix1 .ix2 .ix3 s).andThen (pop .ip .ix4 .ix5 .ix6) =
        .go { s with ps := p, ip := i, sp := exitSp2 s, ar := exitSp1 s, dr := i, tick := s.tick + 6, trace := tr } := by
  rcases pop_spec .ps .ix1 .ix2 .ix3 s with ⟨x, t1, hx, g1, e1⟩ | ⟨t1, h, -, -⟩
  · obtain rfl : p = x := by rw [hp] at hx; exact Option.some.inj hx
    rw [e1, go_andThen]
    rcases pop_spec .ip .ix4 .ix5 .ix6 ({ s with
        ar := s.sp, dr := p, sp := exitSp1 s, tick := s.tick + 3, trace := t1 }.setReg .ps p)
      with ⟨y, t2, hy, g2, e2⟩ | ⟨t2, h, -, -⟩
    · obtain rfl : i = y := by
        have hy : memRead s (exitSp1 s).value = some y := hy
        rw [hi] at hy; exact Option.some.inj hy
      exact ⟨t2, g1.trans g2, e2⟩
    · have h : inRange s (exitSp1 s).value = false := h
      rw [((memRead_eq_some s _ _).mp hi).1] at h; cases h
  · rw [((memRead_eq_some s _ _).mp hp).1] at h; cases h

/-- A completed exit: `p` and `i` are the two cells on top of the stack. -/
theorem interruptExit_go (s : State) (p i : Cell) (hp : memRead s s.sp.value = some p)
    (hi : memRead s (exitSp1 s).value = some i) :
    ∃ tr, Grows 7 s.trace tr ∧
      interruptExit s =
        .go { s with ps := (alu s.cfg .or p eiMask).res, ip := i, sp := exitSp2 s, ar := exitSp1 s, dr := i,
                     tick := s.tick + 7, depth := s.depth - 1, trace := tr } := by
  obtain ⟨t1, g1, e1⟩ := exitPops_eq s p i hp hi
  refine ⟨t1 ++ [.tuple (traceTuple .ix7 { s with
      ps := (alu s.cfg .or p eiMask).res, ip := i, sp := exitSp2 s, ar := exitSp1 s, dr := i, tick := s.tick + 7,
      trace := t1 })], g1.snoc _, ?_⟩
  rw [interruptExit, e1]
  rfl

/-- An exit whose second pop finds no cell: `PS` has already been restored (60_exceptions.md R124). -/
theorem interruptExit_short (s : State) (p : Cell) (hp : memRead s s.sp.value = some p)
    (hi : inRange s (exitSp1 s).value = false) :
    ∃ tr, Grows 4 s.trace tr ∧
      interruptExit s =
        .stop { s with ps := p, sp := exitSp1 s, ar := exitSp1 s, dr := p, tick := s.tick + 4, trace := tr,
                       status := .fatal .addressOutOfRange } := by
  rcases pop_spec .ps .ix1 .ix2 .ix3 s with ⟨x, t1, hx, g1, e1⟩ | ⟨t1, h, -, -⟩
  · obtain rfl : p = x := by rw [hp] at hx; exact Option.some.inj hx
    rcases pop_spec .ip .ix4 .ix5 .ix6 ({ s with
        ar := s.sp, dr := p, sp := exitSp1 s, tick := s.tick + 3, trace := t1 }.setReg .ps p)
      with ⟨y, t2, hy, -, -⟩ | ⟨t2, -, g2, e2⟩
    · have hy : memRead s (exitSp1 s).value = some y := hy
      rw [((memRead_eq_some s _ _).mp hy).1] at hi; cases hi
    · refine ⟨t2, g1.trans g2, ?_⟩
      rw [interruptExit, e1, go_andThen]
      simp only [exitSp1] at e2
      rw [e2]; rfl
  · rw [((memRead_eq_some s _ _).mp hp).1] at h; cases h

/-- An exit on an empty stack. -/
theorem interruptExit_empty (s : State) (h : inRange s s.sp.value = false) :
    ∃ tr, Grows 1 s.trace tr ∧
      interruptExit s =
        .stop { s with ar := s.sp, tick := s.tick + 1, trace := tr, status := .fatal .addressOutOfRange } := by
  rcases pop_spec .ps .ix1 .ix2 .ix3 s with ⟨x, t1, hx, -, -⟩ | ⟨t1, -, g1, e1⟩
  · rw [((memRead_eq_some s _ _).mp hx).1] at h; cases h
  · exact ⟨t1, g1, by simp [interruptExit, e1]⟩

end Sys2Proof.Machine
end

