-- ==== Sys2Proof/Laws/PerInstr.lean ====
section
/-! SUPPORT. The family `CellRoundTrip`: for each instruction, the cell it is decodes to it again. -/

namespace Sys2Proof.Laws

/-- The decoder reads from an instruction's cell that instruction, with both operand fields, in every configuration where
it is well formed (30_encoding.md R42, R44, R49). -/
def CellRoundTrip.Statement (i : Instr) : Prop := ∀ c : Config, i.wf c = true → instrOfCell c i.cell = .ok i

theorem CellRoundTrip.nop (t : ValueType) (v : Word) : CellRoundTrip.Statement (.nop t v) := fun _ _ => rfl

theorem CellRoundTrip.hlt (t : ValueType) (v : Word) : CellRoundTrip.Statement (.hlt t v) := fun _ _ => rfl

theorem CellRoundTrip.iret (t : ValueType) (v : Word) : CellRoundTrip.Statement (.iret t v) := fun _ _ => rfl

theorem CellRoundTrip.push (t : ValueType) (v : Word) : CellRoundTrip.Statement (.push t v) := fun _ _ => rfl

theorem CellRoundTrip.pop (t : ValueType) (v : Word) : CellRoundTrip.Statement (.pop t v) := fun _ _ => rfl

theorem CellRoundTrip.ei (t : ValueType) (v : Word) : CellRoundTrip.Statement (.ei t v) := fun _ _ => rfl

theorem CellRoundTrip.di (t : ValueType) (v : Word) : CellRoundTrip.Statement (.di t v) := fun _ _ => rfl

theorem CellRoundTrip.cla (t : ValueType) (v : Word) : CellRoundTrip.Statement (.cla t v) := fun _ _ => rfl

theorem CellRoundTrip.inc (t : ValueType) (v : Word) : CellRoundTrip.Statement (.inc t v) := fun _ _ => rfl

theorem CellRoundTrip.dec (t : ValueType) (v : Word) : CellRoundTrip.Statement (.dec t v) := fun _ _ => rfl

theorem CellRoundTrip.ld (t : ValueType) (v : Word) : CellRoundTrip.Statement (.ld t v) := fun _ _ => rfl

theorem CellRoundTrip.st (t : ValueType) (v : Word) : CellRoundTrip.Statement (.st t v) := fun _ _ => rfl

theorem CellRoundTrip.cmp (t : ValueType) (v : Word) : CellRoundTrip.Statement (.cmp t v) := fun _ _ => rfl

theorem CellRoundTrip.add (t : ValueType) (v : Word) : CellRoundTrip.Statement (.add t v) := fun _ _ => rfl

theorem CellRoundTrip.sub (t : ValueType) (v : Word) : CellRoundTrip.Statement (.sub t v) := fun _ _ => rfl

theorem CellRoundTrip.mul (t : ValueType) (v : Word) : CellRoundTrip.Statement (.mul t v) := fun _ _ => rfl

theorem CellRoundTrip.div (t : ValueType) (v : Word) : CellRoundTrip.Statement (.div t v) := by
  intro c h
  have hd : c.hasDiv = true := by simpa [Instr.wf, Instr.cell] using (Bool.and_eq_true _ _ ▸ h : _ ∧ _).2
  simp [Instr.cell, instrOfCell, hd]

theorem CellRoundTrip.mod (t : ValueType) (v : Word) : CellRoundTrip.Statement (.mod t v) := fun _ _ => rfl

theorem CellRoundTrip.or (t : ValueType) (v : Word) : CellRoundTrip.Statement (.or t v) := fun _ _ => rfl

theorem CellRoundTrip.and (t : ValueType) (v : Word) : CellRoundTrip.Statement (.and t v) := fun _ _ => rfl

theorem CellRoundTrip.jc (t : ValueType) (v : Word) : CellRoundTrip.Statement (.jc t v) := fun _ _ => rfl

theorem CellRoundTrip.jnc (t : ValueType) (v : Word) : CellRoundTrip.Statement (.jnc t v) := fun _ _ => rfl

theorem CellRoundTrip.jn (t : ValueType) (v : Word) : CellRoundTrip.Statement (.jn t v) := fun _ _ => rfl

theorem CellRoundTrip.jnn (t : ValueType) (v : Word) : CellRoundTrip.Statement (.jnn t v) := fun _ _ => rfl

theorem CellRoundTrip.jz (t : ValueType) (v : Word) : CellRoundTrip.Statement (.jz t v) := fun _ _ => rfl

theorem CellRoundTrip.jnz (t : ValueType) (v : Word) : CellRoundTrip.Statement (.jnz t v) := fun _ _ => rfl

theorem CellRoundTrip.jmp (t : ValueType) (v : Word) : CellRoundTrip.Statement (.jmp t v) := fun _ _ => rfl

theorem CellRoundTrip.inp (t : ValueType) (v : Word) : CellRoundTrip.Statement (.inp t v) := fun _ _ => rfl

theorem CellRoundTrip.out (t : ValueType) (v : Word) : CellRoundTrip.Statement (.out t v) := fun _ _ => rfl

end Sys2Proof.Laws
end

