-- ==== Sys2Proof/Laws/Signals.lean ====
section
/-! SUPPORT. What one step of the machine can do, said once: `step_signals` takes every step apart into signals, so that an
invariant is shown signal by signal and no proof unfolds the instructions. -/

namespace Sys2Proof.Machine

open Relation (ReflTransGen)

/-- One signal of the datapath, the ALU, the ports or the clock, with the opcode in `CR` where only one instruction issues
it. None of them moves `cfg`, `CR`, `ICOUNT`, `DEPTH` or `STATUS`. -/
inductive Data : State → State → Prop where
  | latch (s : State) (dst src : Reg) (h : dst ≠ .cr) : Data s (s.setReg dst (s.reg src))
  | alu (s : State) (r : Reg) (op : AluOp) (l right : Cell) (h : r ≠ .cr) : Data s (s.setReg r (alu s.cfg op l right).res)
  | flags (s : State) (op : AluOp) (l r : Cell) : Data s (s.mergeAlu (Machine.alu s.cfg op l r))
  | read (s : State) (x : Cell) (h : memRead s s.ar.value = some x) : Data s (s.setReg .dr x)
  | store (s : State) (h : inRange s s.ar.value = true) : Data s (s.storeCell s.ar.value s.dr)
  | vector (s : State) : Data s (s.setReg .ar (Cell.const s.cfg.intVector))
  | input (s : State) (e : InputEvent) (rest : List InputEvent) (h : s.inq = e :: rest) (ha : e.arrivesAt ≤ s.tick)
      (hc : s.cr.op = .inp) : Data s ({ s with inq := rest }.setReg .ac ⟨.nop, e.char, .char⟩)
  | output (s : State) (hc : s.cr.op = .out) : Data s (s.write (outputBytes s.ac))
  | tick (s : State) (g : TickGroup) : Data s (s.endTick g)

/-- How a sequence of signals stops, with what each reason needs (60_exceptions.md R121, R123). -/
inductive Stops (s : State) : Status → Prop where
  | halt (h : s.depth = 0) (hc : s.cr.op = .hlt) : Stops s .halt
  | interruptReturn (h : s.depth = 0) (hc : s.cr.op = .iret) : Stops s .interruptReturn
  | nestedHalt (h : s.depth ≠ 0) (hc : s.cr.op = .hlt) : Stops s (.fatal .nestedHalt)
  | address (h : inRange s s.ar.value = false) : Stops s (.fatal .addressOutOfRange)
  | divide (h : s.dr.value = 0) (hc : s.cr.op = .div ∨ s.cr.op = .mod) : Stops s (.fatal .divideByZero)
  | input (h : inputReady s = false) (hc : s.cr.op = .inp) : Stops s (.fatal .inputUnderrun)

/-- One signal of the whole machine: a datapath signal, the latch of `CR`, a step of a counter, the end of a trace block,
or a stop. -/
inductive Signal : State → State → Prop where
  | data {s t : State} (h : Data s t) : Signal s t
  | loadCr (s : State) : Signal s (s.setReg .cr s.dr)
  | count (s : State) (h : limitReached s = false) : Signal s s.countInstruction
  | enter (s : State) (h : nestExceeded s = false) : Signal s s.enterHandler
  | leave (s : State) (h : s.depth ≠ 0) (hc : s.cr.op = .iret) : Signal s s.leaveHandler
  | block (s : State) : Signal s s.endBlock
  | stop (s : State) (st : Status) (h : Stops s st) : Signal s (s.withStatus st)
  | limit (s : State) (h : limitReached s = true) : Signal s (s.withStatus (.fatal .instructionLimitExceeded))
  | nest (s : State) (h : nestExceeded s = true) : Signal s (s.withStatus (.fatal .nestDepthExceeded))
  | opcode (s : State) (h : instrOfCell s.cfg s.cr = .error .reservedOpcode) :
      Signal s (s.withStatus (.fatal .unknownOpcode))

theorem Data.cfg_eq {s t : State} (h : Data s t) : t.cfg = s.cfg := by cases h <;> simp
theorem Data.icount_eq {s t : State} (h : Data s t) : t.icount = s.icount := by cases h <;> simp
theorem Data.depth_eq {s t : State} (h : Data s t) : t.depth = s.depth := by cases h <;> simp
theorem Data.status_eq {s t : State} (h : Data s t) : t.status = s.status := by cases h <;> simp

theorem Data.cr_eq {s t : State} (h : Data s t) : t.cr = s.cr := by
  cases h with
  | latch dst src h => cases dst <;> first | exact absurd rfl h | rfl
  | alu r op l right h => cases r <;> first | exact absurd rfl h | rfl
  | _ => simp

/-- The fields no datapath signal moves stay over any number of them. -/
theorem data_frame {s t : State} (h : ReflTransGen Data s t) :
    t.cfg = s.cfg ∧ t.icount = s.icount ∧ t.depth = s.depth ∧ t.status = s.status ∧ t.cr = s.cr := by
  induction h with
  | refl => exact ⟨rfl, rfl, rfl, rfl, rfl⟩
  | tail _ h ih => exact ⟨h.cfg_eq.trans ih.1, h.icount_eq.trans ih.2.1, h.depth_eq.trans ih.2.2.1,
      h.status_eq.trans ih.2.2.2.1, h.cr_eq.trans ih.2.2.2.2⟩

/-- A sequence that is datapath signals, and at most a stop at their end. -/
def Flow.Data (s : State) : Flow → Prop
  | .go t => ReflTransGen Machine.Data s t
  | .stop t => ∃ u st, ReflTransGen Machine.Data s u ∧ Stops u st ∧ t = u.withStatus st

theorem Flow.Data.go {s t : State} (h : ReflTransGen Machine.Data s t) : (Flow.go t).Data s := h

theorem Flow.Data.andThen {s : State} {x : Flow} {f : State → Flow} (hx : x.Data s)
    (hf : ∀ t, t.cr = s.cr → (f t).Data t) : (x.andThen f).Data s := by
  cases x with
  | stop t => exact hx
  | go t =>
    have h := hf t (data_frame hx).2.2.2.2
    rw [go_andThen]
    cases hft : f t with
    | go u => rw [hft] at h; exact ReflTransGen.trans hx h
    | stop u =>
      rw [hft] at h
      obtain ⟨v, st, hv, hs, rfl⟩ := h
      exact ⟨v, st, ReflTransGen.trans hx hv, hs, rfl⟩

theorem Flow.Data.ofStop {s : State} {st : Status} (h : Stops s st) : (Flow.stop (s.withStatus st)).Data s :=
  ⟨s, st, .refl, h, rfl⟩

/-- One datapath signal and the end of its tick group. -/
theorem tickGo_data {s t : State} (g : TickGroup) (h : Data s t) : (tickGo g t).Data s :=
  (ReflTransGen.single h).tail (.tick t g)

theorem tickGo_self (s : State) (g : TickGroup) : (tickGo g s).Data s := ReflTransGen.single (.tick s g)

theorem memToDr_data (s : State) : (memToDr s).Data s := by
  rcases memToDr_spec s with ⟨x, hx, e⟩ | ⟨h, e⟩ <;> rw [e]
  · exact ReflTransGen.single (.read s x hx)
  · exact .ofStop (.address h)

theorem drToMem_data (s : State) : (drToMem s).Data s := by
  rcases drToMem_spec s with ⟨h, e⟩ | ⟨h, e⟩ <;> rw [e]
  · exact ReflTransGen.single (.store s h)
  · exact .ofStop (.address h)

/-- A zero divisor is the value 0 of the right operand. -/
theorem aluFails_value {op : AluOp} {r : Cell} (h : aluFails op r = true) : r.value = 0 := by
  simp [aluFails] at h; exact h.2

theorem aluFlags_data (op : AluOp) (l r : Cell) (s : State)
    (hr : aluFails op r = true → r = s.dr ∧ (s.cr.op = .div ∨ s.cr.op = .mod)) : (aluFlags op l r s).Data s := by
  rcases aluFlags_spec op l r s with ⟨-, e⟩ | ⟨h, e⟩ <;> rw [e]
  · exact ReflTransGen.single (.flags s op l r)
  · exact .ofStop (.divide ((hr h).1 ▸ aluFails_value h) (hr h).2)

theorem aluToAc_data (op : AluOp) (l r : Cell) (s : State)
    (hr : aluFails op r = true → r = s.dr ∧ (s.cr.op = .div ∨ s.cr.op = .mod)) : (aluToAc op l r s).Data s := by
  rcases aluToAc_spec op l r s with ⟨-, e⟩ | ⟨h, e⟩ <;> rw [e]
  · exact (ReflTransGen.single (.flags s op l r)).tail (.alu _ .ac op l r (by simp))
  · exact .ofStop (.divide ((hr h).1 ▸ aluFails_value h) (hr h).2)

theorem latch_data (g : TickGroup) (dst src : Reg) (s : State) (h : dst ≠ .cr) : (tickGo g (s.latch dst src)).Data s := by
  rw [latch_eq]; exact tickGo_data g (.latch s dst src h)

theorem aluLatch_data (g : TickGroup) (r : Reg) (op : AluOp) (right : Cell) (s : State) (h : r ≠ .cr) :
    (tickGo g (s.aluLatch r op right)).Data s := by
  rw [aluLatch_eq]; exact tickGo_data g (.alu s r op _ right h)

/-! ### Every sequence is one of signals -/

theorem groupF1_data (s : State) : (groupF1 s).Data s := latch_data .f1 .ar .ip s (by simp)

theorem groupF2_data (s : State) : (groupF2 s).Data s := by
  unfold groupF2
  refine .andThen ?_ fun t _ => tickGo_self t .f2
  exact Flow.Data.andThen (x := .go _) (ReflTransGen.single (.alu s .ip .add _ _ (by simp))) fun t _ => memToDr_data t

theorem latchRead_data (g : TickGroup) (s : State) : ((memToDr (s.latch .ar .dr)).andThen (tickGo g)).Data s := by
  refine .andThen ?_ fun t _ => tickGo_self t g
  exact Flow.Data.andThen (x := .go _) (ReflTransGen.single (.latch s .ar .dr (by simp))) fun t _ => memToDr_data t

theorem addressFetch_data (t : ValueType) (s : State) : (addressFetch t s).Data s := by
  unfold addressFetch
  split
  · exact latchRead_data .af s
  · exact Flow.Data.go .refl

theorem addressPrefix_data (t : ValueType) (s : State) : (addressPrefix t s).Data s :=
  .andThen (addressFetch_data t s) fun u _ => latchRead_data .of u

theorem drToMemTick_data (g : TickGroup) (s : State) : (drToMemTick g s).Data s :=
  .andThen (drToMem_data s) fun t _ => tickGo_self t g

theorem push_data (r : Reg) (g1 g2 g3 g4 : TickGroup) (s : State) : (push r g1 g2 g3 g4 s).Data s :=
  .andThen (.andThen (.andThen (aluLatch_data g1 .sp .sub _ s (by simp)) fun t _ => latch_data g2 .ar .sp t (by simp))
    fun t _ => latch_data g3 .dr r t (by simp)) fun t _ => drToMemTick_data g4 t

theorem popRead_data (g : TickGroup) (s : State) : (popRead g s).Data s :=
  .andThen (memToDr_data s) fun t _ => aluLatch_data g .sp .add _ t (by simp)

theorem pop_data (r : Reg) (g1 g2 g3 : TickGroup) (s : State) (h : r ≠ .cr) : (pop r g1 g2 g3 s).Data s :=
  .andThen (.andThen (latch_data g1 .ar .sp s (by simp)) fun t _ => popRead_data g2 t)
    fun t _ => latch_data g3 r .dr t h

theorem x1Ld_data (s : State) : (x1Ld s).Data s :=
  .andThen (aluToAc_data _ _ _ s (by simp [aluFails])) fun t _ => tickGo_self t .x1

theorem stExecute_data (s : State) : (stExecute s).Data s :=
  .andThen (latch_data .s1 .dr .ac s (by simp)) fun t _ => drToMemTick_data .s2 t

theorem x1Cmp_data (s : State) : (x1Cmp s).Data s :=
  .andThen (aluFlags_data _ _ _ s (by simp [aluFails])) fun t _ => tickGo_self t .x1

theorem x1Alu_data (op : AluOp) (s : State) (h : op = .div ∨ op = .mod → s.cr.op = .div ∨ s.cr.op = .mod) :
    (x1Alu op s).Data s :=
  .andThen (aluToAc_data _ _ _ s fun hf => ⟨rfl, h (by simp [aluFails] at hf; exact hf.1)⟩) fun t _ => tickGo_self t .x1

theorem x1AluConst_data (op : AluOp) (n : Int) (s : State) (h : aluFails op (Cell.const n) = false) :
    (x1AluConst op n s).Data s :=
  .andThen (aluToAc_data _ _ _ s (by simp [h])) fun t _ => tickGo_self t .x1

theorem hltExecute_data (s : State) (hc : s.cr.op = .hlt) : (hltExecute s).Data s := by
  unfold hltExecute
  split
  · exact .ofStop (.halt ‹_› hc)
  · exact .ofStop (.nestedHalt ‹_› hc)

theorem branchExecute_data (cond : State → Bool) (s : State) : (branchExecute cond s).Data s := by
  unfold branchExecute
  split
  · exact latch_data .b1 .ip .dr s (by simp)
  · exact Flow.Data.go .refl

theorem x1In_data (s : State) (hc : s.cr.op = .inp) : (x1In s).Data s := by
  refine .andThen ?_ fun t _ => tickGo_self t .x1
  unfold latchInput
  split
  · exact .ofStop (.input (by simp [inputReady, *]) hc)
  · split
    · exact ReflTransGen.single (.input s _ _ ‹_› ‹_› hc)
    · exact .ofStop (.input (by simp [inputReady, *]) hc)

theorem x1Out_data (s : State) (hc : s.cr.op = .out) : (x1Out s).Data s := tickGo_data .x1 (.output s hc)

/-- The entry's signals before the depth is raised. -/
def entryTicks (s : State) : Flow :=
  (((((groupIe1 s).andThen (push .ip .ie2 .ie3 .ie4 .ie5)).andThen (push .ps .ie6 .ie7 .ie8 .ie9)).andThen
    groupIe10).andThen groupIe11).andThen groupIe12

theorem entryTicks_data (s : State) : (entryTicks s).Data s := by
  refine .andThen (.andThen (.andThen (.andThen (.andThen (aluLatch_data .ie1 .ps .and _ s (by simp)) ?_) ?_) ?_) ?_) ?_
  · exact fun t _ => push_data _ _ _ _ _ t
  · exact fun t _ => push_data _ _ _ _ _ t
  · exact fun t _ => tickGo_data .ie10 (.vector t)
  · exact fun t _ => .andThen (memToDr_data t) fun u _ => tickGo_self u .ie11
  · exact fun t _ => latch_data .ie12 .ip .dr t (by simp)

/-- The exit's signals before the depth is lowered. -/
def exitTicks (s : State) : Flow :=
  ((pop .ps .ix1 .ix2 .ix3 s).andThen (pop .ip .ix4 .ix5 .ix6)).andThen groupIx7

theorem exitTicks_data (s : State) : (exitTicks s).Data s :=
  .andThen (.andThen (pop_data _ _ _ _ s (by simp)) fun t _ => pop_data _ _ _ _ t (by simp))
    fun t _ => aluLatch_data .ix7 .ps .or _ t (by simp)

/-! ### The whole step -/

/-- A sequence of signals, wherever it ends. -/
def Flow.Reaches (s : State) (x : Flow) : Prop := ReflTransGen Signal s x.state

theorem data_signals {s t : State} (h : ReflTransGen Data s t) : ReflTransGen Signal s t := by
  induction h with
  | refl => exact .refl
  | tail _ h ih => exact ih.tail (.data h)

theorem Flow.Data.reaches {s : State} {x : Flow} (h : x.Data s) : x.Reaches s := by
  cases x with
  | go t => exact data_signals h
  | stop t =>
    obtain ⟨u, st, hu, hs, rfl⟩ := h
    exact (data_signals hu).tail (.stop u st hs)

/-- The taking of an interrupt: signals of the datapath, and the depth raised at their end. -/
theorem interruptEntry_cases (s : State) :
    (nestExceeded s = true ∧ interruptEntry s = .stop (s.withStatus (.fatal .nestDepthExceeded))) ∨
    (nestExceeded s = false ∧
      ((∃ t, ReflTransGen Data s t ∧ interruptEntry s = .go t.enterHandler) ∨
       (∃ t st, ReflTransGen Data s t ∧ Stops t st ∧ interruptEntry s = .stop (t.withStatus st)))) := by
  cases hn : nestExceeded s
  · refine .inr ⟨rfl, ?_⟩
    have hb := entryTicks_data s
    have he : interruptEntry s = (entryTicks s).andThen fun t => .go t.enterHandler := by
      simp only [interruptEntry, hn]; rfl
    rw [he]
    cases hx : entryTicks s with
    | go t => rw [hx] at hb; exact .inl ⟨t, hb, rfl⟩
    | stop t => rw [hx] at hb; obtain ⟨u, st, hu, hs, rfl⟩ := hb; exact .inr ⟨u, st, hu, hs, rfl⟩
  · exact .inl ⟨rfl, interruptEntry_nest s hn⟩

theorem interruptEntry_reaches (s : State) : (interruptEntry s).Reaches s := by
  rcases interruptEntry_cases s with ⟨hn, e⟩ | ⟨hn, ⟨t, ht, e⟩ | ⟨t, st, ht, hs, e⟩⟩ <;> rw [e]
  · exact .single (.nest s hn)
  · refine (data_signals ht).tail (.enter t ?_)
    have hf := data_frame ht
    simpa [nestExceeded, hf.1, hf.2.2.1] using hn
  · exact (data_signals ht).tail (.stop t st hs)

/-- The return from an interrupt: signals of the datapath, and the depth lowered at their end. -/
theorem interruptExit_cases (s : State) :
    (∃ t, ReflTransGen Data s t ∧ interruptExit s = .go t.leaveHandler) ∨
    (∃ t st, ReflTransGen Data s t ∧ Stops t st ∧ interruptExit s = .stop (t.withStatus st)) := by
  have hb := exitTicks_data s
  have he : interruptExit s = (exitTicks s).andThen fun t => .go t.leaveHandler := rfl
  rw [he]
  cases hx : exitTicks s with
  | go t => rw [hx] at hb; exact .inl ⟨t, hb, rfl⟩
  | stop t => rw [hx] at hb; obtain ⟨u, st, hu, hs, rfl⟩ := hb; exact .inr ⟨u, st, hu, hs, rfl⟩

/-- How a meaning ends: as a sequence of datapath signals that goes on or stops, or as a completed return from an
interrupt. -/
def Ends (s t : State) : Prop :=
  ReflTransGen Data s t ∨ (∃ u st, ReflTransGen Data s u ∧ Stops u st ∧ t = u.withStatus st) ∨
    (∃ u, ReflTransGen Data s u ∧ u.depth ≠ 0 ∧ u.cr.op = .iret ∧ t = u.leaveHandler)

theorem Flow.Data.ends {s : State} {x : Flow} (h : x.Data s) : Ends s x.state := by
  cases x with
  | go t => exact .inl h
  | stop t => exact .inr (.inl h)

theorem Ends.signals {s t : State} (h : Ends s t) : ReflTransGen Signal s t := by
  rcases h with h | ⟨u, st, h, hs, rfl⟩ | ⟨u, h, hd, hc, rfl⟩
  · exact data_signals h
  · exact (data_signals h).tail (.stop u st hs)
  · exact (data_signals h).tail (.leave u hd hc)

theorem iretExecute_ends (s : State) (hc : s.cr.op = .iret) : Ends s (iretExecute s).state := by
  unfold iretExecute
  split
  · exact (Flow.Data.ofStop (.interruptReturn ‹_› hc)).ends
  · rename_i hd
    rcases interruptExit_cases s with ⟨t, ht, e⟩ | ⟨t, st, ht, hs, e⟩ <;> rw [e]
    · have hf := data_frame ht
      exact .inr (.inr ⟨t, ht, by rw [hf.2.2.1]; exact hd, by rw [hf.2.2.2.2]; exact hc, rfl⟩)
    · exact .inr (.inl ⟨t, st, ht, hs, rfl⟩)

theorem addressClass_ends (x : Cell) (f : State → Flow) (hf : ∀ t, t.cr = x → (f t).Data t) (s : State) :
    ∃ t, addressClass x f s = .next t ∧ Ends (s.present x) t :=
  ⟨_, rfl, (Flow.Data.andThen (addressPrefix_data x.vt (s.present x)) fun t ht => hf t ht).ends⟩

theorem plainClass_ends (x : Cell) (f : State → Flow) (hf : ∀ t, t.cr = x → (f t).Data t) (s : State) :
    ∃ t, plainClass x f s = .next t ∧ Ends (s.present x) t :=
  ⟨_, rfl, (hf _ rfl).ends⟩

theorem branchClass_ends (x : Cell) (cond : State → Bool) (s : State) :
    ∃ t, branchClass x cond s = .next t ∧ Ends (s.present x) t :=
  ⟨_, rfl, (Flow.Data.andThen (addressFetch_data x.vt (s.present x)) fun t _ => branchExecute_data cond t).ends⟩

/-- An ALU operation that never fails needs nothing of `CR`. -/
theorem x1Alu_plain (op : AluOp) (h : ¬(op = .div ∨ op = .mod)) (t : State) : (x1Alu op t).Data t :=
  x1Alu_data op t fun hh => absurd hh h

/-- EVERY MEANING ANSWERS A NEXT STATE, reached by signals from the instruction's cell in `CR` and `DR`. -/
theorem exec_ends (i : Instr) (s : State) : ∃ t, exec i s = .next t ∧ Ends (s.present i.cell) t := by
  cases i with
  | nop t v => exact plainClass_ends _ _ (fun u _ => tickGo_self u .x1) s
  | hlt t v => exact plainClass_ends _ _ (fun u h => hltExecute_data u (by rw [h])) s
  | iret t v => exact ⟨_, rfl, iretExecute_ends _ rfl⟩
  | push t v => exact plainClass_ends _ _ (fun u _ => push_data _ _ _ _ _ u) s
  | pop t v => exact plainClass_ends _ _ (fun u _ => pop_data _ _ _ _ u (by simp)) s
  | ei t v => exact plainClass_ends _ _ (fun u _ => aluLatch_data .x1 .ps .or _ u (by simp)) s
  | di t v => exact plainClass_ends _ _ (fun u _ => aluLatch_data .x1 .ps .and _ u (by simp)) s
  | cla t v => exact plainClass_ends _ _ (fun u _ => x1AluConst_data .and 0 u rfl) s
  | inc t v => exact plainClass_ends _ _ (fun u _ => x1AluConst_data .add 1 u rfl) s
  | dec t v => exact plainClass_ends _ _ (fun u _ => x1AluConst_data .sub 1 u rfl) s
  | ld t v => exact addressClass_ends _ _ (fun u _ => x1Ld_data u) s
  | st t v => exact addressClass_ends _ _ (fun u _ => stExecute_data u) s
  | cmp t v => exact addressClass_ends _ _ (fun u _ => x1Cmp_data u) s
  | add t v => exact addressClass_ends _ _ (fun u _ => x1Alu_plain .add (by simp) u) s
  | sub t v => exact addressClass_ends _ _ (fun u _ => x1Alu_plain .sub (by simp) u) s
  | mul t v => exact addressClass_ends _ _ (fun u _ => x1Alu_plain .mul (by simp) u) s
  | div t v => exact addressClass_ends _ _ (fun u h => x1Alu_data .div u fun _ => .inl (by rw [h])) s
  | mod t v => exact addressClass_ends _ _ (fun u h => x1Alu_data .mod u fun _ => .inr (by rw [h])) s
  | or t v => exact addressClass_ends _ _ (fun u _ => x1Alu_plain .or (by simp) u) s
  | and t v => exact addressClass_ends _ _ (fun u _ => x1Alu_plain .and (by simp) u) s
  | jc t v => exact branchClass_ends _ _ s
  | jnc t v => exact branchClass_ends _ _ s
  | jn t v => exact branchClass_ends _ _ s
  | jnn t v => exact branchClass_ends _ _ s
  | jz t v => exact branchClass_ends _ _ s
  | jnz t v => exact branchClass_ends _ _ s
  | jmp t v => exact branchClass_ends _ _ s
  | inp t v => exact plainClass_ends _ _ (fun u h => x1In_data u (by rw [h])) s
  | out t v => exact plainClass_ends _ _ (fun u h => x1Out_data u (by rw [h])) s

/-- Presenting the cell that stands in `CR` and `DR` already changes nothing. -/
theorem present_self (s : State) (x : Cell) (hd : s.dr = x) (hc : s.cr = x) : s.present x = s := by
  subst hd; rw [present_eq]; apply State.ext <;> simp [hc]

/-- The instruction of a cell is that cell. -/
theorem instrOfCell_cell {c : Config} {x : Cell} {i : Instr} (h : instrOfCell c x = .ok i) : i.cell = x := by
  obtain ⟨op, v, t⟩ := x
  cases op <;> simp only [instrOfCell] at h <;> (try split at h) <;> cases h <;> rfl

theorem instrOfCell_error {c : Config} {x : Cell} {e : DecodeError} (h : instrOfCell c x = .error e) :
    e = .reservedOpcode := by
  obtain ⟨op, v, t⟩ := x
  cases op <;> simp only [instrOfCell] at h <;> (try split at h) <;> cases h <;> rfl

theorem completeCycle_reaches (s : State) : ReflTransGen Signal s (completeCycle s) := by
  unfold completeCycle
  split
  · refine ReflTransGen.trans (.single (.block s)) ?_
    unfold interruptCheck
    split
    · have h := interruptEntry_reaches s.endBlock
      cases he : interruptEntry s.endBlock with
      | go t => rw [he] at h; exact ReflTransGen.tail h (.block t)
      | stop t => rw [he] at h; exact h
    · exact .refl
  · exact .single (.block s)
  · exact .single (.block s)
  · exact .refl

/-- Everything the start of a cycle can do: the ceiling reached, a fetch out of range, or the fetched cell in `CR` and
`DR`. -/
theorem cycleStart_spec (s : State) :
    (limitReached s = true ∧ cycleStart s = .stop (s.withStatus (.fatal .instructionLimitExceeded))) ∨
    (limitReached s = false ∧
      ((∃ tr, inRange s s.ip.value = false ∧ Grows 1 s.trace tr ∧
          cycleStart s = .stop { s with
            ar := s.ip, ip := (alu s.cfg .add s.ip (Cell.const 1)).res, tick := s.tick + 1, icount := s.icount + 1,
            trace := tr, status := .fatal .addressOutOfRange }) ∨
       (∃ x tr, memRead s s.ip.value = some x ∧ Grows 3 s.trace tr ∧
          cycleStart s = .go { s with
            ar := s.ip, ip := (alu s.cfg .add s.ip (Cell.const 1)).res, dr := x, cr := x, tick := s.tick + 3,
            icount := s.icount + 1, trace := tr }))) := by
  unfold cycleStart
  rcases limitCheck_spec s with ⟨hl, e⟩ | ⟨hl, e⟩ <;> rw [e]
  · refine .inr ⟨hl, ?_⟩
    rw [go_andThen]
    rcases fetch_spec s.countInstruction with ⟨x, tr, hx, hg, e⟩ | ⟨tr, hx, hg, e⟩ <;> rw [e]
    · exact .inr ⟨x, tr, hx, hg, rfl⟩
    · exact .inl ⟨tr, hx, hg, rfl⟩
  · exact .inl ⟨hl, rfl⟩

theorem cycleStart_reaches (s : State) : (cycleStart s).Reaches s := by
  unfold cycleStart
  rcases limitCheck_spec s with ⟨hl, e⟩ | ⟨hl, e⟩ <;> rw [e]
  · refine ReflTransGen.trans (.single (.count s hl)) ?_
    have h : ((groupF1 s.countInstruction).andThen groupF2).Data s.countInstruction :=
      .andThen (groupF1_data _) fun t _ => groupF2_data t
    show ReflTransGen Signal _ ((((groupF1 s.countInstruction).andThen groupF2).andThen groupF3).state)
    cases hx : (groupF1 s.countInstruction).andThen groupF2 with
    | stop t => rw [hx] at h; exact h.reaches
    | go t => rw [hx] at h; exact ((data_signals h).tail (.loadCr t)).tail (.data (.tick _ .f3))
  · exact .single (.limit s hl)

/-- A step from a running state answers a next state; from any other state there is none. -/
theorem step_next_running {s t : State} (h : step s = .next t) : s.status = .running := by
  unfold step at h
  cases hs : s.status <;> simp [hs, stoppedFault] at h ⊢

/-- EVERYTHING A STEP CAN DO, phase by phase: stopped before or in the fetch, stopped by the decoder, or a meaning `v` of
the fetched instruction followed by the end of the cycle. -/
theorem step_cases {s t : State} (h : step s = .next t) :
    s.status = .running ∧
    (cycleStart s = .stop t ∨
     ∃ u, cycleStart s = .go u ∧ u.dr = u.cr ∧
      ((instrOfCell u.cfg u.cr = .error .reservedOpcode ∧ t = unknownOpcode u) ∨
       ∃ i v, instrOfCell u.cfg u.cr = .ok i ∧ i.cell = u.cr ∧ exec i u = .next v ∧ Ends u v ∧ t = completeCycle v)) := by
  refine ⟨step_next_running h, ?_⟩
  have hr := step_next_running h
  unfold step at h
  simp only [hr, stoppedFault] at h
  cases he : cycleStart s with
  | stop u => simp only [he] at h; cases h; exact .inl rfl
  | go u =>
    have hd : u.dr = u.cr := by
      rcases cycleStart_spec s with ⟨-, e⟩ | ⟨-, ⟨tr, -, -, e⟩ | ⟨x, tr, -, -, e⟩⟩ <;> rw [e] at he <;> cases he
      rfl
    refine .inr ⟨u, rfl, hd, ?_⟩
    simp only [he] at h
    cases hi : instrOfCell u.cfg u.cr with
    | error e =>
      simp only [hi] at h; cases h
      exact .inl ⟨by rw [instrOfCell_error hi], rfl⟩
    | ok i =>
      simp only [hi] at h
      obtain ⟨v, hv, hs⟩ := exec_ends i u
      rw [hv] at h; cases h
      have hc := instrOfCell_cell hi
      rw [present_self u i.cell (hd.trans hc.symm) hc.symm] at hs
      exact .inr ⟨i, v, rfl, hc, hv, hs, rfl⟩

/-- EVERYTHING A STEP CAN DO, signal by signal. -/
theorem step_signals {s t : State} (h : step s = .next t) : ReflTransGen Signal s t := by
  have hc := cycleStart_reaches s
  rcases (step_cases h).2 with e | ⟨u, e, -, ⟨hi, rfl⟩ | ⟨i, v, -, -, -, hv, rfl⟩⟩ <;> rw [e] at hc
  · exact hc
  · exact ReflTransGen.tail hc (.opcode u hi)
  · exact ReflTransGen.trans (ReflTransGen.trans hc hv.signals) (completeCycle_reaches v)

/-- An invariant that every signal keeps is kept by every step. -/
theorem step_invariant (P : State → Prop) (hP : ∀ s t, Signal s t → P s → P t) {s t : State} (h : step s = .next t)
    (hs : P s) : P t := by
  have hg := step_signals h
  clear h
  induction hg with
  | refl => exact hs
  | tail _ h ih => exact hP _ _ h ih

end Sys2Proof.Machine
end

