-- ==== Sys2Proof/Laws/Ticks.lean ====
section
/-! SUPPORT. The tick-level control unit, group by group: a sequence of tick groups is run in as many ticks as it counts, so
that a statement about `tickRun` is put together from the sequences of 40_cycle_alu.md R75. -/

namespace Sys2Proof.Machine

@[simp] theorem tickRun_zero (x : TickState) : tickRun 0 x = x := rfl
@[simp] theorem tickRun_succ (n : Nat) (x : TickState) : tickRun (n + 1) x = tickRun n (tickStep x) := rfl

theorem tickRun_add (m n : Nat) (x : TickState) : tickRun (m + n) x = tickRun n (tickRun m x) := by
  induction m generalizing x with
  | zero => simp
  | succ m ih => rw [Nat.succ_add, tickRun_succ, tickRun_succ, ih]

/-- A flow that is one tick group from `s`: one tick when it goes on, none when a signal fails. -/
def OneTick (s : State) : Flow → Prop
  | .go t => t.tick = s.tick + 1 ∧ t.status = s.status
  | .stop t => t.tick = s.tick ∧ ∃ c, t.status = .fatal c

/-- From the tick state `x` the control unit runs the flow: to the tick state `k t` where the flow goes on with `t`, and
to a stop with the flow's state where it stops. -/
def Runs (x : TickState) (k : State → TickState) : Flow → Prop
  | .go t => t.status = .running ∧ ∃ n, tickRun n x = k t ∧ t.tick = x.st.tick + n
  | .stop t => (∃ c, t.status = .fatal c) ∧ ∃ n, (tickRun n x).st = t ∧ x.st.tick ≤ t.tick ∧ n ≤ t.tick - x.st.tick + 1

/-- One tick group. -/
theorem runs_group {g : TickGroup} {s : State} {f : Flow} (hr : s.status = .running) (hf : tickAct g s = f)
    (h1 : OneTick s f) : Runs ⟨g, s⟩ (tickAfter g) f := by
  cases f with
  | go t =>
    refine ⟨h1.2.trans hr, 1, ?_, h1.1⟩
    simp [tickStep, hr, hf]
  | stop t =>
    refine ⟨h1.2, 1, ?_, h1.1.ge, by omega⟩
    simp [tickStep, hr, hf]

/-- One sequence after another, where nothing happens between their ticks. -/
theorem Runs.andThen {x : TickState} {k k' : State → TickState} {f : Flow} {g : State → Flow} (h : Runs x k f)
    (hk : ∀ t, (k t).st = t) (hg : ∀ t, t.status = .running → Runs (k t) k' (g t)) : Runs x k' (f.andThen g) := by
  cases f with
  | stop t => exact h
  | go t =>
    obtain ⟨hr, n, hn, ht⟩ := h
    have h2 := hg t hr
    rw [go_andThen]
    cases hgt : g t with
    | go u =>
      rw [hgt] at h2
      obtain ⟨hr2, m, hm, hu⟩ := h2
      rw [hk] at hu
      exact ⟨hr2, n + m, by rw [tickRun_add, hn, hm], by omega⟩
    | stop u =>
      rw [hgt] at h2
      obtain ⟨hr2, m, hm, hu, hle⟩ := h2
      rw [hk] at hu hle
      exact ⟨hr2, n + m, by rw [tickRun_add, hn, hm], by omega, by omega⟩

/-! ### Every tick group is one tick -/

theorem oneTick_tickGo {s t : State} (g : TickGroup) (h : t.tick = s.tick) (hr : t.status = s.status) :
    OneTick s (tickGo g t) := ⟨by simp [h], by simp [hr]⟩

theorem oneTick_memToDr {s t : State} (f : State → Flow) (h : t.tick = s.tick)
    (hf : ∀ x, OneTick s (f (t.setReg .dr x))) : OneTick s ((memToDr t).andThen f) := by
  rcases memToDr_spec t with ⟨x, -, e⟩ | ⟨-, e⟩ <;> rw [e]
  · exact hf x
  · exact ⟨h, _, rfl⟩

theorem oneTick_drToMem (s : State) (g : TickGroup) : OneTick s (drToMemTick g s) := by
  unfold drToMemTick
  rcases drToMem_spec s with ⟨-, e⟩ | ⟨-, e⟩ <;> rw [e]
  · exact oneTick_tickGo g rfl rfl
  · exact ⟨rfl, _, rfl⟩

theorem oneTick_aluToAc (s : State) (g : TickGroup) (op : AluOp) (l r : Cell) :
    OneTick s ((aluToAc op l r s).andThen (tickGo g)) := by
  rcases aluToAc_spec op l r s with ⟨-, e⟩ | ⟨-, e⟩ <;> rw [e]
  · exact oneTick_tickGo g (by simp) (by simp)
  · exact ⟨rfl, _, rfl⟩

theorem oneTick_aluFlags (s : State) (g : TickGroup) (op : AluOp) (l r : Cell) :
    OneTick s ((aluFlags op l r s).andThen (tickGo g)) := by
  rcases aluFlags_spec op l r s with ⟨-, e⟩ | ⟨-, e⟩ <;> rw [e]
  · exact oneTick_tickGo g (by simp) (by simp)
  · exact ⟨rfl, _, rfl⟩

theorem oneTick_f1 (s : State) : OneTick s (tickAct .f1 s) := by
  show OneTick s ((limitCheck s).andThen groupF1)
  rcases limitCheck_spec s with ⟨-, e⟩ | ⟨-, e⟩ <;> rw [e]
  · exact oneTick_tickGo .f1 rfl rfl
  · exact ⟨rfl, _, rfl⟩

theorem oneTick_f2 (s : State) : OneTick s (groupF2 s) :=
  oneTick_memToDr _ rfl fun _ => oneTick_tickGo .f2 rfl rfl

theorem oneTick_af (s : State) : OneTick s (groupAf s) :=
  oneTick_memToDr _ rfl fun _ => oneTick_tickGo .af rfl rfl

theorem oneTick_of (s : State) : OneTick s (groupOf s) :=
  oneTick_memToDr _ rfl fun _ => oneTick_tickGo .of rfl rfl

theorem oneTick_popRead (s : State) (g : TickGroup) : OneTick s (popRead g s) :=
  oneTick_memToDr _ rfl fun _ => oneTick_tickGo g rfl rfl

theorem oneTick_ie11 (s : State) : OneTick s (groupIe11 s) :=
  oneTick_memToDr _ rfl fun _ => oneTick_tickGo .ie11 rfl rfl

theorem oneTick_in (s : State) : OneTick s (x1In s) := by
  unfold x1In latchInput
  split
  · exact ⟨rfl, _, rfl⟩
  · split
    · exact oneTick_tickGo .x1 rfl rfl
    · exact ⟨rfl, _, rfl⟩

/-! ### The sequences -/

/-- The start of a cycle: the limit check and the fetch, up to the decoder. -/
theorem runs_cycleStart (s : State) (hr : s.status = .running) : Runs ⟨.f1, s⟩ afterDecode (cycleStart s) := by
  have e : cycleStart s = ((tickAct .f1 s).andThen groupF2).andThen groupF3 := by
    show (limitCheck s).andThen _ = (((limitCheck s).andThen groupF1).andThen groupF2).andThen groupF3
    cases limitCheck s <;> rfl
  rw [e]
  refine Runs.andThen (k := fun t => ⟨.f3, t⟩) (Runs.andThen (k := fun t => ⟨.f2, t⟩) ?_ (fun _ => rfl) ?_)
    (fun _ => rfl) ?_
  · exact runs_group hr rfl (oneTick_f1 s)
  · exact fun t h => runs_group h rfl (oneTick_f2 t)
  · exact fun t h => runs_group h rfl (oneTick_tickGo .f3 rfl rfl)

/-- The push of the accumulator. -/
theorem runs_push (s : State) (hr : s.status = .running) :
    Runs ⟨.pu1, s⟩ afterInstruction (push .ac .pu1 .pu2 .pu3 .pu4 s) := by
  refine Runs.andThen (k := fun t => ⟨.pu4, t⟩) (Runs.andThen (k := fun t => ⟨.pu3, t⟩)
    (Runs.andThen (k := fun t => ⟨.pu2, t⟩) ?_ (fun _ => rfl) ?_) (fun _ => rfl) ?_) (fun _ => rfl) ?_
  · exact runs_group hr rfl (oneTick_tickGo .pu1 rfl rfl)
  · exact fun t h => runs_group h rfl (oneTick_tickGo .pu2 rfl rfl)
  · exact fun t h => runs_group h rfl (oneTick_tickGo .pu3 rfl rfl)
  · exact fun t h => runs_group h rfl (oneTick_drToMem t .pu4)

/-- The pop of the accumulator. -/
theorem runs_pop (s : State) (hr : s.status = .running) :
    Runs ⟨.po1, s⟩ afterInstruction (pop .ac .po1 .po2 .po3 s) := by
  refine Runs.andThen (k := fun t => ⟨.po3, t⟩) (Runs.andThen (k := fun t => ⟨.po2, t⟩) ?_ (fun _ => rfl) ?_)
    (fun _ => rfl) ?_
  · exact runs_group hr rfl (oneTick_tickGo .po1 rfl rfl)
  · exact fun t h => runs_group h rfl (oneTick_popRead t .po2)
  · exact fun t h => runs_group h rfl (oneTick_tickGo .po3 rfl rfl)

/-- The store of the accumulator. -/
theorem runs_store (s : State) (hr : s.status = .running) : Runs ⟨.s1, s⟩ afterInstruction (stExecute s) := by
  refine Runs.andThen (k := fun t => ⟨.s2, t⟩) ?_ (fun _ => rfl) ?_
  · exact runs_group hr rfl (oneTick_tickGo .s1 rfl rfl)
  · exact fun t h => runs_group h rfl (oneTick_drToMem t .s2)

/-- The ticks of an interrupt entry. -/
theorem runs_entry (s : State) (hr : s.status = .running) :
    Runs ⟨.ie1, s⟩ (fun t => ⟨.f1, t.enterHandler.endBlock⟩) (entryTicks s) := by
  refine Runs.andThen (k := fun t => ⟨.ie12, t⟩) (Runs.andThen (k := fun t => ⟨.ie11, t⟩)
    (Runs.andThen (k := fun t => ⟨.ie10, t⟩) (Runs.andThen (k := fun t => ⟨.ie6, t⟩)
      (Runs.andThen (k := fun t => ⟨.ie2, t⟩) ?_ (fun _ => rfl) ?_) (fun _ => rfl) ?_)
        (fun _ => rfl) ?_) (fun _ => rfl) ?_) (fun _ => rfl) ?_
  · exact runs_group hr rfl (oneTick_tickGo .ie1 rfl rfl)
  · intro t h
    refine Runs.andThen (k := fun t => ⟨.ie5, t⟩) (Runs.andThen (k := fun t => ⟨.ie4, t⟩)
      (Runs.andThen (k := fun t => ⟨.ie3, t⟩) ?_ (fun _ => rfl) ?_) (fun _ => rfl) ?_) (fun _ => rfl) ?_
    · exact runs_group h rfl (oneTick_tickGo .ie2 rfl rfl)
    · exact fun t h => runs_group h rfl (oneTick_tickGo .ie3 rfl rfl)
    · exact fun t h => runs_group h rfl (oneTick_tickGo .ie4 rfl rfl)
    · exact fun t h => runs_group h rfl (oneTick_drToMem t .ie5)
  · intro t h
    refine Runs.andThen (k := fun t => ⟨.ie9, t⟩) (Runs.andThen (k := fun t => ⟨.ie8, t⟩)
      (Runs.andThen (k := fun t => ⟨.ie7, t⟩) ?_ (fun _ => rfl) ?_) (fun _ => rfl) ?_) (fun _ => rfl) ?_
    · exact runs_group h rfl (oneTick_tickGo .ie6 rfl rfl)
    · exact fun t h => runs_group h rfl (oneTick_tickGo .ie7 rfl rfl)
    · exact fun t h => runs_group h rfl (oneTick_tickGo .ie8 rfl rfl)
    · exact fun t h => runs_group h rfl (oneTick_drToMem t .ie9)
  · exact fun t h => runs_group h rfl (oneTick_tickGo .ie10 rfl rfl)
  · exact fun t h => runs_group h rfl (oneTick_ie11 t)
  · exact fun t h => runs_group h rfl (oneTick_tickGo .ie12 rfl rfl)

/-- The ticks of an interrupt exit. -/
theorem runs_exit (s : State) (hr : s.status = .running) :
    Runs ⟨.ix1, s⟩ (fun t => afterInstruction t.leaveHandler) (exitTicks s) := by
  refine Runs.andThen (k := fun t => ⟨.ix7, t⟩) (Runs.andThen (k := fun t => ⟨.ix4, t⟩) ?_ (fun _ => rfl) ?_)
    (fun _ => rfl) ?_
  · refine Runs.andThen (k := fun t => ⟨.ix3, t⟩) (Runs.andThen (k := fun t => ⟨.ix2, t⟩) ?_ (fun _ => rfl) ?_)
      (fun _ => rfl) ?_
    · exact runs_group hr rfl (oneTick_tickGo .ix1 rfl rfl)
    · exact fun t h => runs_group h rfl (oneTick_popRead t .ix2)
    · exact fun t h => runs_group h rfl (oneTick_tickGo .ix3 rfl rfl)
  · intro t h
    refine Runs.andThen (k := fun t => ⟨.ix6, t⟩) (Runs.andThen (k := fun t => ⟨.ix5, t⟩) ?_ (fun _ => rfl) ?_)
      (fun _ => rfl) ?_
    · exact runs_group h rfl (oneTick_tickGo .ix4 rfl rfl)
    · exact fun t h => runs_group h rfl (oneTick_popRead t .ix5)
    · exact fun t h => runs_group h rfl (oneTick_tickGo .ix6 rfl rfl)
  · exact fun t h => runs_group h rfl (oneTick_tickGo .ix7 rfl rfl)

end Sys2Proof.Machine
end

