-- ==== Sys2Proof/Tests/Slice0.lean ====
section
/-! SUPPORT. Tests: what the well-formedness checks refuse, one encoded word for every instruction, one-step tests from the
vectors of 95_test_vectors.md, and for every statement with hypotheses a state and operands that meet them. -/

namespace Sys2Proof.Tests

open Sys2Proof Sys2Proof.Machine

/-! ### Helpers -/

/-- The reset state with the word `w` at address 100 and `IP` there (the convention of 95_test_vectors.md), over memory
`m`. -/
def at100 (w : Nat) (m : Memory := []) : State :=
  ({ State.boot Config.default 100 [] with mem := m }).withFetchWord 40 w

/-- The same with `AC` and `PS` set. -/
def run100 (w : Nat) (m : Memory) (ac : Cell) (ps : Int) : State := { at100 w m with ac := ac, ps := Cell.const ps }

/-- The same with `SP` and `DEPTH` set. -/
def stack100 (w : Nat) (m : Memory) (sp : Int) (depth : Nat) : State :=
  { at100 w m with sp := Cell.const sp, depth := depth }

/-- A state with `AR`, `IP` and `SP` at one address, for boundary values. -/
def pointing (a : Int) : State :=
  { State.reset with ar := Cell.const a, ip := Cell.const a, sp := Cell.const a }

/-- A `Number` cell. -/
def num (v : Int) : Cell := ⟨.nop, v, .number⟩

/-- A view of the state one step leads to. -/
def seen {α : Type} (s : State) (f : State → α) : Option α :=
  match step s with
  | .next t => some (f t)
  | .fault _ => none
  | .refused _ => none

theorem seen_spec {α : Type} {s : State} {f : State → α} {b : α} (h : seen s f = some b) :
    ∃ t, step s = .next t ∧ f t = b := by
  unfold seen at h
  split at h
  · next t ht => exact ⟨t, ht, by simpa using h⟩
  · cases h
  · cases h

/-- `AC`, `PS.value`, `TICK` and `STATUS` after one step. -/
def alu (s : State) : Option (Cell × Int × Nat × Status) := seen s fun t => (t.ac, t.ps.value, t.tick, t.status)

/-- `IP`, `AR.value`, `TICK` and `STATUS` after one step. -/
def jump (s : State) : Option (Cell × Int × Nat × Status) := seen s fun t => (t.ip, t.ar.value, t.tick, t.status)

/-- `SP.value`, `AR.value`, `TICK` and `STATUS` after one step. -/
def stk (s : State) : Option (Int × Int × Nat × Status) :=
  seen s fun t => (t.sp.value, t.ar.value, t.tick, t.status)

/-- The invariant as a check. -/
def invOk (s : State) : Bool :=
  s.cfg.legal && (s.ac.wf s.cfg && s.ip.wf s.cfg && s.cr.wf s.cfg && s.ps.wf s.cfg && s.sp.wf s.cfg && s.dr.wf s.cfg &&
    s.ar.wf s.cfg) && decide (Memory.wf s.mem) && s.mem.all (fun e => e.2.wf s.cfg && decide (e.1 ≤ s.cfg.addrMax)) &&
    s.inq.all (fun e => s.cfg.isWord (e.char : Int)) && s.cfg.instrLimit.all (fun n => decide (s.icount ≤ n)) &&
    s.cfg.maxNest.all (fun n => decide (s.depth ≤ n))

theorem inv_of_ok {s : State} (h : invOk s = true) : s.Inv := by
  simp only [invOk, Bool.and_eq_true, decide_eq_true_eq, List.all_eq_true] at h
  obtain ⟨⟨⟨⟨⟨⟨h1, ⟨⟨⟨⟨⟨⟨a, b⟩, c⟩, d⟩, e⟩, f⟩, g⟩⟩, h2⟩, h3⟩, h4⟩, h5⟩, h6⟩ := h
  refine ⟨h1, a, b, c, d, e, f, g, h2, fun x hx => (h3 x hx).1, fun x hx => (h3 x hx).2, h4, fun n hn => ?_, fun n hn => ?_⟩
  · simpa [hn] using h5
  · simpa [hn] using h6

/-! ### Well-formedness: each check refuses an ill-formed term -/

theorem test_wf_default_config : Config.default.legal = true := by decide
theorem test_wf_width_below_nine : Config.legal { Config.default with w := 8, addrMax := 5 } = false := by decide
theorem test_wf_memory_past_word : Config.legal { Config.default with w := 9, addrMax := 255 } = false := by decide
theorem test_wf_vector_past_memory : Config.legal { Config.default with intVector := 2048 } = false := by decide
theorem test_wf_limit_zero : Config.legal { Config.default with instrLimit := some 0 } = false := by decide
theorem test_wf_nest_zero : Config.legal { Config.default with maxNest := some 0 } = false := by decide
theorem test_wf_word_too_large : Instr.wf Config.default (.ld .addressDirect 2147483648) = false := by decide
theorem test_wf_word_too_small : Instr.wf Config.default (.ld .addressDirect (-2147483649)) = false := by decide
theorem test_wf_div_absent :
    Instr.wf { Config.default with hasDiv := false } (.div .addressDirect 0) = false := by decide
theorem test_wf_register_cell : Cell.wf Config.default ⟨.nop, 2147483648, .none⟩ = false := by decide

/-! ### Decoding: a word for every instruction, from the encoding vectors (95_test_vectors.md section 2) -/

theorem test_decode_nop : decodeTableWord 40 0x0000000000 = some (.nop .none 0) := by decide
theorem test_decode_hlt : decodeTableWord 40 0x0800000000 = some (.hlt .none 0) := by decide
theorem test_decode_iret : decodeTableWord 40 0x1000000000 = some (.iret .none 0) := by decide
theorem test_decode_push : decodeTableWord 40 0x1800000000 = some (.push .none 0) := by decide
theorem test_decode_pop : decodeTableWord 40 0x2000000000 = some (.pop .none 0) := by decide
theorem test_decode_ei : decodeTableWord 40 0x2800000000 = some (.ei .none 0) := by decide
theorem test_decode_di : decodeTableWord 40 0x3000000000 = some (.di .none 0) := by decide
theorem test_decode_cla : decodeTableWord 40 0x3800000000 = some (.cla .none 0) := by decide
theorem test_decode_inc : decodeTableWord 40 0x4000000000 = some (.inc .none 0) := by decide
theorem test_decode_dec : decodeTableWord 40 0x4800000000 = some (.dec .none 0) := by decide
theorem test_decode_ld : decodeTableWord 40 0x540000001E = some (.ld .addressIndirect 30) := by decide
theorem test_decode_st : decodeTableWord 40 0x5B0000001F = some (.st .addressDirect 31) := by decide
theorem test_decode_cmp : decodeTableWord 40 0x63000000C8 = some (.cmp .addressDirect 200) := by decide
theorem test_decode_add : decodeTableWord 40 0x6B00000003 = some (.add .addressDirect 3) := by decide
theorem test_decode_sub : decodeTableWord 40 0x74FFFFFFFF = some (.sub .addressIndirect (-1)) := by decide
theorem test_decode_mul : decodeTableWord 40 0x7B000000C8 = some (.mul .addressDirect 200) := by decide
theorem test_decode_div : decodeTableWord 40 0x83000000C8 = some (.div .addressDirect 200) := by decide
theorem test_decode_mod : decodeTableWord 40 0x8B000000C8 = some (.mod .addressDirect 200) := by decide
theorem test_decode_or : decodeTableWord 40 0x93000000C8 = some (.or .addressDirect 200) := by decide
theorem test_decode_and : decodeTableWord 40 0x9B000000C8 = some (.and .addressDirect 200) := by decide
theorem test_decode_jc : decodeTableWord 40 0xA30000012C = some (.jc .addressDirect 300) := by decide
theorem test_decode_jnc : decodeTableWord 40 0xAB0000012C = some (.jnc .addressDirect 300) := by decide
theorem test_decode_jn : decodeTableWord 40 0xB30000012C = some (.jn .addressDirect 300) := by decide
theorem test_decode_jnn : decodeTableWord 40 0xBB0000012C = some (.jnn .addressDirect 300) := by decide
theorem test_decode_jz : decodeTableWord 40 0xC30000000B = some (.jz .addressDirect 11) := by decide
theorem test_decode_jnz : decodeTableWord 40 0xCB0000000E = some (.jnz .addressDirect 14) := by decide
theorem test_decode_jmp : decodeTableWord 40 0xD3000007FF = some (.jmp .addressDirect 2047) := by decide
theorem test_decode_inp : decodeTableWord 40 0xD800000000 = some (.inp .none 0) := by decide
theorem test_decode_out : decodeTableWord 40 0xE000000000 = some (.out .none 0) := by decide
theorem test_decode_char_tag : decodeTableWord 40 0x0200000061 = some (.nop .char 97) := by decide
theorem test_decode_number_tag : decodeTableWord 40 0x01FFFFFFF7 = some (.nop .number (-9)) := by decide
theorem test_decode_reserved_opcode : decode Config.default 0xE900000007 = .error .reservedOpcode := by decide
theorem test_decode_reserved_value_type : decode Config.default 0x5500000007 = .error .reservedValueType := by decide
theorem test_decode_too_wide : decode Config.default 0x10000000000 = .error .tooWide := by decide
theorem test_decode_div_absent :
    decode { Config.default with hasDiv := false } 0x83000000C8 = .error .reservedOpcode := by decide
theorem test_encode_sub : encode Config.default (.sub .addressIndirect (-1)) = 0x74FFFFFFFF := by decide

/-! ### One step of each instruction (95_test_vectors.md sections 3 to 7; the vector's number stands in the name) -/

theorem test_ld_direct_A1 :
    alu (run100 0x53000000C8 [(200, ⟨.nop, -7, .char⟩)] Cell.zero 12) = some (⟨.nop, -7, .char⟩, 10, 5, .running) :=
  by decide
theorem test_ld_indirect_A2 :
    alu (run100 0x54000000C8 [(200, ⟨.nop, 300, .addressDirect⟩), (300, ⟨.add, 0, .number⟩)] Cell.zero 6) = some (⟨.add, 0, .number⟩, 1, 6, .running) :=
  by decide
theorem test_st_direct_A3 :
    seen (run100 0x5B000000C8 [(200, ⟨.jmp, 9, .addressDirect⟩)] (num 42) 5) (fun t => (memRead t 200, t.ps.value, t.tick)) =
      some (some (num 42), 5, 6) :=
  by decide
theorem test_st_indirect_A4 :
    seen (run100 0x5C000000C8 [(200, num 300)] (num 42) 5) (fun t => (memRead t 300, memRead t 200, t.tick)) =
      some (some (num 42), some (num 300), 7) := by decide
theorem test_cmp_A7 : alu (run100 0x63000000C8 [(200, num 5)] (num 3) 8) = some (num 3, 10, 5, .running) := by decide
theorem test_cmp_overflow_A8 :
    alu (run100 0x63000000C8 [(200, num 1)] (num (-2147483648)) 0) = some (num (-2147483648), 4, 5, .running) :=
  by decide
theorem test_add_wraps_A9 :
    alu (run100 0x6B000000C8 [(200, num 1)] (num 2147483647) 0) = some (num (-2147483648), 6, 5, .running) := by decide
theorem test_add_keeps_tags_A10 :
    alu (run100 0x6B000000C8 [(200, num 1)] ⟨.nop, -1, .char⟩ 8) = some (⟨.nop, 0, .char⟩, 9, 5, .running) := by decide
theorem test_sub_A12 : alu (run100 0x73000000C8 [(200, num 5)] (num 3) 0) = some (num (-2), 2, 5, .running) := by decide
theorem test_sub_wraps_A13 :
    alu (run100 0x73000000C8 [(200, num 1)] (num (-2147483648)) 0) = some (num 2147483647, 4, 5, .running) := by decide
theorem test_mul_wraps_A14 :
    alu (run100 0x7B000000C8 [(200, num 65536)] (num 65536) 0) = some (num 0, 5, 5, .running) := by decide
theorem test_mul_A15 :
    alu (run100 0x7B000000C8 [(200, num 7)] (num (-3)) 0) = some (num (-21), 2, 5, .running) := by decide
theorem test_div_A17 :
    alu (run100 0x83000000C8 [(200, num 2)] (num (-7)) 0) = some (num (-3), 2, 5, .running) := by decide
theorem test_div_least_by_minus_one_A19 :
    alu (run100 0x83000000C8 [(200, num (-1))] (num (-2147483648)) 0) = some (num (-2147483648), 6, 5, .running) :=
  by decide
theorem test_mod_A21 :
    alu (run100 0x8B000000C8 [(200, num 2)] (num (-7)) 0) = some (num (-1), 2, 5, .running) := by decide
theorem test_mod_by_zero_A25 :
    alu (run100 0x8B000000C8 [(200, num 0)] (num 7) 0) = some (num 7, 0, 4, .fatal .divideByZero) := by decide
theorem test_or_A26 :
    alu (run100 0x93000000C8 [(200, num 3)] (num (-8)) 0) = some (num (-5), 2, 5, .running) := by decide
theorem test_or_clears_carry_A27 :
    alu (run100 0x93000000C8 [(200, num 0)] (num 0) 4) = some (num 0, 1, 5, .running) := by decide
theorem test_and_A28 : alu (run100 0x9B000000C8 [(200, num 5)] (num (-1)) 0) = some (num 5, 0, 5, .running) := by decide
theorem test_and_A29 :
    alu (run100 0x9B000000C8 [(200, num 3)] ⟨.nop, 12, .char⟩ 0) = some (⟨.nop, 0, .char⟩, 1, 5, .running) := by decide
theorem test_nop_B1 : alu (run100 0x0000000000 [] (num 9) 15) = some (num 9, 15, 4, .running) := by decide
theorem test_nop_ignores_fields_B2 :
    alu (run100 0x040000004D [] (num 9) 15) = some (num 9, 15, 4, .running) := by decide
theorem test_hlt_B3 :
    stk { run100 0x0800000000 [] Cell.zero 8 with inq := [⟨0, 97⟩] } = some (2048, 100, 3, .halt) := by decide
theorem test_hlt_nested_B4 :
    stk (stack100 0x0800000000 [] 2048 1) = some (2048, 100, 3, .fatal .nestedHalt) := by decide
theorem test_iret_outside_B5 :
    stk (stack100 0x1000000000 [] 2048 0) = some (2048, 100, 3, .interruptReturn) := by decide
theorem test_iret_B6 :
    seen (stack100 0x1000000000 [(2046, Cell.const 5), (2047, Cell.const 321)] 2046 1)
      (fun t => (t.ps.value, t.ip, t.sp.value, t.depth, t.tick)) = some (13, Cell.const 321, 2048, 0, 10) := by decide
theorem test_push_B9 :
    seen (run100 0x1800000000 [] ⟨.nop, 42, .char⟩ 3) (fun t => (t.sp.value, memRead t 2047, t.ps.value, t.tick)) =
      some (2047, some ⟨.nop, 42, .char⟩, 3, 7) := by decide
theorem test_push_past_address_zero_B10 :
    stk (stack100 0x1800000000 [] 0 0) = some (-1, -1, 6, .fatal .addressOutOfRange) := by decide
theorem test_pop_B12 :
    seen (stack100 0x2000000000 [(2047, ⟨.ld, -1, .char⟩)] 2047 0) (fun t => (t.ac, t.sp.value, t.ps.value, t.tick)) =
      some (⟨.ld, -1, .char⟩, 2048, 0, 6) := by decide
theorem test_pop_empty_B13 :
    stk (stack100 0x2000000000 [] 2048 0) = some (2048, 2048, 4, .fatal .addressOutOfRange) := by decide
theorem test_ei_B15 : alu (run100 0x2800000000 [] Cell.zero 5) = some (Cell.zero, 13, 4, .running) := by decide
theorem test_di_B17 : alu (run100 0x3000000000 [] Cell.zero 13) = some (Cell.zero, 5, 4, .running) := by decide
theorem test_cla_keeps_tags_B19 :
    alu (run100 0x3800000000 [] ⟨.ld, 77, .char⟩ 14) = some (⟨.ld, 0, .char⟩, 9, 4, .running) := by decide
theorem test_inc_wraps_B20 :
    alu (run100 0x4000000000 [] (num 2147483647) 0) = some (num (-2147483648), 6, 4, .running) := by decide
theorem test_inc_B22 :
    alu (run100 0x4000000000 [] ⟨.nop, 97, .char⟩ 0) = some (⟨.nop, 98, .char⟩, 0, 4, .running) := by decide
theorem test_dec_wraps_B23 :
    alu (run100 0x4800000000 [] (num (-2147483648)) 0) = some (num 2147483647, 4, 4, .running) := by decide
theorem test_dec_B25 : alu (run100 0x4800000000 [] (num 0) 0) = some (num (-1), 2, 4, .running) := by decide
theorem test_jc_J1 :
    jump (run100 0xA30000012C [] Cell.zero 4) = some (⟨.jc, 300, .addressDirect⟩, 100, 4, .running) := by decide
theorem test_jc_J2 : jump (run100 0xA30000012C [] Cell.zero 11) = some (Cell.const 101, 100, 3, .running) := by decide
theorem test_jnc_J3 : jump (run100 0xAB0000012C [] Cell.zero 4) = some (Cell.const 101, 100, 3, .running) := by decide
theorem test_jnc_J4 :
    jump (run100 0xAB0000012C [] Cell.zero 11) = some (⟨.jnc, 300, .addressDirect⟩, 100, 4, .running) := by decide
theorem test_jn_J5 :
    jump (run100 0xB30000012C [] Cell.zero 2) = some (⟨.jn, 300, .addressDirect⟩, 100, 4, .running) := by decide
theorem test_jn_J6 : jump (run100 0xB30000012C [] Cell.zero 13) = some (Cell.const 101, 100, 3, .running) := by decide
theorem test_jnn_J7 : jump (run100 0xBB0000012C [] Cell.zero 2) = some (Cell.const 101, 100, 3, .running) := by decide
theorem test_jnn_J8 :
    jump (run100 0xBB0000012C [] Cell.zero 13) = some (⟨.jnn, 300, .addressDirect⟩, 100, 4, .running) := by decide
theorem test_jz_J9 :
    jump (run100 0xC30000012C [] Cell.zero 1) = some (⟨.jz, 300, .addressDirect⟩, 100, 4, .running) := by decide
theorem test_jz_J10 : jump (run100 0xC30000012C [] Cell.zero 14) = some (Cell.const 101, 100, 3, .running) := by decide
theorem test_jnz_J11 : jump (run100 0xCB0000012C [] Cell.zero 1) = some (Cell.const 101, 100, 3, .running) := by decide
theorem test_jnz_J12 :
    jump (run100 0xCB0000012C [] Cell.zero 14) = some (⟨.jnz, 300, .addressDirect⟩, 100, 4, .running) := by decide
theorem test_jmp_J14 :
    jump (run100 0xD30000012C [] Cell.zero 15) = some (⟨.jmp, 300, .addressDirect⟩, 100, 4, .running) := by decide
theorem test_jmp_indirect_J15 :
    jump (at100 0xD4000000C8 [(200, num 300)]) = some (num 300, 200, 5, .running) := by decide
theorem test_in_K2 :
    seen { at100 0xD800000000 with inq := [⟨3, 97⟩] } (fun t => (t.ac, t.inq, t.tick)) =
      some (⟨.nop, 97, .char⟩, [], 4) := by decide
theorem test_in_early_K3 :
    alu { run100 0xD800000000 [] (num 5) 1 with inq := [⟨4, 97⟩] } =
      some (num 5, 1, 3, .fatal .inputUnderrun) := by decide
theorem test_out_decimal_K7 :
    seen (run100 0xE000000000 [] (num (-42)) 0) (fun t => t.out) = some [0x2D#8, 0x34, 0x32] := by decide
theorem test_out_char_K9 :
    seen (run100 0xE000000000 [] ⟨.nop, 300, .char⟩ 0) (fun t => t.out) = some [0x2C#8] := by decide
theorem test_interrupt_entry_E1 :
    seen { at100 0x2800000000 [(0, num 50)] with inq := [⟨0, 97⟩] }
      (fun t => ((t.tick, t.depth, t.ps.value), t.sp.value, memRead t 2047, t.ip)) =
      some ((16, 1, 0), 2046, some (Cell.const 101), num 50) := by decide
theorem test_unknown_opcode_X1 :
    jump (at100 0xE900000007) = some (Cell.const 101, 100, 3, .fatal .unknownOpcode) := by decide
theorem test_fetch_past_memory_X2 :
    jump (pointing 2048) = some (Cell.const 2049, 2048, 1, .fatal .addressOutOfRange) := by decide
theorem test_loader_refuses_Y4 :
    loadRefusals Config.default ⟨0, [⟨0, "HLT", none, none⟩, ⟨2048, "NOP", none, none⟩]⟩ [] = [.index] := by decide
theorem test_loader_refuses_Y8 :
    loadRefusals Config.default ⟨0, [⟨0, "HLT", none, none⟩]⟩ [⟨0, "ab"⟩] = [.event] := by decide
theorem test_tick_machine_agrees :
    seen (at100 0x54000000C8 [(200, num 300)])
      (fun t => decide ((tickRun 6 (.atReset (at100 0x54000000C8 [(200, num 300)]))).st = t)) = some true := by decide

/-! ### Witnesses: for each statement with hypotheses, data that meets them, each clause at a boundary -/

theorem witness_DecodeInvertsEncode :
    Config.default.legal = true ∧ Instr.wf Config.default (.div .addressIndirect (-2147483648)) = true := by decide
theorem witness_EncodeInvertsDecode :
    Config.default.legal = true ∧ decode Config.default 0x74FFFFFFFF = .ok (.sub .addressIndirect (-1)) := by decide
theorem witness_CellPatternFields :
    Config.default.legal = true ∧ Cell.wf Config.default ⟨.reserved31, 2147483647, .addressIndirect⟩ = true ∧
      cellOfBits Config.default 0xFC7FFFFFFF = .ok ⟨.reserved31, 2147483647, .addressIndirect⟩ := by decide
theorem witness_ReservedValueTypesRefused :
    cellOfBits Config.default 0xFFFFFFFFFF = .error .reservedValueType ∧
      cellOfBits Config.default 0x10000000000 = .error .tooWide ∧ Config.default.legal = true := by decide
theorem witness_ClassIsRangeTest :
    Opcode.cls .dec = some .addressless ∧ Opcode.cls .ld = some .address ∧ Opcode.cls .and = some .address ∧
      Opcode.cls .jc = some .branch ∧ Opcode.cls .jmp = some .branch ∧ Opcode.cls .inp = some .io ∧
      decodeControl Config.default ⟨.jmp, 0, .addressIndirect⟩ = some (.branch, true) ∧
      decodeControl Config.default ⟨.out, 0, .addressIndirect⟩ = some (.io, false) := by decide
theorem witness_WrapIsModular :
    Config.default.legal = true ∧ Config.isWord Config.default (-2147483648) = true := by decide
theorem witness_MarkedAluMovesThreeFlags :
    State.reset.cfg.legal = true ∧ aluFails .mod (num (-1)) = false ∧ Reg.ip ≠ .ps := by decide
theorem witness_BitwiseActsOnPatterns : Config.default.legal = true := by decide
theorem witness_OnlyLeastByMinusOneOverflowsDivision :
    Config.default.legal = true ∧ Config.default.divMod = .truncation ∧ Config.isWord Config.default (-2147483648) = true ∧
      Config.isWord Config.default (-1) = true ∧ (-1 : Int) ≠ 0 :=
  by decide
theorem witness_DefaultDivisionTruncates :
    Config.default.divMod = .truncation ∧ (-1 : Int) ≠ 0 ∧ (0 : Int) ≤ 0 := by decide
theorem witness_ReadIsFatalExactlyOutOfRange :
    memRead (pointing 2047) 2047 = some Cell.zero ∧ memRead (pointing 2048) 2048 = none ∧
      memRead (pointing (-1)) (-1) = none := by decide
theorem witness_WriteReplacesOneCell :
    (0 ≤ (pointing 0).ar.value ∧ (pointing 0).ar.value ≤ ((pointing 0).cfg.addrMax : Int)) ∧
      (pointing (-1)).ar.value < 0 ∧ ((pointing 2048).cfg.addrMax : Int) < (pointing 2048).ar.value := by decide
theorem witness_CanonicalMemoriesAreExtensional :
    ∃ m : Memory, Memory.wf m ∧ m ≠ [] ∧ ∀ a, Memory.read m a = Memory.read m a :=
  ⟨[(0, num 1), (2047, num 0)], by decide, by decide, fun _ => rfl⟩

/-- A program the loader accepts, with a term at the last address. -/
def loadable : Program := ⟨10, [⟨10, "LD", some 2047, some "AddressIndirect"⟩, ⟨2047, "NOP", some (-2147483648), none⟩]⟩

theorem witness_LoadGivesResetState :
    ∃ s, load Config.default loadable [⟨0, "a"⟩] = .ok s ∧ ∀ t ∈ loadable.instructions, t.index ≠ 0 :=
  ⟨_, rfl, by decide⟩
theorem witness_LoadHasInvariant :
    (Config.default.charMax : Int) ≤ Config.default.wordMax ∧ ∃ s, load Config.default loadable [⟨0, "a"⟩] = .ok s :=
  ⟨by decide, _, rfl⟩
theorem witness_StepRunsDecodedInstruction :
    (at100 0x6B000000C8).status = .running ∧ limitReached (at100 0x6B000000C8) = false ∧
      memRead (at100 0x6B000000C8) 100 = some ⟨.add, 200, .addressDirect⟩ ∧
      instrOfCell Config.default ⟨.add, 200, .addressDirect⟩ = .ok (.add .addressDirect 200) := by decide
theorem witness_StepExistsExactlyWhileRunning :
    State.reset.status = .running ∧ (State.reset.withStatus .halt).status = .halt ∧
      (State.reset.withStatus .interruptReturn).status = .interruptReturn ∧
      (State.reset.withStatus (.fatal .nestedHalt)).status = .fatal .nestedHalt := by decide

/-- The reset state with a ceiling of `n` instructions and `k` begun. -/
def limited (n k : Nat) : State :=
  { State.reset with cfg := { Config.default with instrLimit := some n }, icount := k }

/-- A state that can be interrupted: `EI` set, an event that arrives at `a`, the stack pointer, a bound of two levels. -/
def interruptible (a : Nat) (sp : Int) (depth : Nat) : State :=
  { State.reset with cfg := { Config.default with maxNest := some 2 }, ps := Cell.const 8, sp := Cell.const sp,
                     depth := depth, inq := [⟨a, 97⟩] }

theorem witness_CeilingStopsBeforeFetch :
    (limited 3 3).status = .running ∧ (limited 3 3).cfg.instrLimit = some 3 ∧ 3 ≤ (limited 3 3).icount ∧
      (limited 3 2).status = .running ∧ (limited 3 2).icount < 3 := by decide
theorem witness_CeilingStopsBeforeFetch_below :
    (∀ n, (limited 3 2).cfg.instrLimit = some n → (limited 3 2).icount < n) ∧ ∃ t, step (limited 3 2) = .next t :=
  ⟨fun n h => by cases h; decide, _, rfl⟩
theorem witness_FetchTakesThreeTicks :
    memRead (pointing 2047) (pointing 2047).ip.value = some Cell.zero ∧ (pointing (-1)).ip.value < 0 ∧
      ((pointing 2048).cfg.addrMax : Int) < (pointing 2048).ip.value := by decide
theorem witness_ReservedOpcodeStops :
    (at100 0xE900000007).status = .running ∧ limitReached (at100 0xE900000007) = false ∧
      memRead (at100 0xE900000007) 100 = some ⟨.reserved29, 7, .number⟩ ∧ 29 ≤ Opcode.number .reserved29 := by decide
theorem witness_ReservedOpcodeStops_div :
    ∃ s : State, s.status = .running ∧ limitReached s = false ∧ memRead s s.ip.value = some ⟨.div, 0, .none⟩ ∧
      Opcode.number .div = 16 ∧ s.cfg.hasDiv = false :=
  ⟨{ State.reset with cfg := { Config.default with hasDiv := false }, mem := [(0, ⟨.div, 0, .none⟩)] }, by decide, by decide,
    by decide, by decide, by decide⟩
theorem witness_StepMovesStreamsOneWay : ∃ t, step (at100 0x54000000C8) = .next t := ⟨_, rfl⟩
theorem witness_StepKeepsInvariant :
    (at100 0x53000000C8).Inv ∧ ∃ t, step (at100 0x53000000C8) = .next t := ⟨inv_of_ok (by decide), _, rfl⟩
theorem witness_StepKeepsTraceNumbered :
    (at100 0x53000000C8).TraceNumbered ∧ ∃ t, step (at100 0x53000000C8) = .next t :=
  ⟨by unfold State.TraceNumbered; decide, _, rfl⟩
theorem witness_TickMachineRefinesStep :
    ∃ t, step (at100 0x53000000C8) = .next t ∧ t.status = .running := ⟨_, rfl, by decide⟩
theorem witness_FatalCausesAreIdentified_unknown_opcode :
    (at100 0xE900000007).Inv ∧ ∃ t, step (at100 0xE900000007) = .next t ∧ t.status = .fatal .unknownOpcode :=
  ⟨inv_of_ok (by decide), seen_spec (f := State.status) (by decide)⟩
theorem witness_FatalCausesAreIdentified_address :
    (at100 0x5300000800).Inv ∧ ∃ t, step (at100 0x5300000800) = .next t ∧ t.status = .fatal .addressOutOfRange :=
  ⟨inv_of_ok (by decide), seen_spec (f := State.status) (by decide)⟩
theorem witness_FatalCausesAreIdentified_input :
    (at100 0xD800000000).Inv ∧ ∃ t, step (at100 0xD800000000) = .next t ∧ t.status = .fatal .inputUnderrun :=
  ⟨inv_of_ok (by decide), seen_spec (f := State.status) (by decide)⟩
theorem witness_FatalCausesAreIdentified_limit :
    (limited 3 3).Inv ∧ ∃ t, step (limited 3 3) = .next t ∧ t.status = .fatal .instructionLimitExceeded :=
  ⟨inv_of_ok (by decide), seen_spec (f := State.status) (by decide)⟩
theorem witness_FatalCausesAreIdentified_nested_halt :
    (stack100 0x0800000000 [] 2048 1).Inv ∧ ∃ t, step (stack100 0x0800000000 [] 2048 1) = .next t ∧ t.status = .fatal .nestedHalt :=
  ⟨inv_of_ok (by decide), seen_spec (f := State.status) (by decide)⟩
theorem witness_FatalCausesAreIdentified_divide :
    (at100 0x83000000C8).Inv ∧ ∃ t, step (at100 0x83000000C8) = .next t ∧ t.status = .fatal .divideByZero :=
  ⟨inv_of_ok (by decide), seen_spec (f := State.status) (by decide)⟩
theorem witness_FatalCausesAreIdentified_nest_depth :
    (interruptible 0 2048 2).Inv ∧ ∃ t, step (interruptible 0 2048 2) = .next t ∧ t.status = .fatal .nestDepthExceeded :=
  ⟨inv_of_ok (by decide), seen_spec (f := State.status) (by decide)⟩
theorem witness_OnlyInAndOutMovePorts_in :
    ∃ t, step { at100 0xD800000000 with inq := [⟨3, 97⟩] } = .next t ∧ t.inq ≠ [⟨3, 97⟩] := ⟨_, rfl, by decide⟩
theorem witness_OnlyInAndOutMovePorts_out : ∃ t, step (at100 0xE000000000) = .next t ∧ t.out ≠ [] := ⟨_, rfl, by decide⟩
theorem witness_NothingFollowsExpectedStop :
    (∃ t, step (at100 0x0800000000) = .next t ∧ t.status = .halt) ∧
      ∃ t, step (at100 0x1000000000) = .next t ∧ t.status = .interruptReturn := ⟨⟨_, rfl, by decide⟩, _, rfl, by decide⟩
theorem witness_InterruptTakenExactlyWhenDue :
    (interruptible 0 2048 0).status = .running ∧ (interruptible 0 2048 0).inq = [⟨0, 97⟩] ∧
      0 ≤ (interruptible 0 2048 0).tick ∧ psBit (interruptible 0 2048 0) 3 = true ∧ psBit State.reset 3 = false :=
  by decide
theorem witness_InterruptTakenExactlyWhenDue_not_arrived :
    ¬((∃ e rest, (interruptible 1 2048 0).inq = e :: rest ∧ e.arrivesAt ≤ (interruptible 1 2048 0).tick) ∧
      psBit (interruptible 1 2048 0) 3 = true) := by
  rintro ⟨⟨e, rest, h, h2⟩, -⟩; cases h; revert h2; decide
theorem witness_InterruptEntrySavesAndVectors_sp_2 :
    (interruptible 0 2 1).cfg.legal = true ∧ nestExceeded (interruptible 0 2 1) = false ∧
      2 ≤ (interruptible 0 2 1).sp.value ∧ (interruptible 0 2 1).sp.value ≤ (2047 : Int) + 1 := by decide
theorem witness_InterruptEntrySavesAndVectors_sp_2048 :
    (interruptible 0 2048 0).cfg.legal = true ∧ nestExceeded (interruptible 0 2048 0) = false ∧
      2 ≤ (interruptible 0 2048 0).sp.value ∧ (interruptible 0 2048 0).sp.value ≤ (2047 : Int) + 1 := by decide
theorem witness_InterruptEntryStops :
    (interruptible 0 2 2).cfg.legal = true ∧ (interruptible 0 2 2).cfg.maxNest = some 2 ∧ 2 ≤ (interruptible 0 2 2).depth ∧
      (interruptible 0 0 1).sp.value = 0 ∧ (interruptible 0 1 1).sp.value = 1 :=
  by decide
theorem witness_InterruptEntryStops_below_bound :
    ∀ n, (interruptible 0 1 1).cfg.maxNest = some n → (interruptible 0 1 1).depth < n := fun n h => by cases h; decide
theorem witness_ExitUndoesEntry :
    ∃ s u : State, s.cfg.legal = true ∧ s.ps.wf s.cfg = true ∧ flagEI s = true ∧ 2 ≤ s.sp.value ∧
      s.sp.value ≤ (s.cfg.addrMax : Int) + 1 ∧ interruptEntry s = .go u ∧ u.cfg = u.cfg :=
  ⟨interruptible 0 2 1, _, by decide, by decide, by decide, by decide, by decide, rfl, rfl⟩
theorem witness_PushThenPopIsSymmetric :
    Config.default.legal = true ∧ Reg.ip ∈ [Reg.ac, .ip, .ps] ∧ Reg.ps ∈ [Reg.ac, .ps, .ip] ∧ 1 ≤ (pointing 1).sp.value ∧
      (pointing 2048).sp.value ≤ ((pointing 2048).cfg.addrMax : Int) + 1 := by decide

/-- Memory with a pointer at 200 to the last address, and a word there. -/
def pointed (v : Int) : State := { State.reset with mem := [(200, num 2047), (2047, num v)] }

theorem witness_LdLoadsWholeCell :
    (pointed 0).cfg.legal = true ∧ Cell.wf Config.default (num (-2147483648)) = true ∧
      Operand (pointed (-2147483648)) ⟨.ld, 200, .addressIndirect⟩ (num 2047) (num (-2147483648)) ∧
      Operand (pointed (-2147483648)) ⟨.ld, 2047, .addressDirect⟩ ⟨.ld, 2047, .addressDirect⟩ (num (-2147483648)) := 
    ⟨by decide, by decide, ⟨rfl, rfl⟩, ⟨rfl, rfl⟩⟩
theorem witness_StStoresWholeCell :
    Operand (pointed 5) ⟨.st, 200, .addressIndirect⟩ (num 2047) (num 5) ∧
      Operand (pointed 5) ⟨.st, 2047, .addressDirect⟩ ⟨.st, 2047, .addressDirect⟩ (num 5) := 
    ⟨⟨rfl, rfl⟩, ⟨rfl, rfl⟩⟩
theorem witness_CmpSetsFlagsOnly :
    Config.default.legal = true ∧
      Operand (pointed (-2147483648)) ⟨.cmp, 200, .addressIndirect⟩ (num 2047) (num (-2147483648)) ∧
      Operand (pointed (-2147483648)) ⟨.cmp, 2047, .addressDirect⟩ ⟨.cmp, 2047, .addressDirect⟩ (num (-2147483648)) := 
    ⟨by decide, ⟨rfl, rfl⟩, ⟨rfl, rfl⟩⟩
theorem witness_AddSubMulComplete :
    Config.default.legal = true ∧
      Operand (pointed 2147483647) ⟨.add, 200, .addressIndirect⟩ (num 2047) (num 2147483647) ∧
      Operand (pointed 2147483647) ⟨.add, 2047, .addressDirect⟩ ⟨.add, 2047, .addressDirect⟩ (num 2147483647) ∧
      Operand (pointed 2147483647) ⟨.sub, 200, .addressIndirect⟩ (num 2047) (num 2147483647) ∧
      Operand (pointed 2147483647) ⟨.sub, 2047, .addressDirect⟩ ⟨.sub, 2047, .addressDirect⟩ (num 2147483647) ∧
      Operand (pointed 2147483647) ⟨.mul, 200, .addressIndirect⟩ (num 2047) (num 2147483647) ∧
      Operand (pointed 2147483647) ⟨.mul, 2047, .addressDirect⟩ ⟨.mul, 2047, .addressDirect⟩ (num 2147483647) := 
    ⟨by decide, ⟨rfl, rfl⟩, ⟨rfl, rfl⟩, ⟨rfl, rfl⟩, ⟨rfl, rfl⟩, ⟨rfl, rfl⟩, ⟨rfl, rfl⟩⟩
theorem witness_DivModComplete :
    (num (-1)).value ≠ 0 ∧
      Operand (pointed (-1)) ⟨.div, 200, .addressIndirect⟩ (num 2047) (num (-1)) ∧
      Operand (pointed (-1)) ⟨.div, 2047, .addressDirect⟩ ⟨.div, 2047, .addressDirect⟩ (num (-1)) ∧
      Operand (pointed (-1)) ⟨.mod, 200, .addressIndirect⟩ (num 2047) (num (-1)) ∧
      Operand (pointed (-1)) ⟨.mod, 2047, .addressDirect⟩ ⟨.mod, 2047, .addressDirect⟩ (num (-1)) := 
    ⟨by decide, ⟨rfl, rfl⟩, ⟨rfl, rfl⟩, ⟨rfl, rfl⟩, ⟨rfl, rfl⟩⟩
theorem witness_DivisionByZeroStops :
    (num 0).value = 0 ∧
      Operand (pointed 0) ⟨.div, 200, .addressIndirect⟩ (num 2047) (num 0) ∧
      Operand (pointed 0) ⟨.div, 2047, .addressDirect⟩ ⟨.div, 2047, .addressDirect⟩ (num 0) ∧
      Operand (pointed 0) ⟨.mod, 200, .addressIndirect⟩ (num 2047) (num 0) ∧
      Operand (pointed 0) ⟨.mod, 2047, .addressDirect⟩ ⟨.mod, 2047, .addressDirect⟩ (num 0) := 
    ⟨by decide, ⟨rfl, rfl⟩, ⟨rfl, rfl⟩, ⟨rfl, rfl⟩, ⟨rfl, rfl⟩⟩
theorem witness_OrAndComplete :
    Config.default.legal = true ∧
      Operand (pointed (-1)) ⟨.or, 200, .addressIndirect⟩ (num 2047) (num (-1)) ∧
      Operand (pointed (-1)) ⟨.or, 2047, .addressDirect⟩ ⟨.or, 2047, .addressDirect⟩ (num (-1)) ∧
      Operand (pointed (-1)) ⟨.and, 200, .addressIndirect⟩ (num 2047) (num (-1)) ∧
      Operand (pointed (-1)) ⟨.and, 2047, .addressDirect⟩ ⟨.and, 2047, .addressDirect⟩ (num (-1)) := 
    ⟨by decide, ⟨rfl, rfl⟩, ⟨rfl, rfl⟩, ⟨rfl, rfl⟩, ⟨rfl, rfl⟩⟩
theorem witness_AddressFaultsInPrefix :
    (Instr.and .addressIndirect 2048).cell.op.cls = some .address ∧
      resolvedCell State.reset (Instr.and .addressIndirect 2048).cell = none ∧
      resolvedCell State.reset (Instr.ld .addressIndirect (-1)).cell = none := by decide
theorem witness_AddressFaultsInPrefix_operand :
    resolvedCell State.reset (Instr.st .none 2048).cell = some ⟨.st, 2048, .none⟩ ∧ memRead State.reset 2048 = none ∧
      resolvedCell (at100 0 [(200, num (-1))]) (Instr.st .addressIndirect 200).cell = some (num (-1)) ∧
      memRead (at100 0 [(200, num (-1))]) (num (-1)).value = none := by decide
theorem witness_HltEndsRun : (stack100 0 [] 0 0).depth = 0 ∧ (stack100 0 [] 0 1).depth ≠ 0 := by decide
theorem witness_IretOutsideHandlerEndsRun : (stack100 0 [] 0 0).depth = 0 := by decide
theorem witness_IretReturnsFromHandler :
    (stack100 0 [] 2046 1).cfg.legal = true ∧ 0 < (stack100 0 [] 2046 1).depth ∧
      memRead (stack100 0 [] 2046 1) (stack100 0 [] 2046 1).sp.value = some Cell.zero ∧
      memRead (stack100 0 [] 2046 1) ((stack100 0 [] 2046 1).sp.value + 1) = some Cell.zero := by decide
theorem witness_PushStoresAtLoweredSp :
    Config.default.legal = true ∧ 1 ≤ (pointing 1).sp.value ∧ (pointing 1).sp.value ≤ ((pointing 1).cfg.addrMax : Int) + 1 ∧
      (pointing 2048).sp.value ≤ ((pointing 2048).cfg.addrMax : Int) + 1 :=
  by decide
theorem witness_PopLoadsTopOfStack :
    Config.default.legal = true ∧ memRead (pointing 2047) (pointing 2047).sp.value = some Cell.zero ∧
      memRead (pointing 0) (pointing 0).sp.value = some Cell.zero := by decide
theorem witness_StackAccessOutOfRangeStops :
    Config.default.legal = true ∧ (pointing 0).sp.wf (pointing 0).cfg = true ∧ (pointing 0).sp.value ≤ 0 ∧
      ((pointing 2049).cfg.addrMax : Int) + 1 < (pointing 2049).sp.value ∧ (pointing 2049).sp.wf (pointing 2049).cfg = true ∧
      memRead (pointing 2048) (pointing 2048).sp.value = none ∧ memRead (pointing (-1)) (pointing (-1)).sp.value = none :=
  by decide
theorem witness_StackAccessOutOfRangeStops_iret :
    0 < (stack100 0 [] 2047 1).depth ∧
      memRead (stack100 0 [] 2047 1) (stack100 0 [] 2047 1).sp.value = some Cell.zero ∧
      memRead (stack100 0 [] 2047 1) ((stack100 0 [] 2047 1).sp.value + 1) = none := by decide
theorem witness_EiDiMoveOneBit : State.reset.cfg.legal = true := by decide
theorem witness_ClaIncDecComplete : (pointing (-1)).cfg.legal = true := by decide
theorem witness_BranchesFollowConditionTable :
    resolvedCell (pointed 0) ⟨.jc, 200, .addressIndirect⟩ = some (num 2047) ∧
      resolvedCell (pointed 0) ⟨.jnc, 200, .addressIndirect⟩ = some (num 2047) ∧
      resolvedCell (pointed 0) ⟨.jn, 200, .addressIndirect⟩ = some (num 2047) ∧
      resolvedCell (pointed 0) ⟨.jnn, 200, .addressIndirect⟩ = some (num 2047) ∧
      resolvedCell (pointed 0) ⟨.jz, 200, .addressIndirect⟩ = some (num 2047) ∧
      resolvedCell (pointed 0) ⟨.jnz, 5000, .addressDirect⟩ = some ⟨.jnz, 5000, .addressDirect⟩ ∧
      resolvedCell (pointed 0) ⟨.jmp, (-1), .none⟩ = some ⟨.jmp, -1, .none⟩ := by decide
theorem witness_BranchPointerOutOfRangeStops :
    (Instr.jz .addressIndirect 2048).cell.op.cls = some .branch ∧
      (State.reset.cfg.addrMax : Int) < (Instr.jz .addressIndirect 2048).cell.value ∧
      (Instr.jmp .addressIndirect (-1)).cell.op.cls = some .branch ∧ (Instr.jmp .addressIndirect (-1)).cell.value < 0 :=
  by decide
theorem witness_InReadsReadyCharacter :
    (interruptible 0 0 0).inq = [⟨0, 97⟩] ∧ 0 ≤ (interruptible 0 0 0).tick := by decide
theorem witness_InWithoutInputStops :
    (∀ e rest, (interruptible 1 0 0).inq = e :: rest → (interruptible 1 0 0).tick < e.arrivesAt) ∧
      ∀ e rest, State.reset.inq = e :: rest → State.reset.tick < e.arrivesAt := 
    ⟨fun e rest h => (by cases h; decide), fun e rest h => (by cases h)⟩
theorem witness_OutWritesAccumulator : (num 10).value = 10 ∧ ¬((num 11).vt = .char ∨ (num 11).value = 10) := by decide
theorem witness_DecimalTextIsShortest : (1 : Nat) ≠ 0 ∧ 0 < (1 : Nat) := by decide

end Sys2Proof.Tests
end

/-! PROOFS. The state across a whole step (10_state.md): what every signal of a step keeps, and so every step (the
invariant; the clock and the streams), and which phase of a step moves a port. -/

namespace Sys2Proof.Machine

open Relation (ReflTransGen)

/-! ### Every signal keeps the invariant -/

/-- An ALU result is a word, whatever the operands: the ALU wraps (40_cycle_alu.md R61). -/
theorem alu_res_wf (c : Config) (hc : c.legal = true) (op : AluOp) (l r : Cell) : (alu c op l r).res.wf c = true :=
  isWord_wrap c hc _

theorem mergeFlags_wf (c : Config) (hc : c.legal = true) (ps : Cell) (z n cy : Bool) :
    (mergeFlags c ps z n cy).wf c = true :=
  isWord_sextW c hc _ (mergeFlags_pattern_lt c hc ps z n cy)

/-- Every number from 0 to `ADDR_MAX` is a word value (00_scope.md R4), `INT_VECTOR` and the zero cell's 0 among them. -/
theorem isWord_of_le_addrMax (c : Config) (hc : c.legal = true) (n : Nat) (h : n ≤ c.addrMax) :
    c.isWord (n : Int) = true := by
  have ha := addrMax_of_legal c hc
  have hw : c.wordMax = (c.half : Int) - 1 := rfl
  rw [isWord_iff]; omega

/-- Memory whose listed cells are words holds words only: an unlisted address reads as the zero cell. -/
theorem State.Inv.memRead_wf {s : State} (h : s.Inv) {a : Int} {x : Cell} (hx : memRead s a = some x) :
    x.wf s.cfg = true := by
  obtain ⟨-, rfl⟩ := (memRead_eq_some s a x).mp hx
  rcases Memory.read_mem s.mem a.toNat with hz | hm
  · rw [hz]; exact isWord_of_le_addrMax s.cfg h.legal 0 (Nat.zero_le _)
  · exact h.memCells _ hm

theorem State.Inv.reg_wf {s : State} (h : s.Inv) (r : Reg) : (s.reg r).wf s.cfg = true := by
  cases r with
  | ac => exact h.ac
  | ip => exact h.ip
  | cr => exact h.cr
  | ps => exact h.ps
  | sp => exact h.sp
  | dr => exact h.dr
  | ar => exact h.ar

theorem State.Inv.setReg {s : State} (h : s.Inv) (r : Reg) {x : Cell} (hx : x.wf s.cfg = true) : (s.setReg r x).Inv := by
  cases r with
  | ac => exact { h with ac := hx }
  | ip => exact { h with ip := hx }
  | cr => exact { h with cr := hx }
  | ps => exact { h with ps := hx }
  | sp => exact { h with sp := hx }
  | dr => exact { h with dr := hx }
  | ar => exact { h with ar := hx }

theorem State.Inv.storeCell {s : State} (h : s.Inv) {a : Int} {x : Cell} (ha : inRange s a = true)
    (hx : x.wf s.cfg = true) : (s.storeCell a x).Inv :=
  { h with
    memForm := Memory.wf_write s.mem a.toNat x h.memForm
    memCells := fun e he => by
      rcases Memory.mem_write s.mem a.toNat x e he with ⟨rfl, -⟩ | he
      · exact hx
      · exact h.memCells e he
    memRange := fun e he => by
      rcases Memory.mem_write s.mem a.toNat x e he with ⟨rfl, -⟩ | he
      · have hr := (inRange_iff s a).mp ha
        show a.toNat ≤ s.cfg.addrMax
        omega
      · exact h.memRange e he }

/-- The head event leaves the queue: it is a word, and so are the characters that still wait. -/
theorem State.Inv.takeInput {s : State} (h : s.Inv) {e : InputEvent} {rest : List InputEvent} (hq : s.inq = e :: rest) :
    ({ s with inq := rest }.setReg .ac ⟨.nop, e.char, .char⟩).Inv := by
  have hchars : ∀ d ∈ e :: rest, s.cfg.isWord (d.char : Int) = true := hq ▸ h.chars
  have hrest : ({ s with inq := rest } : State).Inv :=
    { h with chars := fun d hd => hchars d (List.mem_cons_of_mem e hd) }
  exact hrest.setReg .ac (hchars e List.mem_cons_self)

/-- Below the ceiling one more instruction may be counted (40_cycle_alu.md R74). -/
theorem State.Inv.countInstruction {s : State} (h : s.Inv) (hl : limitReached s = false) : s.countInstruction.Inv :=
  { h with
    limit := fun n hn => by
      have hlt : s.icount < n := by simpa [limitReached, show s.cfg.instrLimit = some n from hn] using hl
      exact hlt }

/-- Below the bound the depth may be raised (60_exceptions.md R133). -/
theorem State.Inv.enterHandler {s : State} (h : s.Inv) (hn : nestExceeded s = false) : s.enterHandler.Inv :=
  { h with
    nest := fun n hm => by
      have hlt : s.depth < n := by simpa [nestExceeded, show s.cfg.maxNest = some n from hm] using hn
      exact hlt }

theorem State.Inv.leaveHandler {s : State} (h : s.Inv) : s.leaveHandler.Inv :=
  { h with nest := fun n hm => (Nat.sub_le _ _).trans (h.nest n hm) }

theorem State.Inv.withStatus {s : State} (h : s.Inv) (st : Status) : (s.withStatus st).Inv := { h with }

theorem Data.keeps_inv {s t : State} (hst : Data s t) (h : s.Inv) : t.Inv := by
  cases hst with
  | latch dst src _ => exact h.setReg dst (h.reg_wf src)
  | alu r op l right _ => exact h.setReg r (alu_res_wf s.cfg h.legal op l right)
  | flags op l r => exact h.setReg .ps (mergeFlags_wf s.cfg h.legal s.ps _ _ _)
  | read x hx => exact h.setReg .dr (h.memRead_wf hx)
  | store ha => exact h.storeCell ha h.dr
  | vector =>
    exact h.setReg .ar (isWord_of_le_addrMax s.cfg h.legal _ (intVector_of_legal s.cfg h.legal))
  | input e rest hq _ _ => exact h.takeInput hq
  | output _ => exact { h with }
  | tick g => exact { h with }

theorem Signal.keeps_inv {s t : State} (hst : Signal s t) (h : s.Inv) : t.Inv := by
  cases hst with
  | data hd => exact hd.keeps_inv h
  | loadCr => exact h.setReg .cr h.dr
  | count hl => exact h.countInstruction hl
  | enter hn => exact h.enterHandler hn
  | leave _ _ => exact h.leaveHandler
  | block => exact { h with }
  | stop st _ => exact h.withStatus st
  | limit _ => exact h.withStatus _
  | nest _ => exact h.withStatus _
  | opcode _ => exact h.withStatus _

/-- Settles O25, signal by signal: a step is a sequence of signals, and each keeps the invariant. -/
theorem stepKeepsInvariant : Obligations.StepKeepsInvariant :=
  fun _ _ hs h => step_invariant State.Inv (fun _ _ hst => hst.keeps_inv) h hs

/-! ### Every signal moves the clock and the streams one way -/

/-- `t` can come after `s` in a run: the same parameters, a clock not lower, and the streams moved one way only
(10_state.md R20 to R22, R27). -/
structure Later (s t : State) : Prop where
  cfg : t.cfg = s.cfg
  tick : s.tick ≤ t.tick
  inq : t.inq <:+ s.inq
  out : s.out <+: t.out
  trace : s.trace <+: t.trace

theorem Later.refl (s : State) : Later s s where
  cfg := rfl
  tick := le_rfl
  inq := List.suffix_rfl
  out := List.prefix_rfl
  trace := List.prefix_rfl

theorem Later.trans {s t u : State} (h : Later s t) (k : Later t u) : Later s u where
  cfg := k.cfg.trans h.cfg
  tick := h.tick.trans k.tick
  inq := k.inq.trans h.inq
  out := h.out.trans k.out
  trace := h.trace.trans k.trace

theorem later_setReg (s : State) (r : Reg) (x : Cell) : Later s (s.setReg r x) := by
  cases r <;> exact { Later.refl s with }

theorem later_withStatus (s : State) (st : Status) : Later s (s.withStatus st) := { Later.refl s with }

theorem Data.later {s t : State} (h : Data s t) : Later s t := by
  cases h with
  | latch dst src _ => exact later_setReg s dst _
  | alu r op l right _ => exact later_setReg s r _
  | flags op l r => exact later_setReg s .ps _
  | read x _ => exact later_setReg s .dr x
  | store _ => exact { Later.refl s with }
  | vector => exact later_setReg s .ar _
  | input e rest hq _ _ => exact { Later.refl s with inq := ⟨[e], hq.symm⟩ }
  | output _ => exact { Later.refl s with out := List.prefix_append s.out _ }
  | tick g => exact { Later.refl s with tick := Nat.le_succ s.tick, trace := List.prefix_append s.trace _ }

theorem Signal.later {s t : State} (h : Signal s t) : Later s t := by
  cases h with
  | data hd => exact hd.later
  | loadCr => exact later_setReg s .cr s.dr
  | count _ => exact { Later.refl s with }
  | enter _ => exact { Later.refl s with }
  | leave _ _ => exact { Later.refl s with }
  | block => exact { Later.refl s with trace := List.prefix_append s.trace _ }
  | stop st _ => exact later_withStatus s st
  | limit _ => exact later_withStatus s _
  | nest _ => exact later_withStatus s _
  | opcode _ => exact later_withStatus s _

/-- Settles O24, signal by signal: `Later` is transitive, and each signal of a step moves to a later state. -/
theorem stepMovesStreamsOneWay : Obligations.StepMovesStreamsOneWay := by
  intro s t h
  obtain ⟨hcfg, htick, hinq, hout, htrace⟩ :=
    step_invariant (Later s) (fun _ _ hst hs => hs.trans hst.later) h (Later.refl s)
  exact ⟨hcfg, htick, hinq, hout, htrace⟩

/-! ### Only `IN` and `OUT` move the ports -/

/-- The instruction in `CR` and both ports are as they were. -/
def KeepsCrPorts (s u : State) : Prop := u.cr = s.cr ∧ KeepsPorts s u

/-- A datapath signal moves a port only for the one instruction of that port. -/
theorem Data.ports {s t : State} (h : Data s t) :
    (t.inq = s.inq ∨ s.cr.op = .inp) ∧ (t.out = s.out ∨ s.cr.op = .out) := by
  cases h with
  | input e rest hq _ hc => exact ⟨.inr hc, .inl rfl⟩
  | output hc => exact ⟨.inl rfl, .inr hc⟩
  | _ => exact ⟨.inl (by simp), .inl (by simp)⟩

theorem data_ports {s t : State} (h : ReflTransGen Data s t) :
    (t.inq = s.inq ∨ s.cr.op = .inp) ∧ (t.out = s.out ∨ s.cr.op = .out) := by
  induction h with
  | refl => exact ⟨.inl rfl, .inl rfl⟩
  | @tail u v hsu huv ih =>
    obtain ⟨-, -, -, -, hcr⟩ := data_frame hsu
    obtain ⟨hinq, hout⟩ := huv.ports
    rw [hcr] at hinq hout
    constructor
    · rcases ih.1 with e | hc
      · rwa [← e]
      · exact .inr hc
    · rcases ih.2 with e | hc
      · rwa [← e]
      · exact .inr hc

/-- What ends a meaning after its datapath signals, a stop or the lowered depth, moves neither `CR` nor a port. -/
theorem Ends.data {s t : State} (h : Ends s t) : ∃ u, ReflTransGen Data s u ∧ KeepsCrPorts u t := by
  rcases h with h | ⟨u, st, h, -, rfl⟩ | ⟨u, h, -, -, rfl⟩
  · exact ⟨t, h, rfl, rfl, rfl⟩
  · exact ⟨u, h, rfl, rfl, rfl⟩
  · exact ⟨u, h, rfl, rfl, rfl⟩

/-- A meaning keeps `CR`, and moves a port only if it is the meaning of that port's instruction. -/
theorem Ends.ports {s t : State} (h : Ends s t) :
    t.cr = s.cr ∧ (t.inq = s.inq ∨ s.cr.op = .inp) ∧ (t.out = s.out ∨ s.cr.op = .out) := by
  obtain ⟨u, hu, hcr, hinq, hout⟩ := h.data
  obtain ⟨-, -, -, -, hcru⟩ := data_frame hu
  rw [hinq, hout]
  exact ⟨hcr.trans hcru, data_ports hu⟩

/-- Everything the input latch can do (44_io.md R114). -/
theorem latchInput_spec (s : State) :
    (∃ e rest, s.inq = e :: rest ∧ e.arrivesAt ≤ s.tick ∧
      latchInput s = .go ({ s with inq := rest }.setReg .ac ⟨.nop, e.char, .char⟩)) ∨
    (inputReady s = false ∧ latchInput s = .stop (s.withStatus (.fatal .inputUnderrun))) := by
  unfold latchInput inputReady
  cases hq : s.inq with
  | nil => exact .inr ⟨rfl, rfl⟩
  | cons e rest =>
    by_cases ha : e.arrivesAt ≤ s.tick
    · exact .inl ⟨e, rest, rfl, ha, if_pos ha⟩
    · exact .inr ⟨decide_eq_false ha, if_neg ha⟩

/-- `IN` takes the head event or nothing (10_state.md R21). -/
theorem exec_inp_inq (t : ValueType) (v : Word) (s : State) :
    ∃ u, exec (.inp t v) s = .next u ∧ (u.inq = s.inq ∨ ∃ e, s.inq = e :: u.inq) := by
  refine ⟨(x1In (s.present ⟨.inp, v, t⟩)).state, rfl, ?_⟩
  unfold x1In
  rcases latchInput_spec (s.present ⟨.inp, v, t⟩) with ⟨e, rest, hq, -, hl⟩ | ⟨-, hl⟩ <;> rw [hl]
  · exact .inr ⟨e, hq⟩
  · exact .inl rfl

/-- The start of a cycle moves neither port: it counts and fetches. -/
theorem cycleStart_keepsPorts (s : State) : KeepsPorts s (cycleStart s).state := by
  rcases cycleStart_spec s with ⟨-, e⟩ | ⟨-, ⟨tr, -, -, e⟩ | ⟨x, tr, -, -, e⟩⟩ <;> rw [e] <;> exact ⟨rfl, rfl⟩

/-- The taking of an interrupt, completed or stopped anywhere, moves neither `CR` nor a port: the event that caused it
waits for the handler's `IN`. -/
theorem interruptEntry_keepsCrPorts (s : State) : KeepsCrPorts s (interruptEntry s).state := by
  cases hn : nestExceeded s with
  | true => rw [interruptEntry_nest s hn]; exact ⟨rfl, rfl, rfl⟩
  | false =>
    cases h1 : inRange s (entrySp1 s).value with
    | false => obtain ⟨tr, -, e⟩ := interruptEntry_noRoom1 s hn h1; rw [e]; exact ⟨rfl, rfl, rfl⟩
    | true =>
      cases h2 : inRange s (entrySp2 s).value with
      | false => obtain ⟨tr, -, e⟩ := interruptEntry_noRoom2 s hn h1 h2; rw [e]; exact ⟨rfl, rfl, rfl⟩
      | true =>
        cases hv : inRange s s.cfg.intVector with
        | false => obtain ⟨tr, -, e⟩ := interruptEntry_noVector s hn h1 h2 hv; rw [e]; exact ⟨rfl, rfl, rfl⟩
        | true => obtain ⟨tr, -, e⟩ := interruptEntry_go s hn h1 h2 hv _ rfl; rw [e]; exact ⟨rfl, rfl, rfl⟩

theorem interruptCheck_keepsCrPorts (s : State) : KeepsCrPorts s (interruptCheck s).state := by
  unfold interruptCheck
  split
  · have h := interruptEntry_keepsCrPorts s
    cases he : interruptEntry s with
    | go t => rw [he] at h; exact h
    | stop t => rw [he] at h; exact h
  · exact ⟨rfl, rfl, rfl⟩

/-- What follows a meaning moves neither `CR` nor a port. -/
theorem completeCycle_keepsCrPorts (s : State) : KeepsCrPorts s (completeCycle s) := by
  unfold completeCycle
  cases s.status with
  | running => exact interruptCheck_keepsCrPorts s.endBlock
  | halt => exact ⟨rfl, rfl, rfl⟩
  | interruptReturn => exact ⟨rfl, rfl, rfl⟩
  | fatal c => exact ⟨rfl, rfl, rfl⟩

/-- The meaning `v` of the instruction in `CR` takes from `INQ` for `IN` only, and then exactly the head. -/
theorem meaning_inq {u v : State} {i : Instr} (hi : instrOfCell u.cfg u.cr = .ok i) (hv : exec i u = .next v)
    (hends : Ends u v) : v.inq = u.inq ∨ (u.cr.op = .inp ∧ ∃ e, u.inq = e :: v.inq) := by
  obtain ⟨-, hsame | hop, -⟩ := hends.ports
  · exact .inl hsame
  · obtain rfl : Instr.inp u.cr.vt u.cr.value = i := by simpa [instrOfCell, hop] using hi
    obtain ⟨w, hw, hmove⟩ := exec_inp_inq u.cr.vt u.cr.value u
    obtain rfl : w = v := by rw [hw] at hv; cases hv; rfl
    exact hmove.imp_right fun he => ⟨hop, he⟩

/-- Settles O29: of a step's phases only the meaning moves a port, and it moves it for that port's instruction. -/
theorem onlyInAndOutMovePorts : Obligations.OnlyInAndOutMovePorts := by
  intro s t h
  have hstart := cycleStart_keepsPorts s
  obtain ⟨-, e | ⟨u, e, -, ⟨-, rfl⟩ | ⟨i, v, hi, -, hv, hends, rfl⟩⟩⟩ := step_cases h <;> rw [e] at hstart <;>
    obtain ⟨hinq, hout⟩ := hstart
  · exact ⟨absurd hinq, absurd hout⟩
  · exact ⟨absurd hinq, absurd hout⟩
  · obtain ⟨hcr, -, hvout⟩ := hends.ports
    obtain ⟨hcr', hinq', hout'⟩ := completeCycle_keepsCrPorts v
    have hvinq := meaning_inq hi hv hends
    rw [hcr', hinq', hout', hcr, ← show u.inq = s.inq from hinq, ← show u.out = s.out from hout]
    exact ⟨hvinq.resolve_left, hvout.resolve_left⟩

end Sys2Proof.Machine

/-! PROOFS. Memory (20_memory.md): the two memory signals and their range check, and why the canonical form of the model
(log 3) is one: its entries are fixed by what it reads, and their order by their addresses. -/

namespace Sys2Proof.Machine

/-! ### A canonical memory is what it reads -/

/-- Under rising addresses no earlier entry hides a later one. -/
theorem Memory.read_of_mem {m : Memory} (hm : m.Pairwise fun d e => d.1 < e.1) {e : Nat × Cell} (he : e ∈ m) :
    Memory.read m e.1 = e.2 := by
  induction m with
  | nil => cases he
  | cons d m ih =>
    obtain ⟨hd, htail⟩ := List.pairwise_cons.mp hm
    rw [Memory.read_cons]
    rcases List.mem_cons.mp he with rfl | he
    · exact if_pos rfl
    · rw [if_neg (hd e he).ne, ih htail he]

/-- The entries of a canonical memory are the non-zero cells it reads, each at its address. -/
theorem Memory.mem_iff_read {m : Memory} (hm : Memory.wf m) (e : Nat × Cell) :
    e ∈ m ↔ e.2 ≠ Cell.zero ∧ Memory.read m e.1 = e.2 := by
  obtain ⟨hrising, hnonzero⟩ := hm
  refine ⟨fun he => ⟨hnonzero e he, Memory.read_of_mem hrising he⟩, fun ⟨hz, hr⟩ => ?_⟩
  have hread := Memory.read_mem m e.1
  rw [hr] at hread
  exact hread.resolve_left hz

/-- Two lists of entries with rising addresses are equal when they have the same entries. -/
theorem Memory.eq_of_mem_iff {m n : Memory} (hm : m.Pairwise fun d e => d.1 < e.1)
    (hn : n.Pairwise fun d e => d.1 < e.1) (h : ∀ e, e ∈ m ↔ e ∈ n) : m = n := by
  have nodup : ∀ {l : Memory}, (l.Pairwise fun d e => d.1 < e.1) → l.Nodup :=
    fun hl => hl.imp fun hlt heq => hlt.ne (congrArg Prod.fst heq)
  have hperm : m.Perm n := (List.perm_ext_iff_of_nodup (nodup hm) (nodup hn)).mpr h
  exact hperm.eq_of_pairwise (fun d e _ _ hde hed => absurd hde hed.asymm) hm hn

/-- Settles O14: equal reads give equal entries, and the rising addresses give them one order. -/
theorem canonicalMemoriesAreExtensional : Obligations.CanonicalMemoriesAreExtensional := by
  intro m n hm hn hread
  refine Memory.eq_of_mem_iff hm.1 hn.1 fun e => ?_
  rw [Memory.mem_iff_read hm, Memory.mem_iff_read hn, hread]

/-! ### The range check and the two signals -/

/-- What the range check refuses: the addresses below 0 and above `ADDR_MAX` (20_memory.md R31, R32). -/
theorem inRange_eq_false_iff (s : State) (a : Int) : inRange s a = false ↔ a < 0 ∨ (s.cfg.addrMax : Int) < a := by
  rw [← Bool.not_eq_true, inRange_iff]; omega

theorem memToDr_go {s : State} {x : Cell} (h : memRead s s.ar.value = some x) : memToDr s = .go (s.setReg .dr x) := by
  rcases memToDr_spec s with ⟨y, hy, e⟩ | ⟨hn, -⟩
  · rw [e, Option.some.inj (hy.symm.trans h)]
  · rw [(memRead_eq_none s _).mpr hn] at h; cases h

theorem memToDr_stop {s : State} (h : inRange s s.ar.value = false) :
    memToDr s = .stop (s.withStatus (.fatal .addressOutOfRange)) := by
  simpa [h, (memRead_eq_none s _).mpr h] using memToDr_spec s

theorem drToMem_go {s : State} (h : inRange s s.ar.value = true) :
    drToMem s = .go (s.storeCell s.ar.value s.dr) := by
  simpa [h] using drToMem_spec s

theorem drToMem_stop {s : State} (h : inRange s s.ar.value = false) :
    drToMem s = .stop (s.withStatus (.fatal .addressOutOfRange)) := by
  simpa [h] using drToMem_spec s

/-- The store puts the whole cell at its address, all three fields together (20_memory.md R32). -/
theorem memRead_storeCell_same (s : State) {a : Int} (x : Cell) (ha : inRange s a = true) :
    memRead (s.storeCell a x) a = some x := by
  rw [memRead_storeCell s a a x ha, if_pos rfl]

theorem storeCell_keepsMemoryBut (s : State) {a : Int} (x : Cell) (ha : inRange s a = true) :
    KeepsMemoryBut a s (s.storeCell a x) := by
  intro b hb
  rw [memRead_storeCell s a b x ha, if_neg hb]

/-- Settles O12: a read fails exactly where the range check does, and the signal follows the read. -/
theorem readIsFatalExactlyOutOfRange : Obligations.ReadIsFatalExactlyOutOfRange := by
  intro s
  refine ⟨fun a => ?_, fun x h => memToDr_go h, fun h => ⟨_, memToDr_stop ?_, rfl⟩⟩
  · rw [memRead_eq_none, inRange_eq_false_iff]
  · exact (memRead_eq_none s _).mp h

/-- Settles O13: inside the range the signal is the store of `DR` at `AR`, whose frame is everything but that cell. -/
theorem writeReplacesOneCell : Obligations.WriteReplacesOneCell := by
  refine fun s => ⟨fun hin => ?_, fun hout => ⟨_, drToMem_stop ((inRange_eq_false_iff s _).mpr hout), rfl⟩⟩
  have hr : inRange s s.ar.value = true := (inRange_iff s _).mpr hin
  have hregs : KeepsRegs [] s (s.storeCell s.ar.value s.dr) := fun r _ => storeCell_reg s _ _ r
  have htook : Took 0 s (s.storeCell s.ar.value s.dr) := ⟨rfl, [], rfl, (List.append_nil _).symm⟩
  exact ⟨_, drToMem_go hr, memRead_storeCell_same s s.dr hr, storeCell_keepsMemoryBut s s.dr hr, hregs,
    ⟨rfl, rfl⟩, ⟨⟨rfl, rfl, rfl⟩, rfl⟩, htook⟩

end Sys2Proof.Machine

/-! PROOFS. The encoding (30_encoding.md): the opcode numbers and value-type codes as two bijections, everything
`cellOfBits` can answer, said once, and from these the round trips of cells and of instructions; the classes; and the stop
at a reserved opcode number. -/

namespace Sys2Proof

open Machine

/-! ### Opcode numbers and value-type codes -/

theorem Opcode.number_lt (op : Opcode) : op.number < 32 := by cases op <;> decide

theorem ValueType.code_lt (t : ValueType) : t.code < 5 := by cases t <;> decide

/-- `Opcode.ofNumber` is the inverse of `Opcode.number` (30_encoding.md R42). -/
theorem Opcode.ofNumber_eq_some_iff {n : Nat} {op : Opcode} : Opcode.ofNumber n = some op ↔ op.number = n := by
  constructor
  · intro h
    unfold Opcode.ofNumber at h
    split at h <;> cases h <;> rfl
  · rintro rfl
    cases op <;> rfl

/-- Every value of the 5-bit field is an opcode number, 29 to 31 included (30_encoding.md R47). -/
theorem Opcode.exists_number_eq {n : Nat} (h : n < 32) : ∃ op : Opcode, op.number = n := by
  have hsome : ∀ m < 32, (Opcode.ofNumber m).isSome = true := by decide
  obtain ⟨op, hop⟩ := Option.isSome_iff_exists.mp (hsome n h)
  exact ⟨op, Opcode.ofNumber_eq_some_iff.mp hop⟩

theorem Opcode.number_injective : Function.Injective Opcode.number := fun _ _ h =>
  Option.some.inj ((Opcode.ofNumber_eq_some_iff.mpr rfl).symm.trans (Opcode.ofNumber_eq_some_iff.mpr h.symm))

/-- `ValueType.ofCode` is the inverse of `ValueType.code` (30_encoding.md R41). -/
theorem ValueType.ofCode_eq_some_iff {n : Nat} {t : ValueType} : ValueType.ofCode n = some t ↔ t.code = n := by
  constructor
  · intro h
    unfold ValueType.ofCode at h
    split at h <;> cases h <;> rfl
  · rintro rfl
    cases t <;> rfl

/-- The codes below 5 are the value types'; the rest of the 3-bit field is reserved (30_encoding.md R48). -/
theorem ValueType.exists_code_eq {n : Nat} (h : n < 5) : ∃ t : ValueType, t.code = n := by
  have hsome : ∀ m < 5, (ValueType.ofCode m).isSome = true := by decide
  obtain ⟨t, ht⟩ := Option.isSome_iff_exists.mp (hsome n h)
  exact ⟨t, ValueType.ofCode_eq_some_iff.mp ht⟩

theorem ValueType.ofCode_eq_none {n : Nat} (h : 5 ≤ n) : ValueType.ofCode n = Option.none := by
  cases ht : ValueType.ofCode n with
  | none => rfl
  | some t => have := t.code_lt; have := ValueType.ofCode_eq_some_iff.mp ht; omega

theorem ValueType.code_injective : Function.Injective ValueType.code := fun _ _ h =>
  Option.some.inj ((ValueType.ofCode_eq_some_iff.mpr rfl).symm.trans (ValueType.ofCode_eq_some_iff.mpr h.symm))

/-! ### The three fields of a pattern -/

/-- `y` has the three fields of the pattern `b` (30_encoding.md R40). -/
structure Cell.HasFields (c : Config) (b : Nat) (y : Cell) : Prop where
  op : y.op.number = b / c.full / 8
  vt : y.vt.code = b / c.full % 8
  value : y.value = sextW c (b % c.full)

/-- The fields determine the cell. -/
theorem Cell.HasFields.eq {c : Config} {b : Nat} {x y : Cell} (hx : x.HasFields c b) (hy : y.HasFields c b) : x = y := by
  obtain ⟨opx, vx, tx⟩ := x
  obtain ⟨opy, vy, ty⟩ := y
  obtain rfl : opx = opy := Opcode.number_injective (hx.op.trans hy.op.symm)
  obtain rfl : tx = ty := ValueType.code_injective (hx.vt.trans hy.vt.symm)
  obtain rfl : vx = vy := hx.value.trans hy.value.symm
  rfl

theorem two_pow_cellBits (c : Config) : 2 ^ (c.w + 8) = c.full * 256 := pow_add 2 c.w 8

/-- A pattern fits `CELL_BITS` bits exactly when its opcode field is a 5-bit number. -/
theorem lt_two_pow_cellBits_iff (c : Config) (b : Nat) : b < 2 ^ (c.w + 8) ↔ b / c.full / 8 < 32 := by
  rw [two_pow_cellBits, Nat.div_div_eq_div_mul, Nat.div_lt_iff_lt_mul (Nat.mul_pos (full_pos c) (by norm_num))]
  omega

/-- EVERYTHING `cellOfBits` CAN ANSWER: too many bits, a reserved value type, or the cell with the three fields. -/
theorem cellOfBits_spec (c : Config) (b : Nat) :
    (2 ^ (c.w + 8) ≤ b ∧ cellOfBits c b = .error .tooWide) ∨
    (b < 2 ^ (c.w + 8) ∧ 5 ≤ b / c.full % 8 ∧ cellOfBits c b = .error .reservedValueType) ∨
    (b < 2 ^ (c.w + 8) ∧ ∃ y : Cell, y.HasFields c b ∧ cellOfBits c b = .ok y) := by
  unfold cellOfBits Config.cellBits
  rcases Nat.lt_or_ge b (2 ^ (c.w + 8)) with hb | hb
  · rw [if_neg (Nat.not_le.mpr hb)]
    refine .inr ?_
    rcases Nat.lt_or_ge (b / c.full % 8) 5 with hcode | hcode
    · obtain ⟨t, ht⟩ := ValueType.exists_code_eq hcode
      obtain ⟨op, hop⟩ := Opcode.exists_number_eq ((lt_two_pow_cellBits_iff c b).mp hb)
      rw [ValueType.ofCode_eq_some_iff.mpr ht, Opcode.ofNumber_eq_some_iff.mpr hop]
      exact .inr ⟨hb, _, ⟨hop, ht, rfl⟩, rfl⟩
    · rw [ValueType.ofCode_eq_none hcode]
      exact .inl ⟨hb, hcode, rfl⟩
  · rw [if_pos hb]
    exact .inl ⟨hb, rfl⟩

/-- A pattern decodes to a cell exactly when it fits and the cell has its fields. -/
theorem cellOfBits_eq_ok_iff {c : Config} {b : Nat} {y : Cell} :
    cellOfBits c b = .ok y ↔ b < 2 ^ (c.w + 8) ∧ y.HasFields c b := by
  rcases cellOfBits_spec c b with ⟨hb, e⟩ | ⟨-, hcode, e⟩ | ⟨hb, x, hx, e⟩ <;> rw [e]
  · exact ⟨nofun, fun ⟨hlt, _⟩ => absurd hb (Nat.not_le.mpr hlt)⟩
  · refine ⟨nofun, fun ⟨_, hy⟩ => ?_⟩
    have := hy.vt ▸ y.vt.code_lt
    omega
  · refine ⟨fun h => ⟨hb, Except.ok.inj h ▸ hx⟩, fun ⟨_, hy⟩ => ?_⟩
    rw [hx.eq hy]

/-- The two upper fields of a cell's pattern are its opcode number and its value-type code, side by side. -/
theorem bitsOfCell_div_full (c : Config) (x : Cell) : bitsOfCell c x / c.full = x.op.number * 8 + x.vt.code := by
  unfold bitsOfCell
  rw [Nat.mul_comm, Nat.mul_add_div (full_pos c), Nat.div_eq_of_lt (tcW_lt c _), Nat.add_zero]

theorem bitsOfCell_mod_full (c : Config) (x : Cell) : bitsOfCell c x % c.full = tcW c x.value := by
  unfold bitsOfCell
  rw [Nat.mul_add_mod_self_right, Nat.mod_eq_of_lt (tcW_lt c _)]

theorem bitsOfCell_lt (c : Config) (x : Cell) : bitsOfCell c x < 2 ^ (c.w + 8) := by
  rw [lt_two_pow_cellBits_iff, bitsOfCell_div_full]
  have := x.op.number_lt
  have := x.vt.code_lt
  omega

/-- A well-formed cell has the fields of its own pattern. -/
theorem hasFields_bitsOfCell {c : Config} (hc : c.legal = true) {x : Cell} (hx : x.wf c = true) :
    x.HasFields c (bitsOfCell c x) := by
  have := x.vt.code_lt
  constructor
  · rw [bitsOfCell_div_full]; omega
  · rw [bitsOfCell_div_full]; omega
  · rw [bitsOfCell_mod_full, sextW_tcW c hc x.value hx]

/-- A cell with a pattern's fields has that pattern. -/
theorem Cell.HasFields.bitsOfCell_eq {c : Config} {b : Nat} {y : Cell} (h : y.HasFields c b) : bitsOfCell c y = b := by
  unfold bitsOfCell
  rw [h.op, h.vt, h.value, tcW_sextW c _ (Nat.mod_lt b (full_pos c)), Nat.div_add_mod', Nat.div_add_mod']

theorem Cell.HasFields.wf {c : Config} (hc : c.legal = true) {b : Nat} {y : Cell} (h : y.HasFields c b) :
    y.wf c = true := by
  unfold Cell.wf
  rw [h.value]
  exact isWord_sextW c hc _ (Nat.mod_lt b (full_pos c))

theorem cellOfBits_bitsOfCell {c : Config} (hc : c.legal = true) {x : Cell} (hx : x.wf c = true) :
    cellOfBits c (bitsOfCell c x) = .ok x :=
  cellOfBits_eq_ok_iff.mpr ⟨bitsOfCell_lt c x, hasFields_bitsOfCell hc hx⟩

/-! ### Instructions and their cells -/

theorem Instr.wf_iff {c : Config} {i : Instr} :
    i.wf c = true ↔ i.cell.wf c = true ∧ (i.cell.op = .div → c.hasDiv = true) := by
  simp [Instr.wf, ← imp_iff_not_or]

/-- The one cell of a well-formed instruction is read as that instruction; only `DIV` asks for anything
(30_encoding.md R44, R47). -/
theorem instrOfCell_cell_of_wf {c : Config} {i : Instr} (h : i.wf c = true) : instrOfCell c i.cell = .ok i := by
  cases i with
  | div t v => exact Laws.CellRoundTrip.div t v c h
  | _ => rfl

/-- The numbers that select no instruction: 29, 30, 31, and 16 where `HAS_DIV` is false (30_encoding.md R47). -/
def Opcode.Unassigned (c : Config) (op : Opcode) : Prop := 29 ≤ op.number ∨ (op.number = 16 ∧ c.hasDiv = false)

/-- The decoder refuses a cell exactly for an unassigned opcode number. -/
theorem instrOfCell_eq_error_iff {c : Config} {x : Cell} :
    instrOfCell c x = .error .reservedOpcode ↔ x.op.Unassigned c := by
  obtain ⟨op, v, t⟩ := x
  cases op with
  | div => cases h : c.hasDiv <;> simp [instrOfCell, Opcode.Unassigned, Opcode.number, h]
  | _ => simp [instrOfCell, Opcode.Unassigned, Opcode.number]

/-- An instruction read from a well-formed cell is well formed. -/
theorem wf_of_instrOfCell {c : Config} {x : Cell} {i : Instr} (hx : x.wf c = true) (h : instrOfCell c x = .ok i) :
    i.wf c = true := by
  obtain rfl := instrOfCell_cell h
  refine Instr.wf_iff.mpr ⟨hx, fun hop => ?_⟩
  by_contra hd
  have hun : i.cell.op.Unassigned c := .inr ⟨by rw [hop]; rfl, by simpa using hd⟩
  rw [instrOfCell_eq_error_iff.mpr hun] at h
  cases h

theorem decode_of_cellOfBits {c : Config} {b : Nat} {x : Cell} (h : cellOfBits c b = .ok x) :
    decode c b = instrOfCell c x := by
  simp only [decode, h]

theorem decode_eq_ok_iff {c : Config} {b : Nat} {i : Instr} :
    decode c b = .ok i ↔ ∃ x, cellOfBits c b = .ok x ∧ instrOfCell c x = .ok i := by
  unfold decode
  cases cellOfBits c b <;> simp

/-! ### The round trips -/

/-- Settles O1: the cell of the instruction survives the bits, and the instruction survives the cell. -/
theorem decodeInvertsEncode : Obligations.DecodeInvertsEncode := by
  intro c i hc hi
  obtain ⟨hcell, -⟩ := Instr.wf_iff.mp hi
  calc decode c (encode c i) = instrOfCell c i.cell := decode_of_cellOfBits (cellOfBits_bitsOfCell hc hcell)
    _ = .ok i := instrOfCell_cell_of_wf hi

/-- Settles O2: a decoded cell has the pattern's fields, so its bits are the pattern. -/
theorem encodeInvertsDecode : Obligations.EncodeInvertsDecode := by
  intro c b i hc h
  obtain ⟨x, hx, hi⟩ := decode_eq_ok_iff.mp h
  obtain ⟨-, hfields⟩ := cellOfBits_eq_ok_iff.mp hx
  refine ⟨?_, wf_of_instrOfCell (hfields.wf hc) hi⟩
  unfold encode
  rw [instrOfCell_cell hi, hfields.bitsOfCell_eq]

/-! ### The layout in shifts, as the spec writes it -/

/-- The model's sum of three disjoint fields is the bitwise or of 30_encoding.md R40. -/
theorem bitsOfCell_eq_or (c : Config) (x : Cell) :
    bitsOfCell c x = (x.op.number <<< (c.w + 3)) ||| (x.vt.code <<< c.w) ||| (x.value % 2 ^ c.w).toNat := by
  have hvt : x.vt.code < 2 ^ 3 := x.vt.code_lt.trans (by norm_num)
  have htc : (x.value % 2 ^ c.w).toNat = tcW c x.value := by simp [tcW, Config.full]
  calc bitsOfCell c x
      = (x.op.number <<< 3 + x.vt.code) <<< c.w + tcW c x.value := by
        simp only [bitsOfCell, Config.full, Nat.shiftLeft_eq]
    _ = (x.op.number <<< 3 ||| x.vt.code) <<< c.w ||| tcW c x.value := by
        rw [Nat.shiftLeft_add_eq_or_of_lt (tcW_lt c _), Nat.shiftLeft_add_eq_or_of_lt hvt]
    _ = _ := by rw [Nat.shiftLeft_or_distrib, ← Nat.shiftLeft_add, Nat.add_comm 3, htc]

theorem vtField_eq_shiftRight (c : Config) (b : Nat) : b / c.full % 8 = (b >>> c.w) % 8 := by
  rw [Nat.shiftRight_eq_div_pow, Config.full]

theorem opField_eq_shiftRight (c : Config) (b : Nat) : b / c.full / 8 = b >>> (c.w + 3) := by
  rw [Nat.shiftRight_eq_div_pow, Nat.div_div_eq_div_mul, pow_add]; rfl

/-- Settles O3: the sum of the fields is their bitwise or, and a decoded cell has the pattern's fields. -/
theorem cellPatternFields : Obligations.CellPatternFields := by
  refine fun c hc => ⟨fun x hx => ?_, fun b y h => ?_⟩
  · have hcell := cellOfBits_bitsOfCell hc hx
    exact ⟨bitsOfCell_eq_or c x, bitsOfCell_lt c x, hcell, decode_of_cellOfBits hcell⟩
  · obtain ⟨-, hop, hvt, hvalue⟩ := cellOfBits_eq_ok_iff.mp h
    exact ⟨hop.trans (opField_eq_shiftRight c b), hvt.trans (vtField_eq_shiftRight c b), hvalue⟩

/-- Settles O5: of the three answers of `cellOfBits` each has its own condition. -/
theorem reservedValueTypesRefused : Obligations.ReservedValueTypesRefused := by
  intro c b _
  rw [← vtField_eq_shiftRight]
  rcases cellOfBits_spec c b with ⟨hb, e⟩ | ⟨hb, hcode, e⟩ | ⟨hb, y, hy, e⟩ <;> rw [e]
  · simp [hb]
  · simp [hb, hcode]
  · have := hy.vt ▸ y.vt.code_lt
    simp [hb, this]

/-! ### Words written out -/

theorem decodeTableWord_eq_some {n w : Nat} {i : Instr} (hw : w < 2 ^ n) (h : decode Config.default w = .ok i) :
    decodeTableWord n w = some i := by
  simp only [decodeTableWord, Nat.mod_eq_of_lt hw, h]

/-- A table word that encodes an instruction decodes to it. -/
theorem decodeTableWord_of_encode_eq {w : Nat} {i : Instr} (hi : i.wf Config.default = true)
    (hw : encode Config.default i = w) : decodeTableWord 40 w = some i := by
  subst hw
  have hlt : encode Config.default i < 2 ^ 40 := bitsOfCell_lt Config.default i.cell
  exact decodeTableWord_eq_some hlt (decodeInvertsEncode Config.default i (by decide) hi)

/-- Settles O4: the six words are what the encoder makes of the six instructions. -/
theorem tableWordsDecode : Obligations.TableWordsDecode :=
  ⟨decodeTableWord_of_encode_eq (by decide) (by decide), decodeTableWord_of_encode_eq (by decide) (by decide),
    decodeTableWord_of_encode_eq (by decide) (by decide), decodeTableWord_of_encode_eq (by decide) (by decide),
    decodeTableWord_of_encode_eq (by decide) (by decide), decodeTableWord_of_encode_eq (by decide) (by decide)⟩

/-! ### The classes -/

/-- The class as a function of the number alone (30_encoding.md R43). -/
theorem Opcode.cls_eq (op : Opcode) :
    op.cls = if op.number ≤ 9 then some .addressless else if op.number ≤ 19 then some .address
      else if op.number ≤ 26 then some .branch else if op.number ≤ 28 then some .io else Option.none := by
  cases op <;> rfl

/-- What the decoder yields: the class, and an address fetch for `AddressIndirect` in the two classes with an operand
(40_cycle_alu.md R69, 30_encoding.md R49). -/
theorem decodeControl_eq_some {c : Config} {x : Cell} {k : OpClass} {ind : Bool}
    (h : decodeControl c x = some (k, ind)) :
    x.op.cls = some k ∧ (ind = true ↔ x.vt = .addressIndirect ∧ (k = .address ∨ k = .branch)) := by
  unfold decodeControl at h
  split at h
  · cases h
  · cases hk : x.op.cls with
    | none => simp [hk] at h
    | some k' =>
      cases k'
      all_goals
        simp only [hk, Option.some.injEq, Prod.mk.injEq] at h
        obtain ⟨rfl, rfl⟩ := h
        simp

/-- Settles O6: the class by the four ranges, the address fetch by what the decoder yields. -/
theorem classIsRangeTest : Obligations.ClassIsRangeTest := by
  intro op
  refine ⟨?_, ?_, ?_, ?_, fun c v t k ind h => decodeControl_eq_some h⟩
  all_goals
    rw [Opcode.cls_eq]
    split_ifs <;> simp <;> omega

end Sys2Proof

/-! ### A reserved opcode number stops the machine -/

namespace Sys2Proof.Machine

/-- Below the ceiling with `IP` in range, a cycle starts with the three fetch ticks, completed (40_cycle_alu.md R68). -/
theorem cycleStart_go {s : State} {x : Cell} (hl : limitReached s = false) (hx : memRead s s.ip.value = some x) :
    ∃ tr, Grows 3 s.trace tr ∧ cycleStart s = .go { s with
      ar := s.ip, ip := (alu s.cfg .add s.ip (Cell.const 1)).res, dr := x, cr := x, tick := s.tick + 3,
      icount := s.icount + 1, trace := tr } := by
  rcases cycleStart_spec s with ⟨hl', -⟩ | ⟨-, ⟨-, hr, -⟩ | ⟨y, tr, hy, hg, e⟩⟩
  · exact absurd (hl.symm.trans hl') (by decide)
  · exact absurd (hx.symm.trans ((memRead_eq_none s _).mpr hr)) nofun
  · obtain rfl : x = y := Option.some.inj (hx.symm.trans hy)
    exact ⟨tr, hg, e⟩

/-- A fetched cell that is no instruction ends the step in `Fatal(UnknownOpcode)` (40_cycle_alu.md R69). -/
theorem step_of_instrOfCell_error {s u : State} (hs : s.status = .running) (hu : cycleStart s = .go u)
    {e : DecodeError} (he : instrOfCell u.cfg u.cr = .error e) : step s = .next (u.withStatus (.fatal .unknownOpcode)) := by
  simp [step, hs, stoppedFault, hu, he, unknownOpcode]

/-- Settles O23: the fetch completes, the decoder refuses the fetched cell, and only the status moves after that. -/
theorem reservedOpcodeStops : Obligations.ReservedOpcodeStops := by
  intro s x hs hl hx hop
  obtain ⟨tr, hg, hu⟩ := cycleStart_go hl hx
  refine ⟨_, step_of_instrOfCell_error hs hu (instrOfCell_eq_error_iff.mpr hop), rfl, ⟨rfl, rfl⟩, rfl, rfl,
    fun r hr => ?_, fun _ => rfl, ⟨rfl, rfl⟩, rfl, rfl, rfl, rfl, hg⟩
  cases r with
  | ac | ps | sp => rfl
  | _ => simp at hr

end Sys2Proof.Machine

/-! PROOFS. Words, the ALU and the flags (40_cycle_alu.md sections 1 and 2): `wrap` as a modulo, the bitwise operations on
patterns, which exact results leave the canonical range, and the two ways a micro-operation calls the ALU. -/

namespace Sys2Proof.Machine

/-! ### `wrap` -/

/-- `wrap` moves by whole turns of `2^W` (40_cycle_alu.md R60). -/
theorem wrap_eq_add_mul (c : Config) (v : Int) :
    wrap c v = v + -((v + (c.half : Int)) / (c.full : Int)) * (c.full : Int) := by
  unfold wrap
  rw [Int.emod_def]
  ring

/-- One past the greatest word wraps to the least. -/
theorem wrap_wordMax_add_one (c : Config) (hc : c.legal = true) : wrap c (c.wordMax + 1) = c.wordMin := by
  have hturn : c.wordMax + 1 + (c.half : Int) = (c.full : Int) := by
    have hf := full_eq_of_legal c hc
    unfold Config.wordMax
    omega
  unfold wrap Config.wordMin
  rw [hturn, Int.emod_self, zero_sub]

/-- Settles O7: a result of `wrap` is in range and a whole number of turns away, and a word stays. -/
theorem wrapIsModular : Obligations.WrapIsModular := by
  intro c v hc
  have hhalf : (2 : Int) ^ (c.w - 1) = c.half := by simp [Config.half]
  have hfull : (2 : Int) ^ c.w = c.full := by simp [Config.full]
  have hword := isWord_wrap c hc v
  rw [hhalf, hfull]
  exact ⟨rfl, hword, ⟨_, wrap_eq_add_mul c v⟩, wrap_of_isWord c hc v, wrap_of_isWord c hc _ hword,
    wrap_wordMax_add_one c hc⟩

/-! ### The bitwise operations -/

/-- Settles O9: the pattern of the result is the bitwise or (and) of the two patterns, which has at most `W` bits. -/
theorem bitwiseActsOnPatterns : Obligations.BitwiseActsOnPatterns := by
  intro c a b i hc
  have hor : tcW c (aluRaw c .or a b) = tcW c a ||| tcW c b := tcW_sextW c _ (or_lt_full c a b)
  have hand : tcW c (aluRaw c .and a b) = tcW c a &&& tcW c b := tcW_sextW c _ (and_lt_full c a b)
  refine ⟨?_, ?_, isWord_sextW c hc _ (or_lt_full c a b), isWord_sextW c hc _ (and_lt_full c a b)⟩
  · rw [hor, Nat.testBit_or]
  · rw [hand, Nat.testBit_and]

/-! ### Quotients and remainders of words -/

theorem divq_of_truncation {c : Config} (h : c.divMod = .truncation) (a b : Int) : divq c a b = a.tdiv b := by
  simp only [divq, h]

theorem divr_of_truncation {c : Config} (h : c.divMod = .truncation) (a b : Int) : divr c a b = a.tmod b := by
  simp only [divr, h, divq_of_truncation h, Int.tmod_def]

/-- A word's magnitude is at most `2^(W-1)`, which only the least word has. -/
theorem natAbs_le_of_isWord {c : Config} {v : Int} (h : c.isWord v = true) : v.natAbs ≤ c.half := by
  have := (isWord_iff c v).mp h
  omega

theorem isWord_of_natAbs_lt {c : Config} {v : Int} (h : v.natAbs < c.half) : c.isWord v = true := by
  rw [isWord_iff]
  omega

/-- A remainder is smaller than its divisor, so on words it is a word (41_address.md R88). -/
theorem isWord_tmod {c : Config} {a b : Int} (hb : c.isWord b = true) (h0 : b ≠ 0) : c.isWord (a.tmod b) = true := by
  refine isWord_of_natAbs_lt ?_
  calc (a.tmod b).natAbs = a.natAbs % b.natAbs := Int.natAbs_tmod a b
    _ < b.natAbs := Nat.mod_lt _ (Int.natAbs_pos.mpr h0)
    _ ≤ c.half := natAbs_le_of_isWord hb

/-- A quotient that is no smaller than its dividend has a divisor of magnitude 1, and of these only -1 turns a word into
`2^(W-1)` (40_cycle_alu.md R62, 41_address.md R87). -/
theorem isWord_tdiv_eq_false_iff {c : Config} {a b : Int} (ha : c.isWord a = true) :
    c.isWord (a.tdiv b) = false ↔ a = c.wordMin ∧ b = -1 := by
  have hpos := half_pos c
  have hle := natAbs_le_of_isWord ha
  constructor
  · intro hout
    have hge : c.half ≤ a.natAbs / b.natAbs := by
      by_contra hlt
      have hword : c.isWord (a.tdiv b) = true := isWord_of_natAbs_lt (Int.natAbs_tdiv a b ▸ Nat.not_le.mp hlt)
      rw [hout] at hword
      cases hword
    have hself : a.natAbs / b.natAbs = a.natAbs := le_antisymm (Nat.div_le_self _ _) (hle.trans hge)
    have hb : b.natAbs = 1 := (Nat.div_eq_self.mp hself).resolve_left (by omega)
    have hrange := (isWord_iff c a).mp ha
    obtain rfl | rfl := Int.natAbs_eq_iff.mp hb
    · rw [Nat.cast_one, Int.tdiv_one, ha] at hout
      cases hout
    · exact ⟨by unfold Config.wordMin; omega, rfl⟩
  · rintro ⟨rfl, rfl⟩
    have hq : c.wordMin.tdiv (-1) = (c.half : Int) := by simp [Config.wordMin, Int.tdiv_neg]
    rw [hq, ← Bool.not_eq_true, isWord_iff]
    omega

/-- Settles O10: patterns are words, a remainder is smaller than its divisor, and only -1 gives a quotient past the
range. -/
theorem onlyLeastByMinusOneOverflowsDivision : Obligations.OnlyLeastByMinusOneOverflowsDivision := by
  intro c a b hc hdm ha hb
  refine ⟨isWord_sextW c hc _ (or_lt_full c a b), isWord_sextW c hc _ (and_lt_full c a b), ha, hb,
    fun h0 => ⟨?_, ?_⟩⟩
  · show c.isWord (divr c a b) = true
    rw [divr_of_truncation hdm]
    exact isWord_tmod hb h0
  · show c.isWord (divq c a b) = false ↔ _
    rw [divq_of_truncation hdm]
    exact isWord_tdiv_eq_false_iff ha

/-! ### Marked and unmarked ALU calls -/

/-- The flags a marked call merges are those of the flag rule, and no other bit of `PS` moves (40_cycle_alu.md R63,
R64). -/
theorem mergeAlu_flagsOf (s : State) (hc : s.cfg.legal = true) (op : AluOp) (l r : Cell) :
    FlagsOf (aluRaw s.cfg op l.value r.value) s (s.mergeAlu (alu s.cfg op l r)) := by
  have hbit := mergeFlags_testBit s.cfg hc s.ps (alu s.cfg op l r).z (alu s.cfg op l r).n (alu s.cfg op l r).c
  refine ⟨hbit 0, hbit 1, hbit 2, fun i hi => ?_, rfl, rfl⟩
  obtain ⟨j, rfl⟩ := Nat.exists_eq_add_of_le' hi
  exact hbit (j + 3)

/-- Writing a register leaves every other one (10_state.md R29). -/
theorem setReg_keepsRegs (s : State) (r : Reg) (x : Cell) : KeepsRegs [r] s (s.setReg r x) := fun q hq =>
  setReg_reg_other s r q x (by simpa using hq)

/-- Settles O8: a marked call is the merge of the flag rule's bits into `PS`, an unmarked one a write of its own
register. -/
theorem markedAluMovesThreeFlags : Obligations.MarkedAluMovesThreeFlags := by
  intro s op l r hc
  refine ⟨fun hf => ?_, fun d hd => setReg_reg_other s d .ps _ hd.symm⟩
  obtain ⟨-, e⟩ | ⟨hf', -⟩ := aluFlags_spec op l r s
  · exact ⟨_, e, mergeAlu_flagsOf s hc op l r, setReg_keepsRegs s .ps _, fun _ => rfl, ⟨rfl, rfl⟩,
      ⟨⟨rfl, rfl, rfl⟩, rfl⟩, rfl, [], rfl, (List.append_nil _).symm⟩
  · rw [hf] at hf'
    cases hf'

end Sys2Proof.Machine

/-! PROOFS. The instruction cycle (40_cycle_alu.md sections 3 to 5): the fetch unit, the start of a step up to its meaning,
and the one instruction that every step below the ceiling counts. -/

namespace Sys2Proof.Machine

/-! ### The fetch unit and the step it starts -/

/-- Outside the four registers a fetch writes there are three. -/
theorem keepsRegs_of_fetched {s u : State} (hac : u.ac = s.ac) (hps : u.ps = s.ps) (hsp : u.sp = s.sp) :
    KeepsRegs [.ip, .cr, .dr, .ar] s u := by
  intro r hr
  cases r with
  | ac => exact hac
  | ps => exact hps
  | sp => exact hsp
  | _ => simp at hr

/-- Settles O22: the two ways a fetch can end, the read of `F2` being the only signal of it that can fail. -/
theorem fetchTakesThreeTicks : Obligations.FetchTakesThreeTicks := by
  intro s
  obtain ⟨y, tr, hy, hg, e⟩ | ⟨tr, hout, hg, e⟩ := fetch_spec s
  · refine ⟨fun x hx => ?_, fun hout => ?_⟩
    · obtain rfl : x = y := Option.some.inj (hx.symm.trans hy)
      exact ⟨_, e, rfl, rfl, ⟨rfl, rfl⟩, keepsRegs_of_fetched rfl rfl rfl, fun _ => rfl, ⟨rfl, rfl⟩,
        ⟨⟨rfl, rfl, rfl⟩, rfl⟩, rfl, hg⟩
    · rw [(memRead_eq_none s _).mpr ((inRange_eq_false_iff s _).mpr hout)] at hy
      cases hy
  · refine ⟨fun x hx => ?_, fun _ => ?_⟩
    · rw [(memRead_eq_none s _).mpr hout] at hx
      cases hx
    · refine ⟨_, e, rfl, rfl, rfl, fun r hr => ?_, fun _ => rfl, ⟨rfl, rfl⟩, ⟨rfl, rfl, rfl⟩, rfl, hg⟩
      cases r with
      | ip | ar => simp at hr
      | _ => rfl

/-- A fetched cell that is an instruction is run, and the cycle ends after it (40_cycle_alu.md R73). -/
theorem step_of_instrOfCell_ok {s u : State} (hs : s.status = .running) (hu : cycleStart s = .go u) {i : Instr}
    (hi : instrOfCell u.cfg u.cr = .ok i) : step s = completeOutcome (exec i u) := by
  simp [step, hs, stoppedFault, hu, hi]

/-- Settles O19: the start of the cycle leaves the fetched cell in `CR`, and the step goes on with its instruction. -/
theorem stepRunsDecodedInstruction : Obligations.StepRunsDecodedInstruction := by
  intro s x i hs hl hx hi
  obtain ⟨tr, hg, hu⟩ := cycleStart_go hl hx
  exact ⟨_, step_of_instrOfCell_ok hs hu hi, instrOfCell_cell hi, ⟨rfl, rfl⟩, rfl, rfl,
    keepsRegs_of_fetched rfl rfl rfl, fun _ => rfl, ⟨rfl, rfl⟩, rfl, rfl, rfl, hs, rfl, hg⟩

/-! ### The ceiling and the count -/

/-- The limit check refuses exactly at or above the ceiling (40_cycle_alu.md R74). -/
theorem limitReached_iff (s : State) : limitReached s = true ↔ ∃ n, s.cfg.instrLimit = some n ∧ n ≤ s.icount := by
  simp [limitReached, Option.any_eq_true]

/-- Below the ceiling the start of a cycle counts one instruction, wherever it ends. -/
theorem cycleStart_icount {s : State} (hl : limitReached s = false) : (cycleStart s).state.icount = s.icount + 1 := by
  obtain ⟨hl', -⟩ | ⟨-, ⟨tr, -, -, e⟩ | ⟨x, tr, -, -, e⟩⟩ := cycleStart_spec s
  · rw [hl] at hl'
    cases hl'
  · rw [e]; rfl
  · rw [e]; rfl

/-- A meaning counts no instruction. -/
theorem Ends.icount_eq {s t : State} (h : Ends s t) : t.icount = s.icount := by
  obtain h | ⟨u, st, h, -, rfl⟩ | ⟨u, h, -, -, rfl⟩ := h <;>
  · obtain ⟨-, hi, -⟩ := data_frame h
    exact hi

/-- The taking of an interrupt counts no instruction. -/
theorem interruptEntry_icount (s : State) : (interruptEntry s).state.icount = s.icount := by
  obtain ⟨-, e⟩ | ⟨-, ⟨t, h, e⟩ | ⟨t, st, h, -, e⟩⟩ := interruptEntry_cases s <;> rw [e]
  · rfl
  all_goals
    obtain ⟨-, hi, -⟩ := data_frame h
    exact hi

theorem interruptCheck_icount (s : State) : (interruptCheck s).state.icount = s.icount := by
  have h := interruptEntry_icount s
  unfold interruptCheck
  split
  · cases e : interruptEntry s <;> rw [e] at h <;> exact h
  · rfl

/-- What follows a meaning counts no instruction. -/
theorem completeCycle_icount (s : State) : (completeCycle s).icount = s.icount := by
  unfold completeCycle
  cases s.status with
  | running => exact interruptCheck_icount s.endBlock
  | _ => rfl

/-- A step that passes the limit check counts exactly one instruction, however it ends (40_cycle_alu.md R74). -/
theorem step_icount {s t : State} (hl : limitReached s = false) (h : step s = .next t) : t.icount = s.icount + 1 := by
  have hstart := cycleStart_icount hl
  obtain ⟨-, e | ⟨u, e, -, ⟨-, rfl⟩ | ⟨i, v, -, -, -, hends, rfl⟩⟩⟩ := step_cases h <;> rw [e] at hstart
  · exact hstart
  · exact hstart
  · calc (completeCycle v).icount = v.icount := completeCycle_icount v
      _ = u.icount := hends.icount_eq
      _ = s.icount + 1 := hstart

/-- The ceiling stops a running machine before its fetch. -/
theorem step_of_limitReached {s : State} (hs : s.status = .running) (hl : limitReached s = true) :
    step s = .next (s.withStatus (.fatal .instructionLimitExceeded)) := by
  obtain ⟨-, e⟩ | ⟨hl', -⟩ := cycleStart_spec s
  · simp [step, hs, stoppedFault, e]
  · rw [hl] at hl'
    cases hl'

/-- Settles O21: the limit check stands before everything else of a step, and only what stands right after it counts. -/
theorem ceilingStopsBeforeFetch : Obligations.CeilingStopsBeforeFetch := by
  refine fun s hs => ⟨fun hn => ⟨_, step_of_limitReached hs ((limitReached_iff s).mpr hn), rfl⟩, fun hlt t h => ?_⟩
  have hl : limitReached s = false := by
    rw [← Bool.not_eq_true, limitReached_iff]
    rintro ⟨n, hn, hle⟩
    exact absurd hle (Nat.not_le.mpr (hlt n hn))
  exact step_icount hl h

end Sys2Proof.Machine

/-! PROOFS. The tick-by-tick control unit (40_cycle_alu.md R75) against the step: each sequence of tick groups has its
place in a step, and the decisions between them, which take no tick, are the step's own. `TicksTo` chains the sequences. -/

namespace Sys2Proof.Machine

/-- From the tick state `x`, entered at the tick `b`, the control unit reaches the state `t` in as many ticks as go by, or
in one more, that of a failing group; when `t` is running it is then about to fetch. -/
def TicksTo (b : Nat) (x : TickState) (t : State) : Prop :=
  ∃ n, (tickRun n x).st = t ∧ b + n ≤ t.tick + 1 ∧
    (t.status = .running → t.tick = b + n ∧ tickRun n x = TickState.atReset t)

/-! ### How runs of tick groups chain -/

theorem ticksTo_atReset (t : State) : TicksTo t.tick (.atReset t) t := ⟨0, rfl, Nat.le_succ _, fun _ => ⟨rfl, rfl⟩⟩

/-- A decision that stops the machine takes no tick. -/
theorem ticksTo_of_stopped (x : TickState) (hs : x.st.status ≠ .running) : TicksTo x.st.tick x x.st :=
  ⟨0, rfl, Nat.le_succ _, fun h => absurd h hs⟩

theorem Runs.ticksTo_of_stop {x : TickState} {k : State → TickState} {t : State} (h : Runs x k (.stop t)) :
    TicksTo x.st.tick x t := by
  obtain ⟨⟨c, hc⟩, n, hn, hle, hb⟩ := h
  exact ⟨n, hn, by omega, fun hr => by rw [hc] at hr; cases hr⟩

theorem Runs.ticksTo_of_go {x : TickState} {k : State → TickState} {u t : State} (h : Runs x k (.go u))
    (hk : TicksTo u.tick (k u) t) : TicksTo x.st.tick x t := by
  obtain ⟨-, n, hn, hu⟩ := h
  obtain ⟨m, hm, hle, hrun⟩ := hk
  refine ⟨n + m, by rw [tickRun_add, hn, hm], by omega, fun hr => ?_⟩
  obtain ⟨ht, hreset⟩ := hrun hr
  exact ⟨by omega, by rw [tickRun_add, hn, hreset]⟩

/-- Nothing follows a fatal condition (60_exceptions.md R122). -/
theorem completeCycle_of_fatal {t : State} {c : FatalCause} (h : t.status = .fatal c) : completeCycle t = t := by
  simp only [completeCycle, h]

/-- A sequence of tick groups and then the rest of an instruction, up to the end of its cycle. -/
theorem Runs.ticksTo {x : TickState} {k : State → TickState} {f : Flow} {g : State → Flow} (h : Runs x k f)
    (hg : ∀ t, f = .go t → t.status = .running → TicksTo t.tick (k t) (completeCycle (g t).state)) :
    TicksTo x.st.tick x (completeCycle (f.andThen g).state) := by
  cases f with
  | go t => exact h.ticksTo_of_go (hg t rfl h.1)
  | stop t =>
    have ht := h.ticksTo_of_stop
    obtain ⟨⟨c, hc⟩, -⟩ := h
    rwa [stop_andThen, stop_state, completeCycle_of_fatal hc]

/-! ### The end of an instruction -/

theorem interruptEntry_eq_entryTicks {s : State} (hn : nestExceeded s = false) :
    interruptEntry s = (entryTicks s).andThen fun t => .go t.enterHandler := by
  simp only [interruptEntry, hn]
  rfl

/-- A due interrupt is taken tick by tick as the step takes it (60_exceptions.md R128, R133). -/
theorem ticksTo_interruptEntry {s : State} (hr : s.status = .running) (hn : nestExceeded s = false) :
    TicksTo s.tick ⟨.ie1, s⟩ ((interruptEntry s).andThen fun t => .go t.endBlock).state := by
  have hruns := runs_entry s hr
  rw [interruptEntry_eq_entryTicks hn]
  cases he : entryTicks s with
  | go t =>
    rw [he] at hruns
    exact hruns.ticksTo_of_go (ticksTo_atReset t.enterHandler.endBlock)
  | stop t =>
    rw [he] at hruns
    exact hruns.ticksTo_of_stop

/-- The zero-tick end of an instruction is what the step does after a meaning that goes on (60_exceptions.md R127). -/
theorem ticksTo_afterInstruction {s : State} (hr : s.status = .running) :
    TicksTo s.tick (afterInstruction s) (completeCycle s) := by
  have hend : completeCycle s = (interruptCheck s.endBlock).state := by simp only [completeCycle, hr]
  rw [hend]
  unfold afterInstruction interruptCheck
  cases interruptDue s.endBlock with
  | false => exact ticksTo_atReset s.endBlock
  | true =>
    cases hn : nestExceeded s.endBlock with
    | false => exact ticksTo_interruptEntry (s := s.endBlock) hr hn
    | true =>
      simp only [if_true, interruptEntry_nest s.endBlock hn]
      exact ticksTo_of_stopped ⟨.ie1, s.endBlock.withStatus (.fatal .nestDepthExceeded)⟩ nofun

/-- The last sequence of an instruction. -/
theorem Runs.ticksTo_end {x : TickState} {f : Flow} (h : Runs x afterInstruction f) :
    TicksTo x.st.tick x (completeCycle f.state) := by
  have ht := h.ticksTo (g := .go) fun t _ hr => ticksTo_afterInstruction hr
  cases f <;> exact ht

/-! ### A meaning as its two sequences -/

/-- The address and operand fetch of an instruction cell, by its class (41_address.md R80, 43_branch.md R104). -/
def operandFlow (x : Cell) : State → Flow :=
  match x.op.cls with
  | some .address => addressPrefix x.vt
  | some .branch => addressFetch x.vt
  | _ => .go

/-- The execute sequence of an opcode (40_cycle_alu.md R72). -/
def executeFlow : Opcode → State → Flow
  | .hlt => hltExecute
  | .iret => iretExecute
  | .push => push .ac .pu1 .pu2 .pu3 .pu4
  | .pop => pop .ac .po1 .po2 .po3
  | .ei => x1Ei
  | .di => x1Di
  | .cla => x1AluConst .and 0
  | .inc => x1AluConst .add 1
  | .dec => x1AluConst .sub 1
  | .ld => x1Ld
  | .st => stExecute
  | .cmp => x1Cmp
  | .add => x1Alu .add
  | .sub => x1Alu .sub
  | .mul => x1Alu .mul
  | .div => x1Alu .div
  | .mod => x1Alu .mod
  | .or => x1Alu .or
  | .and => x1Alu .and
  | .jc => branchExecute flagC
  | .jnc => branchExecute fun s => !flagC s
  | .jn => branchExecute flagN
  | .jnn => branchExecute fun s => !flagN s
  | .jz => branchExecute flagZ
  | .jnz => branchExecute fun s => !flagZ s
  | .jmp => branchExecute fun _ => true
  | .inp => x1In
  | .out => x1Out
  | .nop | .reserved29 | .reserved30 | .reserved31 => tickGo .x1

/-- What an instruction cell does after its fetch. -/
def meaningFlow (x : Cell) (s : State) : Flow := (operandFlow x s).andThen (executeFlow x.op)

theorem exec_of_address {i : Instr} {s : State} (hx : operandFlow i.cell = addressPrefix i.cell.vt)
    (he : exec i s = addressClass i.cell (executeFlow i.cell.op) s) :
    exec i s = (meaningFlow i.cell (s.present i.cell)).outcome := by
  rw [he, meaningFlow, hx, addressClass]

theorem exec_of_branch {i : Instr} {s : State} {cond : State → Bool} (hx : operandFlow i.cell = addressFetch i.cell.vt)
    (hf : executeFlow i.cell.op = branchExecute cond) (he : exec i s = branchClass i.cell cond s) :
    exec i s = (meaningFlow i.cell (s.present i.cell)).outcome := by
  rw [he, meaningFlow, hx, hf, branchClass]

theorem exec_of_plain {i : Instr} {s : State} (hx : operandFlow i.cell = .go)
    (he : exec i s = plainClass i.cell (executeFlow i.cell.op) s) :
    exec i s = (meaningFlow i.cell (s.present i.cell)).outcome := by
  rw [he, meaningFlow, hx, plainClass, go_andThen]

/-- Every meaning is the fetch of its operands and then its opcode's execute sequence. -/
theorem exec_eq_meaningFlow (i : Instr) (s : State) : exec i s = (meaningFlow i.cell (s.present i.cell)).outcome := by
  cases i with
  | ld | st | cmp | add | sub | mul | div | mod | or | and => exact exec_of_address rfl rfl
  | jc | jnc | jn | jnn | jz | jnz | jmp => exact exec_of_branch rfl rfl rfl
  | _ => exact exec_of_plain rfl rfl

/-! ### The execute sequences -/

theorem oneTick_groupX1 (s : State) : OneTick s (groupX1 s) := by
  unfold groupX1
  cases s.cr.op with
  | cla | inc | dec | ld | add | sub | mul | div | mod | or | and => exact oneTick_aluToAc s .x1 _ _ _
  | cmp => exact oneTick_aluFlags s .x1 .sub s.ac s.dr
  | inp => exact oneTick_in s
  | _ => exact oneTick_tickGo .x1 rfl rfl

/-- The one-tick instructions. -/
theorem ticksTo_x1 {s : State} (hr : s.status = .running) {f : Flow} (hf : groupX1 s = f) :
    TicksTo s.tick ⟨.x1, s⟩ (completeCycle f.state) := by
  subst hf
  have hruns : Runs ⟨.x1, s⟩ afterInstruction (groupX1 s) := runs_group hr rfl (oneTick_groupX1 s)
  exact hruns.ticksTo_end

/-- A branch: one tick when taken, none when not (43_branch.md R104). -/
theorem ticksTo_branchDecision {s : State} (hr : s.status = .running) (cond : State → Bool) :
    TicksTo s.tick (branchDecision cond s) (completeCycle (branchExecute cond s).state) := by
  unfold branchDecision branchExecute
  split
  · have hruns : Runs ⟨.b1, s⟩ afterInstruction (groupB1 s) := runs_group hr rfl (oneTick_tickGo .b1 rfl rfl)
    exact hruns.ticksTo_end
  · exact ticksTo_afterInstruction hr

/-- A stop with any status but `Running` ends as the step ends it: with a blank line unless it is fatal
(60_exceptions.md R121, R122). -/
theorem ticksTo_afterStop (g : TickGroup) {s : State} {st : Status} (hst : st ≠ .running) :
    TicksTo s.tick (afterStop g (.stop (s.withStatus st))) (completeCycle (s.withStatus st)) := by
  cases st with
  | running => exact absurd rfl hst
  | halt => exact ticksTo_of_stopped ⟨g, (s.withStatus .halt).endBlock⟩ hst
  | interruptReturn => exact ticksTo_of_stopped ⟨g, (s.withStatus .interruptReturn).endBlock⟩ hst
  | fatal c => exact ticksTo_of_stopped ⟨g, s.withStatus (.fatal c)⟩ hst

theorem ticksTo_hlt {s : State} (g : TickGroup) :
    TicksTo s.tick (afterStop g (hltExecute s)) (completeCycle (hltExecute s).state) := by
  unfold hltExecute
  split
  · exact ticksTo_afterStop g nofun
  · exact ticksTo_afterStop g nofun

/-- `IRET`: a stop outside a handler, the seven ticks of the exit inside one (42_addressless.md R96). -/
theorem ticksTo_iret {s : State} (hr : s.status = .running) (g : TickGroup) :
    TicksTo s.tick (if s.depth = 0 then afterStop g (s.stopAs .interruptReturn) else ⟨.ix1, s⟩)
      (completeCycle (iretExecute s).state) := by
  unfold iretExecute
  split
  · exact ticksTo_afterStop g nofun
  · exact (runs_exit s hr).ticksTo fun t _ h => ticksTo_afterInstruction (s := t.leaveHandler) h

/-- From the start of its execute sequence the control unit ends the instruction in `CR` as the step does. -/
theorem ticksTo_beginExecute {s : State} (hr : s.status = .running) (g : TickGroup) :
    TicksTo s.tick (beginExecute g s) (completeCycle (executeFlow s.cr.op s).state) := by
  unfold beginExecute
  cases hop : s.cr.op with
  | hlt => exact ticksTo_hlt g
  | iret => exact ticksTo_iret hr g
  | push => exact (runs_push s hr).ticksTo_end
  | pop => exact (runs_pop s hr).ticksTo_end
  | st => exact (runs_store s hr).ticksTo_end
  | jc | jnc | jn | jnn | jz | jnz | jmp => exact ticksTo_branchDecision hr _
  | _ => exact ticksTo_x1 hr (by simp only [groupX1, executeFlow, hop])

/-! ### The operand sequences -/

/-- A sequence of datapath signals keeps the instruction in `CR`. -/
theorem Flow.Data.cr_of_go {s t : State} {x : Flow} (h : x.Data s) (e : x = .go t) : t.cr = s.cr := by
  subst e
  obtain ⟨-, -, -, -, hcr⟩ := data_frame h
  exact hcr

/-- The operand fetch, in the one class that has it (40_cycle_alu.md R71). -/
def operandFetch (op : Opcode) (s : State) : Flow := if op.cls = some .address then groupOf s else .go s

/-- A meaning that makes an address fetch. -/
theorem meaningFlow_indirect {x : Cell} (hvt : x.vt = .addressIndirect)
    (hcls : x.op.cls = some .address ∨ x.op.cls = some .branch) (s : State) :
    meaningFlow x s = (groupAf s).andThen fun t => (operandFetch x.op t).andThen (executeFlow x.op) := by
  obtain hcls | hcls := hcls
  · simp [meaningFlow, operandFlow, operandFetch, addressPrefix, addressFetch, isIndirect, hvt, hcls, andThen_assoc]
  · simp [meaningFlow, operandFlow, operandFetch, addressFetch, isIndirect, hvt, hcls]

/-- A meaning that makes none, for its value type or for its class (30_encoding.md R49). -/
theorem meaningFlow_direct {x : Cell} {k : OpClass} (hcls : x.op.cls = some k)
    (hdir : ¬(x.vt = .addressIndirect ∧ (k = .address ∨ k = .branch))) (s : State) :
    meaningFlow x s = (operandFetch x.op s).andThen (executeFlow x.op) := by
  unfold meaningFlow
  congr 1
  cases k <;> simp_all [operandFlow, operandFetch, addressPrefix, addressFetch, isIndirect]

/-- The operand fetch where there is one, and the execute sequence. -/
theorem ticksTo_operandFetch {s : State} (hr : s.status = .running) (g : TickGroup) :
    TicksTo s.tick (if s.cr.op.cls = some .address then ⟨.of, s⟩ else beginExecute g s)
      (completeCycle ((operandFetch s.cr.op s).andThen (executeFlow s.cr.op)).state) := by
  unfold operandFetch
  split
  · have hruns : Runs ⟨.of, s⟩ (beginExecute .of) (groupOf s) := runs_group hr rfl (oneTick_of s)
    refine hruns.ticksTo fun t e h => ?_
    rw [← (latchRead_data .of s).cr_of_go e]
    exact ticksTo_beginExecute h .of
  · exact ticksTo_beginExecute hr g

/-- The address fetch, after which the class decides what comes next (40_cycle_alu.md R75). -/
theorem ticksTo_addressFetch {s : State} (hr : s.status = .running) :
    TicksTo s.tick ⟨.af, s⟩ (completeCycle ((groupAf s).andThen fun t =>
      (operandFetch s.cr.op t).andThen (executeFlow s.cr.op)).state) := by
  have hruns : Runs ⟨.af, s⟩ afterAddressFetch (groupAf s) := runs_group hr rfl (oneTick_af s)
  refine hruns.ticksTo fun t e h => ?_
  rw [← (latchRead_data .af s).cr_of_go e]
  exact ticksTo_operandFetch h .af

/-- The decoder yields nothing exactly for a cell that is no instruction (40_cycle_alu.md R69, 30_encoding.md R47). -/
theorem decodeControl_eq_none_iff {c : Config} {x : Cell} :
    decodeControl c x = none ↔ instrOfCell c x = .error .reservedOpcode := by
  obtain ⟨op, v, t⟩ := x
  cases op with
  | div => cases hd : c.hasDiv <;> simp [instrOfCell, decodeControl, Opcode.cls, hd]
  | _ => simp [instrOfCell, decodeControl, Opcode.cls]

theorem afterDecode_indirect {s : State} {k : OpClass} (hd : decodeControl s.cfg s.cr = some (k, true)) :
    afterDecode s = ⟨.af, s⟩ := by
  simp only [afterDecode, hd]

theorem afterDecode_direct {s : State} {k : OpClass} (hd : decodeControl s.cfg s.cr = some (k, false))
    (hcls : s.cr.op.cls = some k) :
    afterDecode s = if s.cr.op.cls = some .address then ⟨.of, s⟩ else beginExecute .f3 s := by
  cases k <;> simp [afterDecode, hd, hcls]

/-- After the decoder the control unit fetches the operands that the meaning fetches. -/
theorem ticksTo_afterDecode {s : State} (hr : s.status = .running) {i : Instr} (hi : instrOfCell s.cfg s.cr = .ok i) :
    TicksTo s.tick (afterDecode s) (completeCycle (meaningFlow s.cr s).state) := by
  cases hd : decodeControl s.cfg s.cr with
  | none =>
    rw [decodeControl_eq_none_iff.mp hd] at hi
    cases hi
  | some ki =>
    obtain ⟨k, ind⟩ := ki
    obtain ⟨hcls, hind⟩ := decodeControl_eq_some hd
    cases ind with
    | true =>
      obtain ⟨hvt, hk⟩ := hind.mp rfl
      rw [afterDecode_indirect hd, meaningFlow_indirect hvt (by simpa [hcls] using hk)]
      exact ticksTo_addressFetch hr
    | false =>
      rw [afterDecode_direct hd hcls, meaningFlow_direct hcls fun h => Bool.false_ne_true (hind.mpr h)]
      exact ticksTo_operandFetch hr .f3

/-! ### The whole step -/

/-- A reserved opcode number stops the control unit after `F3`, with no tick of its own (30_encoding.md R47). -/
theorem ticksTo_unknownOpcode {s : State} (h : instrOfCell s.cfg s.cr = .error .reservedOpcode) :
    TicksTo s.tick (afterDecode s) (unknownOpcode s) := by
  simp only [afterDecode, decodeControl_eq_none_iff.mpr h]
  exact ticksTo_of_stopped ⟨.f3, unknownOpcode s⟩ nofun

theorem step_ticksTo {s t : State} (h : step s = .next t) : TicksTo s.tick (.atReset s) t := by
  obtain ⟨hr, hcases⟩ := step_cases h
  have hruns := runs_cycleStart s hr
  obtain e | ⟨u, e, hdr, hu⟩ := hcases <;> rw [e] at hruns
  · exact hruns.ticksTo_of_stop
  · refine hruns.ticksTo_of_go ?_
    obtain ⟨hi, rfl⟩ | ⟨i, v, hi, hcell, hv, -, rfl⟩ := hu
    · exact ticksTo_unknownOpcode hi
    · rw [exec_eq_meaningFlow, hcell, present_self u u.cr hdr rfl] at hv
      cases hv
      exact ticksTo_afterDecode hruns.1 hi

/-- Settles O27: the control unit runs a step sequence by sequence, from the start of the cycle to the end of the
instruction. -/
theorem tickMachineRefinesStep : Obligations.TickMachineRefinesStep := by
  intro s t h
  obtain ⟨n, hst, hle, hrun⟩ := step_ticksTo h
  refine ⟨n, hst, by omega, fun hr => ?_⟩
  obtain ⟨htick, hreset⟩ := hrun hr
  exact ⟨by omega, hreset⟩

end Sys2Proof.Machine

/-! PROOFS. The Address class (41_address.md): `Frame` says what a run of signals leaves unchanged outside memory, one rule
for each operation; `withOperand` is the state the address and operand fetch leave, whether they complete or stop; and each
instruction is its execute sequence from there. -/

namespace Sys2Proof.Machine

/-! ### The default division -/

/-- Settles O11: the quotient and the remainder are those of Lean's truncating division. -/
theorem defaultDivisionTruncates : Obligations.DefaultDivisionTruncates := by
  intro c a b hdm hb
  rw [divq_of_truncation hdm, divr_of_truncation hdm]
  have hrem : (a.tmod b).natAbs < b.natAbs := by
    rw [Int.natAbs_tmod]
    exact Nat.mod_lt _ (Int.natAbs_pos.mpr hb)
  have hquot : (b * a.tdiv b).natAbs ≤ a.natAbs := by
    rw [Int.natAbs_mul, Int.natAbs_tdiv]
    exact Nat.mul_div_le _ _
  have hneg : a ≤ 0 → a.tmod b ≤ 0 := fun ha => by
    have hflip := Int.tmod_nonneg b (Int.neg_nonneg.mpr ha)
    rw [Int.neg_tmod] at hflip
    exact Int.neg_nonneg.mp hflip
  exact ⟨(Int.mul_tdiv_add_tmod a b).symm, hrem, hquot, Int.tmod_nonneg b, hneg⟩

/-! ### What a run of signals leaves unchanged -/

/-- From `s` to `u` only the registers in the list, memory and `STATUS` may have moved, and `n` ticks went by. -/
structure Frame (rs : List Reg) (n : Nat) (s u : State) : Prop where
  regs : KeepsRegs rs s u
  ports : KeepsPorts s u
  counters : KeepsCounters s u
  took : Took n s u

theorem Frame.setReg {rs : List Reg} {n : Nat} {s u : State} (h : Frame rs n s u) {r : Reg} (x : Cell) (hr : r ∈ rs) :
    Frame rs n s (u.setReg r x) where
  regs q hq := (setReg_reg_other u r q x (ne_of_mem_of_not_mem hr hq).symm).trans (h.regs q hq)
  ports := by simpa [KeepsPorts] using h.ports
  counters := by simpa [KeepsCounters] using h.counters
  took := by simpa [Took] using h.took

theorem Frame.mergeAlu {rs : List Reg} {n : Nat} {s u : State} (h : Frame rs n s u) (a : AluResult) (hr : .ps ∈ rs) :
    Frame rs n s (u.mergeAlu a) := h.setReg _ hr

theorem Frame.storeCell {rs : List Reg} {n : Nat} {s u : State} (h : Frame rs n s u) (a : Int) (x : Cell) :
    Frame rs n s (u.storeCell a x) where
  regs q hq := (storeCell_reg u a x q).trans (h.regs q hq)
  ports := h.ports
  counters := h.counters
  took := h.took

theorem Frame.withStatus {rs : List Reg} {n : Nat} {s u : State} (h : Frame rs n s u) (st : Status) :
    Frame rs n s (u.withStatus st) where
  regs q hq := (withStatus_reg u st q).trans (h.regs q hq)
  ports := h.ports
  counters := h.counters
  took := h.took

/-- The end of a tick group: one tick more, with its trace tuple (40_cycle_alu.md R67, 60_exceptions.md R138). -/
theorem Frame.endTick {rs : List Reg} {n : Nat} {s u : State} (h : Frame rs n s u) (g : TickGroup) :
    Frame rs (n + 1) s (u.endTick g) where
  regs q hq := (endTick_reg u g q).trans (h.regs q hq)
  ports := h.ports
  counters := h.counters
  took := ⟨congrArg (· + 1) h.took.1, Grows.snoc h.took.2 _⟩

/-! ### What the address and operand fetch leave -/

/-- `s` with the working registers of an Address-class instruction written and one tick for each line of the trace added:
its cell `x` in `CR`, `p` in `AR`, `y` in `DR` (41_address.md R80). -/
def State.withOperand (s : State) (x p y : Cell) (l : List TraceLine) : State :=
  { s with cr := x, ar := p, dr := y, tick := s.tick + l.length, trace := s.trace ++ l }

theorem withOperand_frame {rs : List Reg} (s : State) (x p y : Cell) {l : List TraceLine} {n : Nat} (hl : l.length = n)
    (hrs : [.cr, .ar, .dr] ⊆ rs) : Frame rs n s (s.withOperand x p y l) where
  regs q hq := by
    cases q with
    | cr | ar | dr => exact absurd (hrs (by simp)) hq
    | _ => rfl
  ports := ⟨rfl, rfl⟩
  counters := ⟨rfl, rfl, rfl⟩
  took := ⟨congrArg (s.tick + ·) hl, l, hl, rfl⟩

/-- The model counts the ticks of an address fetch by `isIndirect`, the statements by the value type itself. -/
theorem fetchTicks_eq_indirectTicks (t : ValueType) : fetchTicks t = indirectTicks t := by
  simp [fetchTicks, indirectTicks, isIndirect]

/-- An Address-class instruction is the fetch of its operand and then its execute sequence (41_address.md R80). -/
theorem exec_eq_addressPrefix {i : Instr} (hi : i.cell.op.cls = some .address) (s : State) :
    exec i s = ((addressPrefix i.cell.vt (s.present i.cell)).andThen (executeFlow i.cell.op)).outcome := by
  rw [exec_eq_meaningFlow, meaningFlow, operandFlow, hi]

/-- Where the operand is there, the execute sequence starts with it in `DR` and the effective address in `AR`. -/
theorem exec_of_operand {i : Instr} (hi : i.cell.op.cls = some .address) {s : State} {p y : Cell}
    (ho : Operand s i.cell p y) :
    ∃ l, l.length = indirectTicks i.cell.vt + 1 ∧
      exec i s = (executeFlow i.cell.op (s.withOperand i.cell p y l)).outcome := by
  obtain ⟨hp, hy⟩ := ho
  obtain ⟨l, hl, e⟩ := addressPrefix_spec s i.cell p y hp hy
  refine ⟨l, fetchTicks_eq_indirectTicks _ ▸ hl, ?_⟩
  rw [exec_eq_addressPrefix hi, e, go_andThen, State.withOperand, hl]

/-! ### Where the address and operand fetch stop -/

/-- The machine has stopped after `n` ticks with the cell `x` of an Address-class instruction in `CR`, `p` in `AR` and `y`
in `DR`, and nothing else has moved. -/
def StopsWithOperand (cause : FatalCause) (x p y : Cell) (n : Nat) (s u : State) : Prop :=
  u.status = .fatal cause ∧ LeavesOperand x p y u ∧ KeepsRegs [.cr, .ar, .dr] s u ∧ KeepsMemory s u ∧ KeepsPorts s u ∧
    KeepsCounters s u ∧ Took n s u

theorem withOperand_stops (s : State) (x p y : Cell) {l : List TraceLine} {n : Nat} (hl : l.length = n)
    (cause : FatalCause) : StopsWithOperand cause x p y n s ((s.withOperand x p y l).withStatus (.fatal cause)) :=
  have hf := (withOperand_frame s x p y hl (List.Subset.refl _)).withStatus (.fatal cause)
  ⟨rfl, ⟨rfl, rfl, rfl⟩, hf.regs, fun _ => rfl, hf.ports, hf.counters, hf.took⟩

/-- A pointer out of range stops the address fetch with the instruction cell still in `DR` (40_cycle_alu.md R70). -/
theorem exec_of_pointerOutOfRange {i : Instr} (hi : i.cell.op.cls = some .address) {s : State}
    (hp : resolvedCell s i.cell = none) :
    ∃ u, exec i s = .next u ∧ StopsWithOperand .addressOutOfRange i.cell i.cell i.cell 0 s u := by
  obtain ⟨-, -, e⟩ := addressFetch_none s i.cell hp
  refine ⟨_, ?_, withOperand_stops s i.cell i.cell i.cell (l := []) rfl .addressOutOfRange⟩
  rw [exec_eq_addressPrefix hi, addressPrefix, e]
  simp [State.withOperand, State.withStatus]

/-- An effective address out of range stops the operand fetch with the cell that named it still in `DR`
(40_cycle_alu.md R71). -/
theorem exec_of_operandOutOfRange {i : Instr} (hi : i.cell.op.cls = some .address) {s : State} {p : Cell}
    (hp : resolvedCell s i.cell = some p) (hy : memRead s p.value = none) :
    ∃ u, exec i s = .next u ∧ StopsWithOperand .addressOutOfRange i.cell p p (indirectTicks i.cell.vt) s u := by
  obtain ⟨l, hl, e⟩ := addressPrefix_outOfRange s i.cell p hp ((memRead_eq_none s _).mp hy)
  refine ⟨_, ?_, withOperand_stops s i.cell p p (hl.trans (fetchTicks_eq_indirectTicks _)) .addressOutOfRange⟩
  rw [exec_eq_addressPrefix hi, e, stop_andThen, outcome_eq, ← hl]
  rfl

/-- Settles O43: the read of `AF` and the read of `OF` are the only signals before the execute ticks that can fail. -/
theorem addressFaultsInPrefix : Obligations.AddressFaultsInPrefix := fun _ _ hi =>
  ⟨exec_of_pointerOutOfRange hi, fun _ => exec_of_operandOutOfRange hi⟩

/-! ### Marked ALU calls on the operand -/

theorem aluFlags_go {op : AluOp} {r : Cell} (h : aluFails op r = false) (l : Cell) (s : State) :
    aluFlags op l r s = .go (s.mergeAlu (alu s.cfg op l r)) := by
  simpa [h] using aluFlags_spec op l r s

theorem aluToAc_go {op : AluOp} {r : Cell} (h : aluFails op r = false) (l : Cell) (s : State) :
    aluToAc op l r s = .go ((s.mergeAlu (alu s.cfg op l r)).setReg .ac (alu s.cfg op l r).res) := by
  simpa [h] using aluToAc_spec op l r s

theorem aluToAc_stop {op : AluOp} {r : Cell} (h : aluFails op r = true) (l : Cell) (s : State) :
    aluToAc op l r s = .stop (s.withStatus (.fatal .divideByZero)) := by
  simpa [h] using aluToAc_spec op l r s

/-- Only a zero divisor fails (40_cycle_alu.md R62). -/
theorem aluFails_of_value_ne_zero (op : AluOp) {r : Cell} (h : r.value ≠ 0) : aluFails op r = false := by
  simp [aluFails, h]

/-- An execute tick `AC <- ALUF(op, a, b)` that does not fail: `AC` and the three flags move, as the ALU answers for `a` and
`b`. -/
theorem completes_of_aluToAc {i : Instr} (hi : i.cell.op.cls = some .address) {s : State} (hc : s.cfg.legal = true)
    {p y : Cell} (ho : Operand s i.cell p y) {op : AluOp} {a b : Cell} (hf : aluFails op b = false)
    (hx : ∀ l, executeFlow i.cell.op (s.withOperand i.cell p y l) =
      (aluToAc op a b (s.withOperand i.cell p y l)).andThen (tickGo .x1)) :
    ∃ u, exec i s = .next u ∧ u.ac = (alu s.cfg op a b).res ∧ FlagsOf (aluRaw s.cfg op a.value b.value) s u ∧
      LeavesOperand i.cell p y u ∧ KeepsRegs [.ac, .ps, .cr, .ar, .dr] s u ∧ KeepsMemory s u ∧ KeepsPorts s u ∧
      KeepsControl s u ∧ Took (indirectTicks i.cell.vt + 2) s u := by
  obtain ⟨l, hl, e⟩ := exec_of_operand hi ho
  rw [hx, aluToAc_go hf, go_andThen, tickGo_eq] at e
  have hflags := mergeAlu_flagsOf (s.withOperand i.cell p y l) hc op a b
  have hfetched : Frame [.ac, .ps, .cr, .ar, .dr] _ s _ := withOperand_frame s i.cell p y hl (by simp)
  have hframe := ((hfetched.mergeAlu (alu s.cfg op a b) (by simp)).setReg (r := .ac) (alu s.cfg op a b).res
    (by simp)).endTick .x1
  exact ⟨_, e, rfl, hflags, ⟨rfl, rfl, rfl⟩, hframe.regs, fun _ => rfl, hframe.ports, ⟨hframe.counters, rfl⟩,
    hframe.took⟩

/-- The arithmetic and logic instructions call the ALU on `AC` and the operand (41_address.md section 4). -/
theorem completesAlu_of_operand {i : Instr} {op : AluOp} (hi : i.cell.op.cls = some .address)
    (hx : executeFlow i.cell.op = x1Alu op) {s : State} (hc : s.cfg.legal = true) {p y : Cell}
    (ho : Operand s i.cell p y) (hf : aluFails op y = false) :
    CompletesAlu i (aluRaw s.cfg op s.ac.value y.value) p y s :=
  completes_of_aluToAc hi hc ho hf fun _ => by rw [hx]; rfl

/-- Settles O39: none of the three can fail, and their exact results are the ALU's `raw`. -/
theorem addSubMulComplete : Obligations.AddSubMulComplete := fun _ t v _ _ hc =>
  ⟨fun ho => completesAlu_of_operand (i := .add t v) (op := .add) rfl rfl hc ho rfl,
    fun ho => completesAlu_of_operand (i := .sub t v) (op := .sub) rfl rfl hc ho rfl,
    fun ho => completesAlu_of_operand (i := .mul t v) (op := .mul) rfl rfl hc ho rfl⟩

/-- Settles O40: a divisor other than 0 cannot fail, whatever pair `DIVMOD` is. -/
theorem divModComplete : Obligations.DivModComplete := fun _ t v _ _ hc h0 =>
  ⟨fun ho => completesAlu_of_operand (i := .div t v) (op := .div) rfl rfl hc ho (aluFails_of_value_ne_zero _ h0),
    fun ho => completesAlu_of_operand (i := .mod t v) (op := .mod) rfl rfl hc ho (aluFails_of_value_ne_zero _ h0)⟩

/-- Settles O42: the exact result is the sign extension of a `W`-bit pattern, which is a word. -/
theorem orAndComplete : Obligations.OrAndComplete := fun s t v _ y hc =>
  ⟨fun ho => ⟨completesAlu_of_operand (i := .or t v) (op := .or) rfl rfl hc ho rfl,
      isWord_sextW s.cfg hc _ (or_lt_full s.cfg s.ac.value y.value)⟩,
    fun ho => ⟨completesAlu_of_operand (i := .and t v) (op := .and) rfl rfl hc ho rfl,
      isWord_sextW s.cfg hc _ (and_lt_full s.cfg s.ac.value y.value)⟩⟩

/-- An ALU call that fails stops the execute tick before any write (41_address.md R87, R88). -/
theorem x1Alu_stop {op : AluOp} {s : State} (h : aluFails op s.dr = true) :
    x1Alu op s = .stop (s.withStatus (.fatal .divideByZero)) := by
  rw [x1Alu, aluToAc_stop h, stop_andThen]

/-- After such a stop only the fetch of the operand has acted. -/
theorem stops_of_aluFails {i : Instr} {op : AluOp} (hi : i.cell.op.cls = some .address)
    (hx : executeFlow i.cell.op = x1Alu op) {s : State} {p y : Cell} (ho : Operand s i.cell p y)
    (hf : aluFails op y = true) :
    ∃ u, exec i s = .next u ∧ StopsWithOperand .divideByZero i.cell p y (indirectTicks i.cell.vt + 1) s u := by
  obtain ⟨l, hl, e⟩ := exec_of_operand hi ho
  rw [hx, x1Alu_stop hf] at e
  exact ⟨_, e, withOperand_stops s i.cell p y hl .divideByZero⟩

/-- Settles O41: a zero divisor fails the call of both. -/
theorem divisionByZeroStops : Obligations.DivisionByZeroStops := by
  intro s i t v p y hi h0 ho
  have hf : ∀ op : AluOp, op = .div ∨ op = .mod → aluFails op y = true := fun op hop => by simp [aluFails, hop, h0]
  obtain rfl | rfl := hi
  · exact stops_of_aluFails (op := .div) rfl rfl ho (hf _ (.inl rfl))
  · exact stops_of_aluFails (op := .mod) rfl rfl ho (hf _ (.inr rfl))

/-! ### `LD`, `CMP` and `ST` -/

/-- The ALU passes a word through on the left with its tags (40_cycle_alu.md R62). -/
theorem alu_left_res {c : Config} (hc : c.legal = true) {x : Cell} (hx : x.wf c = true) (r : Cell) :
    (alu c .left x r).res = x := by
  have hw : wrap c x.value = x.value := wrap_of_isWord c hc _ hx
  show (⟨x.op, wrap c x.value, x.vt⟩ : Cell) = x
  rw [hw]

/-- The flags of an exact result that is a word are those of the result itself, with `C` 0 (40_cycle_alu.md R63). -/
theorem flags_of_isWord {raw : Int} {s u : State} (hc : s.cfg.legal = true) (hw : s.cfg.isWord raw = true)
    (h : FlagsOf raw s u) :
    flagZ u = decide (raw = 0) ∧ flagN u = decide (raw < 0) ∧ flagC u = false ∧ KeepsPs (fun i => 3 ≤ i) s u := by
  obtain ⟨hz, hn, hcy, hps⟩ := h
  obtain ⟨hmin, hmax⟩ : s.cfg.wordMin ≤ raw ∧ raw ≤ s.cfg.wordMax := by simpa [Config.isWord] using hw
  rw [wrap_of_isWord s.cfg hc raw hw] at hz hn
  rw [decide_eq_false hmin.not_gt, decide_eq_false hmax.not_gt] at hcy
  exact ⟨hz, hn, hcy, hps⟩

/-- Settles O36: the passthrough of the operand cell, which is a word and so neither wraps nor sets `C`. -/
theorem ldLoadsWholeCell : Obligations.LdLoadsWholeCell := by
  intro s t v p y hc hy ho
  obtain ⟨u, e, hac, hflags, hrest⟩ :=
    completes_of_aluToAc (i := .ld t v) (op := .left) (a := y) (b := s.ac) rfl hc ho rfl fun _ => rfl
  obtain ⟨hz, hn, hcy, hps⟩ := flags_of_isWord hc hy hflags
  exact ⟨u, e, hac.trans (alu_left_res hc hy s.ac), hz, hn, hcy, hps, hrest⟩

/-- The execute tick of `CMP` cannot fail: a subtraction has no divisor (41_address.md R83). -/
theorem x1Cmp_go (s : State) : x1Cmp s = .go ((s.mergeAlu (alu s.cfg .sub s.ac s.dr)).endTick .x1) := by
  rw [x1Cmp, aluFlags_go rfl, go_andThen, tickGo_eq]

/-- Settles O38: the difference's flags are merged, and nothing writes `AC`. -/
theorem cmpSetsFlagsOnly : Obligations.CmpSetsFlagsOnly := by
  intro s t v p y hc ho
  obtain ⟨l, hl, e⟩ := exec_of_operand (i := .cmp t v) rfl ho
  have hcmp := x1Cmp_go (s.withOperand ⟨.cmp, v, t⟩ p y l)
  have hflags := mergeAlu_flagsOf (s.withOperand ⟨.cmp, v, t⟩ p y l) hc .sub s.ac y
  have hfetched : Frame [.ps, .cr, .ar, .dr] _ s _ := withOperand_frame s ⟨.cmp, v, t⟩ p y hl (by simp)
  have hframe := (hfetched.mergeAlu (alu s.cfg .sub s.ac y) (by simp)).endTick .x1
  exact ⟨_, e.trans (congrArg Flow.outcome hcmp), hflags, ⟨rfl, rfl, rfl⟩, hframe.regs, fun _ => rfl, hframe.ports,
    ⟨hframe.counters, rfl⟩, hframe.took⟩

/-- The state after the first execute tick of `ST` (41_address.md R82). -/
def State.afterS1 (s : State) : State := (s.setReg .dr s.ac).endTick .s1

theorem groupS1_eq (s : State) : groupS1 s = .go s.afterS1 := rfl

/-- The execute ticks of `ST` where the effective address exists (41_address.md R82). -/
theorem stExecute_go {s : State} (h : inRange s s.ar.value = true) :
    stExecute s = .go ((s.afterS1.storeCell s.ar.value s.ac).endTick .s2) := by
  have hstore : drToMem s.afterS1 = .go (s.afterS1.storeCell s.ar.value s.ac) := drToMem_go h
  rw [stExecute, groupS1_eq, go_andThen, groupS2, drToMemTick, hstore, go_andThen, tickGo_eq]

/-- Settles O37: the operand was read at the effective address, so the store there succeeds. -/
theorem stStoresWholeCell : Obligations.StStoresWholeCell := by
  intro s t v p y ho
  have hin : inRange s p.value = true := ((memRead_eq_some s _ _).mp ho.2).1
  obtain ⟨l, hl, e⟩ := exec_of_operand (i := .st t v) rfl ho
  have hstore := stExecute_go (s := s.withOperand ⟨.st, v, t⟩ p y l) hin
  have hfetched : Frame [.cr, .ar, .dr] _ s _ := withOperand_frame s ⟨.st, v, t⟩ p y hl (by simp)
  have hframe := (((hfetched.setReg (r := .dr) s.ac (by simp)).endTick .s1).storeCell p.value s.ac).endTick .s2
  have hread := memRead_storeCell_same (s.withOperand ⟨.st, v, t⟩ p y l).afterS1 s.ac hin
  have hkeeps := storeCell_keepsMemoryBut (s.withOperand ⟨.st, v, t⟩ p y l).afterS1 s.ac hin
  exact ⟨_, e.trans (congrArg Flow.outcome hstore), hread, hkeeps, rfl, rfl, rfl, hframe.regs, hframe.ports,
    ⟨hframe.counters, rfl⟩, hframe.took⟩

end Sys2Proof.Machine

/-! PROOFS. The Addressless class and the stack (42_addressless.md): each instruction is its execute sequence from the state
the fetch leaves; `Pushed` and `Popped` say once what a completed push and pop leave, and the stack instructions, the
return from a handler and the symmetry of the two sequences are read off them. -/

namespace Sys2Proof.Machine

/-! ### From the fetch to the execute sequence -/

/-- An Addressless-class instruction runs no operand sequence: wherever its execute sequence ends, the instruction ends
(30_encoding.md R49). -/
theorem exec_of_executeFlow {i : Instr} (hi : i.cell.op.cls = some .addressless) {s : State} {x : Flow}
    (hx : executeFlow i.cell.op (s.present i.cell) = x) : exec i s = .next x.state := by
  rw [exec_eq_meaningFlow, meaningFlow, operandFlow, hi, go_andThen, hx, outcome_eq]

/-- Every register outside the list, one by one. -/
theorem keepsRegs_of_fields {rs : List Reg} {s u : State}
    (h : (.ac ∉ rs → u.ac = s.ac) ∧ (.ip ∉ rs → u.ip = s.ip) ∧ (.cr ∉ rs → u.cr = s.cr) ∧ (.ps ∉ rs → u.ps = s.ps) ∧
      (.sp ∉ rs → u.sp = s.sp) ∧ (.dr ∉ rs → u.dr = s.dr) ∧ (.ar ∉ rs → u.ar = s.ar)) : KeepsRegs rs s u := by
  obtain ⟨hac, hip, hcr, hps, hsp, hdr, har⟩ := h
  intro r
  cases r with
  | ac => exact hac
  | ip => exact hip
  | cr => exact hcr
  | ps => exact hps
  | sp => exact hsp
  | dr => exact hdr
  | ar => exact har

theorem Frame.refl {rs : List Reg} (s : State) : Frame rs 0 s s where
  regs _ _ := rfl
  ports := ⟨rfl, rfl⟩
  counters := ⟨rfl, rfl, rfl⟩
  took := ⟨rfl, Grows.refl _⟩

theorem Frame.mono {rs rs' : List Reg} {n : Nat} {s u : State} (h : Frame rs n s u) (hrs : rs ⊆ rs') :
    Frame rs' n s u where
  regs q hq := h.regs q fun hmem => hq (hrs hmem)
  ports := h.ports
  counters := h.counters
  took := h.took

theorem Frame.trans {rs : List Reg} {m n : Nat} {s t u : State} (h : Frame rs m s t) (k : Frame rs n t u) :
    Frame rs (m + n) s u where
  regs q hq := (k.regs q hq).trans (h.regs q hq)
  ports := ⟨k.ports.1.trans h.ports.1, k.ports.2.trans h.ports.2⟩
  counters :=
    have ⟨hcfg, hicount, hdepth⟩ := h.counters
    have ⟨kcfg, kicount, kdepth⟩ := k.counters
    ⟨kcfg.trans hcfg, kicount.trans hicount, kdepth.trans hdepth⟩
  took := ⟨by rw [k.took.1, h.took.1, Nat.add_assoc], Grows.trans h.took.2 k.took.2⟩

/-- The fetch leaves the instruction cell in `CR` and `DR` (40_cycle_alu.md R68). -/
theorem present_frame {rs : List Reg} (s : State) (x : Cell) (hrs : [.cr, .dr] ⊆ rs) : Frame rs 0 s (s.present x) :=
  ((Frame.refl s).setReg x (hrs (by simp))).setReg x (hrs (by simp))

/-- The frame of an execute sequence that starts from the fetched instruction. -/
theorem Frame.of_present {rs rs' : List Reg} {n : Nat} {s u : State} {x : Cell} (h : Frame rs n (s.present x) u)
    (hfetched : [.cr, .dr] ⊆ rs') (hrs : rs ⊆ rs') : Frame rs' n s u :=
  n.zero_add ▸ (present_frame s x hfetched).trans (h.mono hrs)

/-! ### `NOP`, `HLT` and a top-level `IRET` -/

/-- Settles O44: the tick is the only signal. -/
theorem nopTakesOneTick : Obligations.NopTakesOneTick := by
  intro s t v
  have e := exec_of_executeFlow (i := .nop t v) rfl (s := s) (tickGo_eq _ .x1)
  have hframe := (present_frame s ⟨.nop, v, t⟩ (List.Subset.refl _)).endTick .x1
  exact ⟨_, e, ⟨rfl, rfl⟩, hframe.regs, fun _ => rfl, hframe.ports, ⟨hframe.counters, rfl⟩, hframe.took⟩

/-- An instruction that only sets `STATUS` leaves the state after the fetch with it (60_exceptions.md R121). -/
theorem stops_of_executeFlow {i : Instr} (hi : i.cell.op.cls = some .addressless) {s : State} {st : Status}
    (hx : executeFlow i.cell.op (s.present i.cell) = .stop ((s.present i.cell).withStatus st)) :
    ∃ u, exec i s = .next u ∧ u.status = st ∧ LeavesCell i.cell u ∧ KeepsRegs [.cr, .dr] s u ∧ KeepsMemory s u ∧
      KeepsPorts s u ∧ KeepsCounters s u ∧ Took 0 s u :=
  have hframe := (present_frame s i.cell (List.Subset.refl _)).withStatus st
  ⟨_, exec_of_executeFlow hi hx, rfl, ⟨rfl, rfl⟩, hframe.regs, fun _ => rfl, hframe.ports, hframe.counters, hframe.took⟩

/-- Which of its two stops `HLT` makes (42_addressless.md R95). -/
theorem hltExecute_eq (s : State) :
    hltExecute s = .stop (s.withStatus (if s.depth = 0 then .halt else .fatal .nestedHalt)) := by
  unfold hltExecute
  split <;> rfl

/-- Settles O45: both stops are a new `STATUS` on the state after the fetch. -/
theorem hltEndsRun : Obligations.HltEndsRun := fun _ t v =>
  stops_of_executeFlow (i := .hlt t v) rfl (hltExecute_eq _)

theorem iretExecute_outside {s : State} (h : s.depth = 0) : iretExecute s = .stop (s.withStatus .interruptReturn) :=
  if_pos h

theorem iretExecute_inside {s : State} (h : 0 < s.depth) (x : Cell) :
    iretExecute (s.present x) = interruptExit (s.present x) := if_neg h.ne'

/-- Settles O46: at depth 0 the exit is not begun. -/
theorem iretOutsideHandlerEndsRun : Obligations.IretOutsideHandlerEndsRun := fun _ t v h =>
  stops_of_executeFlow (i := .iret t v) rfl (iretExecute_outside h)

/-! ### `EI` and `DI` -/

/-- An execute tick `PS <- ALUN(op, PS, mask)` whose result has `b` at bit 3 and the old bits elsewhere. -/
theorem completes_of_psLatch {i : Instr} (hi : i.cell.op.cls = some .addressless) {op : AluOp} {mask : Cell}
    (hx : ∀ t, executeFlow i.cell.op t = tickGo .x1 (t.aluLatch .ps op mask)) {s : State} {b : Bool}
    (hbit : ∀ j, (tcW s.cfg (alu s.cfg op s.ps mask).res.value).testBit j = if j = 3 then b else psBit s j) :
    ∃ u, exec i s = .next u ∧ flagEI u = b ∧ KeepsPs (fun j => j ≠ 3) s u ∧ LeavesCell i.cell u ∧
      KeepsRegs [.ps, .cr, .dr] s u ∧ KeepsMemory s u ∧ KeepsPorts s u ∧ KeepsControl s u ∧ Took 1 s u :=
  have hfetched : Frame [.ps, .cr, .dr] 0 s (s.present i.cell) := present_frame s i.cell (by simp)
  have hframe := (hfetched.setReg (r := .ps) (alu s.cfg op s.ps mask).res (by simp)).endTick .x1
  ⟨_, exec_of_executeFlow hi (hx _), (hbit 3).trans (if_pos rfl), ⟨fun j hj => (hbit j).trans (if_neg hj), rfl, rfl⟩,
    ⟨rfl, rfl⟩, hframe.regs, fun _ => rfl, hframe.ports, ⟨hframe.counters, rfl⟩, hframe.took⟩

/-- Settles O51: or-ing in 8 and and-ing with its complement move bit 3 of the pattern only. -/
theorem eiDiMoveOneBit : Obligations.EiDiMoveOneBit := by
  intro s t v hc
  constructor
  · refine completes_of_psLatch (i := .ei t v) (op := .or) (mask := eiMask) rfl (fun _ => rfl) fun j => ?_
    rw [alu_or_eiMask_testBit s.cfg hc s.ps j]
    by_cases hj : j = 3 <;> simp [hj, psBit]
  · refine completes_of_psLatch (i := .di t v) (op := .and) (mask := diMask) rfl (fun _ => rfl) fun j => ?_
    rw [alu_and_diMask_testBit s.cfg hc s.ps j]
    by_cases hj : j = 3 <;> simp [hj, psBit]

/-! ### `CLA`, `INC` and `DEC` -/

/-- And-ing with 0 gives 0, the exact result of `CLA` (42_addressless.md R101). -/
theorem aluRaw_and_zero (c : Config) (a : Int) : aluRaw c .and a 0 = 0 := by
  simp [aluRaw, tcW, sextW, half_pos]

/-- An execute tick `AC <- ALUF(op, AC, K(n))` that does not fail (42_addressless.md R101 to R103). -/
theorem completesAluConst_of_executeFlow {i : Instr} (hi : i.cell.op.cls = some .addressless) {op : AluOp} {n : Int}
    (hx : executeFlow i.cell.op = x1AluConst op n) (hf : aluFails op (Cell.const n) = false) {s : State}
    (hc : s.cfg.legal = true) : CompletesAluConst i (aluRaw s.cfg op s.ac.value n) s := by
  have e := exec_of_executeFlow hi (s := s) rfl
  rw [hx, x1AluConst, aluToAc_go hf, go_andThen, tickGo_eq] at e
  have hflags := mergeAlu_flagsOf (s.present i.cell) hc op s.ac (Cell.const n)
  have hfetched : Frame [.ac, .ps, .cr, .dr] 0 s (s.present i.cell) := present_frame s i.cell (by simp)
  have hframe := ((hfetched.mergeAlu (alu s.cfg op s.ac (Cell.const n)) (by simp)).setReg (r := .ac)
    (alu s.cfg op s.ac (Cell.const n)).res (by simp)).endTick .x1
  exact ⟨_, e, rfl, hflags, ⟨rfl, rfl⟩, hframe.regs, fun _ => rfl, hframe.ports, ⟨hframe.counters, rfl⟩, hframe.took⟩

/-- Settles O52: three marked ALU calls on a constant, none of which divides. -/
theorem claIncDecComplete : Obligations.ClaIncDecComplete := by
  intro s t v hc
  have hcla := completesAluConst_of_executeFlow (i := .cla t v) (op := .and) rfl rfl rfl hc
  rw [aluRaw_and_zero] at hcla
  exact ⟨hcla, completesAluConst_of_executeFlow (i := .inc t v) (op := .add) rfl rfl rfl hc,
    completesAluConst_of_executeFlow (i := .dec t v) (op := .sub) rfl rfl rfl hc⟩

/-! ### The two stack sequences -/

/-- What a completed `push(R)` leaves (42_addressless.md R92). -/
structure Pushed (r : Reg) (s u : State) : Prop where
  sp : u.sp = ⟨s.sp.op, s.sp.value - 1, s.sp.vt⟩
  top : memRead u (s.sp.value - 1) = some (s.reg r)
  memory : KeepsMemoryBut (s.sp.value - 1) s u
  ar : u.ar = u.sp
  dr : u.dr = s.reg r
  frame : Frame [.sp, .ar, .dr] 4 s u
  status : u.status = s.status

/-- What a completed `pop(R)` of the cell `y` leaves (42_addressless.md R93). -/
structure Popped (r : Reg) (y : Cell) (s u : State) : Prop where
  reg : u.reg r = y
  sp : u.sp = ⟨s.sp.op, s.sp.value + 1, s.sp.vt⟩
  ar : u.ar = s.sp
  dr : u.dr = y
  memory : KeepsMemory s u
  frame : Frame [r, .sp, .ar, .dr] 3 s u
  status : u.status = s.status

/-- With room on the stack a push of a register it does not write itself completes. -/
theorem push_go {r : Reg} (hr : r ∉ [Reg.sp, .ar]) (g1 g2 g3 g4 : TickGroup) {s : State} (hc : s.cfg.legal = true)
    (h1 : 1 ≤ s.sp.value) (h2 : s.sp.value ≤ (s.cfg.addrMax : Int) + 1) :
    ∃ u, push r g1 g2 g3 g4 s = .go u ∧ Pushed r s u := by
  have hin : inRange s (s.sp.value - 1) = true := (inRange_iff s _).mpr (by omega)
  have htop := (alu_sub_one s.cfg hc s.sp (by omega) h2).symm
  obtain ⟨hsp, har⟩ : r ≠ .sp ∧ r ≠ .ar := by simpa using hr
  obtain ⟨tr, -, hg, e⟩ | ⟨tr, hout, -, -⟩ := push_spec r g1 g2 g3 g4 s hsp har _ htop
  · exact ⟨_, e, {
      sp := rfl
      top := memRead_storeCell_same s (s.reg r) hin
      memory := storeCell_keepsMemoryBut s (s.reg r) hin
      ar := rfl
      dr := rfl
      frame := ⟨keepsRegs_of_fields (by simp), ⟨rfl, rfl⟩, ⟨rfl, rfl, rfl⟩, rfl, hg⟩
      status := rfl }⟩
  · rw [hin] at hout
    cases hout

/-- Where the stack has a cell the counted-up stack pointer stays in the word range. -/
theorem spUp_of_inRange {s : State} (hc : s.cfg.legal = true) (h : inRange s s.sp.value = true) :
    (alu s.cfg .add s.sp (Cell.const 1)).res = ⟨s.sp.op, s.sp.value + 1, s.sp.vt⟩ :=
  have ⟨h0, h1⟩ := (inRange_iff s _).mp h
  alu_add_one s.cfg hc s.sp h0 h1

/-- Where the stack has a cell a pop into a register it does not write itself completes with that cell. -/
theorem pop_go {r : Reg} (hr : r ∉ [Reg.sp, .ar, .dr]) (g1 g2 g3 : TickGroup) {s : State} (hc : s.cfg.legal = true)
    {y : Cell} (hy : memRead s s.sp.value = some y) : ∃ u, pop r g1 g2 g3 s = .go u ∧ Popped r y s u := by
  have hin : inRange s s.sp.value = true := ((memRead_eq_some s _ _).mp hy).1
  obtain ⟨x, tr, hx, hg, e⟩ | ⟨tr, hout, -, -⟩ := pop_spec r g1 g2 g3 s
  · obtain rfl : y = x := Option.some.inj (hy.symm.trans hx)
    rw [spUp_of_inRange hc hin] at e
    have hother : ∀ q ∈ [Reg.sp, .ar, .dr], q ≠ r := fun q hq => ne_of_mem_of_not_mem hq hr
    have hbefore : Frame [r, .sp, .ar, .dr] 3 s
        { s with ar := s.sp, dr := y, sp := ⟨s.sp.op, s.sp.value + 1, s.sp.vt⟩, tick := s.tick + 3, trace := tr } :=
      ⟨keepsRegs_of_fields (by simp), ⟨rfl, rfl⟩, ⟨rfl, rfl, rfl⟩, rfl, hg⟩
    exact ⟨_, e, {
      reg := setReg_reg_same _ r y
      sp := setReg_reg_other _ r .sp y (hother .sp (by simp))
      ar := setReg_reg_other _ r .ar y (hother .ar (by simp))
      dr := setReg_reg_other _ r .dr y (hother .dr (by simp))
      memory := fun a => memRead_setReg _ r y a
      frame := hbefore.setReg y (by simp)
      status := setReg_status _ r y }⟩
  · rw [hin] at hout
    cases hout

/-- Settles O35: the pop reads the cell the push has stored, and counts `SP` back up. -/
theorem pushThenPopIsSymmetric : Obligations.PushThenPopIsSymmetric := by
  intro s r r' g1 g2 g3 g4 g5 g6 g7 hc hr hr' h1 h2
  have hpushable : r ∉ [Reg.sp, .ar] := fun h => by cases r <;> simp at hr h
  have hpoppable : r' ∉ [Reg.sp, .ar, .dr] := fun h => by cases r' <;> simp at hr' h
  obtain ⟨t, et, ht⟩ := push_go hpushable g1 g2 g3 g4 hc h1 h2
  have htop : memRead t t.sp.value = some (s.reg r) := by rw [ht.sp]; exact ht.top
  obtain ⟨u, eu, hu⟩ := pop_go hpoppable g5 g6 g7 (ht.frame.counters.1 ▸ hc) htop
  have hframe : Frame [r', .sp, .ar, .dr] 7 s u := (ht.frame.mono (List.subset_cons_self _ _)).trans hu.frame
  have hsp : u.sp = s.sp := by rw [hu.sp, ht.sp, Int.sub_add_cancel]
  have hregs : KeepsRegs [r', .ar, .dr] s u := fun q hq => by
    by_cases hq' : q = .sp
    · rw [hq']; exact hsp
    · exact hframe.regs q (by simp at hq ⊢; tauto)
  exact ⟨u, by rw [et, go_andThen, eu], hsp, hu.reg, (hu.memory _).trans ht.top, hregs,
    fun a ha => (hu.memory a).trans (ht.memory a ha), hframe.ports, ⟨hframe.counters, hu.status.trans ht.status⟩,
    hframe.took⟩

/-! ### `PUSH`, `POP` and the return from a handler -/

/-- Settles O48: the push of `AC` from the state after the fetch. -/
theorem pushStoresAtLoweredSp : Obligations.PushStoresAtLoweredSp := by
  intro s t v hc h1 h2
  obtain ⟨u, eu, hu⟩ := push_go (r := .ac) (by simp) .pu1 .pu2 .pu3 .pu4 (s := s.present ⟨.push, v, t⟩) hc h1 h2
  have e := exec_of_executeFlow (i := .push t v) rfl eu
  have hframe : Frame [.sp, .ar, .dr, .cr] 4 s u := hu.frame.of_present (by simp) (by simp)
  exact ⟨u, e, hu.sp, hu.top, hu.memory, hu.ar, hu.dr, hu.frame.regs .cr (by simp), hframe.regs, hframe.ports,
    ⟨hframe.counters, hu.status⟩, hframe.took⟩

/-- Settles O49: the pop into `AC` from the state after the fetch; a latch sets no flag. -/
theorem popLoadsTopOfStack : Obligations.PopLoadsTopOfStack := by
  intro s t v y hc hy
  obtain ⟨u, eu, hu⟩ := pop_go (r := .ac) (by simp) .po1 .po2 .po3 (s := s.present ⟨.pop, v, t⟩) hc hy
  have e := exec_of_executeFlow (i := .pop t v) rfl eu
  have hframe : Frame [.ac, .sp, .ar, .dr, .cr] 3 s u := hu.frame.of_present (by simp) (by simp)
  exact ⟨u, e, hu.reg, hu.sp, hu.ar, hu.dr, hu.frame.regs .cr (by simp), hframe.regs, hu.memory, hframe.ports,
    ⟨hframe.counters, hu.status⟩, hframe.took⟩

/-- `SP` after the first pop of an exit, where there is a cell to pop. -/
theorem exitSp1_of_inRange {s : State} (hc : s.cfg.legal = true) (h : inRange s s.sp.value = true) :
    exitSp1 s = ⟨s.sp.op, s.sp.value + 1, s.sp.vt⟩ := spUp_of_inRange hc h

/-- `SP` after both pops of an exit, where there are two cells to pop. -/
theorem exitSp2_of_inRange {s : State} (hc : s.cfg.legal = true) (h : inRange s s.sp.value = true)
    (h' : inRange s (s.sp.value + 1) = true) : exitSp2 s = ⟨s.sp.op, s.sp.value + 2, s.sp.vt⟩ := by
  have ⟨h0, h1⟩ := (inRange_iff s _).mp h'
  rw [exitSp2, exitSp1_of_inRange hc h, alu_add_one s.cfg hc _ h0 h1, Int.add_assoc]
  rfl

/-- Settles O47: the interrupt exit from the state after the fetch; or-ing in 8 sets `EI` in the popped `PS`. -/
theorem iretReturnsFromHandler : Obligations.IretReturnsFromHandler := by
  intro s t v q i hc hd hq hi
  have hin : inRange s s.sp.value = true := ((memRead_eq_some s _ _).mp hq).1
  have hin' : inRange s (s.sp.value + 1) = true := ((memRead_eq_some s _ _).mp hi).1
  have hsp1 := exitSp1_of_inRange (s := s.present ⟨.iret, v, t⟩) hc hin
  have hsp2 := exitSp2_of_inRange (s := s.present ⟨.iret, v, t⟩) hc hin hin'
  obtain ⟨tr, hg, eu⟩ := interruptExit_go (s.present ⟨.iret, v, t⟩) q i hq (by rw [hsp1]; exact hi)
  rw [hsp1, hsp2] at eu
  have e := exec_of_executeFlow (i := .iret t v) rfl ((iretExecute_inside hd _).trans eu)
  have hbit := alu_or_eiMask_testBit s.cfg hc q
  have hbits : ∀ j, j ≠ 3 → (tcW s.cfg (alu s.cfg .or q eiMask).res.value).testBit j = (tcW s.cfg q.value).testBit j :=
    fun j hj => by simp [hbit, hj]
  exact ⟨_, e, rfl, hbit 3, hbits, rfl, rfl, rfl, rfl, rfl, rfl, keepsRegs_of_fields (by simp), fun _ => rfl,
    ⟨rfl, rfl⟩, rfl, rfl, Nat.sub_add_cancel hd, rfl, rfl, hg⟩

/-! ### Stack accesses out of range -/

/-- One below the least word is the greatest. -/
theorem wrap_wordMin_sub_one {c : Config} (hc : c.legal = true) : wrap c (c.wordMin - 1) = c.wordMax := by
  have hf := full_eq_of_legal c hc
  have hpos := half_pos c
  have hbelow : c.wordMin - 1 + (c.half : Int) = -1 := by
    unfold Config.wordMin
    omega
  rw [wrap, hbelow, ← Int.add_emod_right, Int.emod_eq_of_lt (by omega) (by omega)]
  unfold Config.wordMax
  omega

/-- A push has no room where `SP` is at most 0 or above `ADDR_MAX + 1`: counting down leaves the range or, at the least
word, wraps to the greatest, which is above `ADDR_MAX` too. -/
theorem spDown_outOfRange {s : State} (hc : s.cfg.legal = true) (hw : s.sp.wf s.cfg = true)
    (h : s.sp.value ≤ 0 ∨ (s.cfg.addrMax : Int) + 1 < s.sp.value) :
    inRange s (wrap s.cfg (s.sp.value - 1)) = false := by
  have hmax := addrMax_of_legal s.cfg hc
  have hword := (isWord_iff s.cfg s.sp.value).mp hw
  rw [inRange_eq_false_iff]
  by_cases hmin : s.sp.value = s.cfg.wordMin
  · rw [hmin, wrap_wordMin_sub_one hc]
    omega
  · have hdown : s.cfg.isWord (s.sp.value - 1) = true := by
      rw [isWord_iff]
      unfold Config.wordMin at hmin
      omega
    rw [wrap_of_isWord s.cfg hc _ hdown]
    omega

/-- A push without room stops at its store, with `SP`, `AR` and `DR` changed (60_exceptions.md R124). -/
theorem push_stop {r : Reg} (hr : r ∉ [Reg.sp, .ar]) (g1 g2 g3 g4 : TickGroup) {s : State}
    (h : inRange s (wrap s.cfg (s.sp.value - 1)) = false) :
    ∃ tr, Grows 3 s.trace tr ∧
      push r g1 g2 g3 g4 s =
        .stop { s with sp := ⟨s.sp.op, wrap s.cfg (s.sp.value - 1), s.sp.vt⟩,
                       ar := ⟨s.sp.op, wrap s.cfg (s.sp.value - 1), s.sp.vt⟩, dr := s.reg r, tick := s.tick + 3,
                       trace := tr, status := .fatal .addressOutOfRange } := by
  obtain ⟨hsp, har⟩ : r ≠ .sp ∧ r ≠ .ar := by simpa using hr
  obtain ⟨tr, hin, -, -⟩ | ⟨tr, -, hg, e⟩ := push_spec r g1 g2 g3 g4 s hsp har _ rfl
  · exact absurd (hin.symm.trans h) (by simp)
  · exact ⟨tr, hg, e⟩

/-- A pop with no cell to pop stops at its read, with `AR` latched (60_exceptions.md R124). -/
theorem pop_stop (r : Reg) (g1 g2 g3 : TickGroup) {s : State} (h : inRange s s.sp.value = false) :
    ∃ tr, Grows 1 s.trace tr ∧
      pop r g1 g2 g3 s =
        .stop { s with ar := s.sp, tick := s.tick + 1, trace := tr, status := .fatal .addressOutOfRange } := by
  obtain ⟨x, tr, hx, -, -⟩ | ⟨tr, -, hg, e⟩ := pop_spec r g1 g2 g3 s
  · rw [(memRead_eq_none s _).mpr h] at hx
    cases hx
  · exact ⟨tr, hg, e⟩

/-- An instruction whose execute sequence stops at the read of its first tick group. -/
theorem stops_of_firstRead {i : Instr} (hi : i.cell.op.cls = some .addressless) {s : State}
    (hx : ∃ tr, Grows 1 s.trace tr ∧ executeFlow i.cell.op (s.present i.cell) =
      .stop { s.present i.cell with ar := s.sp, tick := s.tick + 1, trace := tr, status := .fatal .addressOutOfRange }) :
    ∃ u, exec i s = .next u ∧ u.status = .fatal .addressOutOfRange ∧ u.ar = s.sp ∧ LeavesCell i.cell u ∧
      KeepsRegs [.ar, .cr, .dr] s u ∧ KeepsMemory s u ∧ KeepsPorts s u ∧ KeepsCounters s u ∧ Took 1 s u := by
  obtain ⟨tr, hg, ex⟩ := hx
  exact ⟨_, exec_of_executeFlow hi ex, rfl, rfl, ⟨rfl, rfl⟩, keepsRegs_of_fields (by simp), fun _ => rfl, ⟨rfl, rfl⟩,
    ⟨rfl, rfl, rfl⟩, rfl, hg⟩

/-- Settles O50: the store of a push, the read of a pop and the two reads of an exit are the only signals that can fail. -/
theorem stackAccessOutOfRangeStops : Obligations.StackAccessOutOfRangeStops := by
  intro s t v hc hw
  refine ⟨fun hroom => ?_, fun hnone i hi => ?_, fun q hd hq hnone => ?_⟩
  · obtain ⟨tr, hg, ex⟩ := push_stop (r := .ac) (by simp) .pu1 .pu2 .pu3 .pu4 (s := s.present ⟨.push, v, t⟩)
      (spDown_outOfRange hc hw hroom)
    exact ⟨_, exec_of_executeFlow (i := .push t v) rfl ex, rfl, rfl, rfl, rfl, rfl, keepsRegs_of_fields (by simp),
      fun _ => rfl, ⟨rfl, rfl⟩, ⟨rfl, rfl, rfl⟩, rfl, hg⟩
  · have hout : inRange s s.sp.value = false := (memRead_eq_none s _).mp hnone
    obtain rfl | ⟨rfl, hd⟩ := hi
    · exact stops_of_firstRead rfl (pop_stop .ac .po1 .po2 .po3 (s := s.present ⟨.pop, v, t⟩) hout)
    · obtain ⟨tr, hg, ex⟩ := interruptExit_empty (s.present ⟨.iret, v, t⟩) hout
      exact stops_of_firstRead rfl ⟨tr, hg, (iretExecute_inside hd _).trans ex⟩
  · have hin : inRange s s.sp.value = true := ((memRead_eq_some s _ _).mp hq).1
    have hsp1 := exitSp1_of_inRange (s := s.present ⟨.iret, v, t⟩) hc hin
    obtain ⟨tr, hg, ex⟩ := interruptExit_short (s.present ⟨.iret, v, t⟩) q hq
      (by rw [hsp1]; exact (memRead_eq_none s _).mp hnone)
    rw [hsp1] at ex
    have e := exec_of_executeFlow (i := .iret t v) rfl ((iretExecute_inside hd _).trans ex)
    exact ⟨_, e, rfl, rfl, rfl, rfl, rfl, rfl, keepsRegs_of_fields (by simp), fun _ => rfl, ⟨rfl, rfl⟩,
      ⟨rfl, rfl, rfl⟩, rfl, hg⟩

end Sys2Proof.Machine

/-! PROOFS. The Branch class (43_branch.md): a branch is its address fetch and then `branchExecute` on its row of the
condition table. The fetch leaves the target cell in `DR` and does not touch `PS`, so the condition reads the flags the
branch started with; a pointer out of range stops the fetch before the condition is read. -/

namespace Sys2Proof.Machine

/-! ### From the address fetch to the condition -/

/-- A Branch-class instruction is its address fetch and then its execute sequence (43_branch.md R104). -/
theorem exec_eq_addressFetch {i : Instr} (hi : i.cell.op.cls = some .branch) (s : State) :
    exec i s = ((addressFetch i.cell.vt (s.present i.cell)).andThen (executeFlow i.cell.op)).outcome := by
  rw [exec_eq_meaningFlow, meaningFlow, operandFlow, hi]

/-- What `AR` holds after the address fetch of the cell `x`: `x` itself, which names the pointer, where a fetch was made
(40_cycle_alu.md R70). -/
def fetchedAr (s : State) (x : Cell) : Cell := if x.vt = .addressIndirect then x else s.ar

/-- The state in which a branch to the target cell `p` reads its condition, `l` the trace of its address fetch. -/
def State.atTarget (s : State) (x p : Cell) (l : List TraceLine) : State := s.withOperand x (fetchedAr s x) p l

/-- Where the target resolves, the execute sequence starts with it in `DR`. -/
theorem exec_of_target {i : Instr} (hi : i.cell.op.cls = some .branch) {s : State} {p : Cell}
    (hp : resolvedCell s i.cell = some p) :
    ∃ l, l.length = indirectTicks i.cell.vt ∧
      exec i s = (executeFlow i.cell.op (s.atTarget i.cell p l)).outcome := by
  obtain ⟨l, hl, e⟩ := addressFetch_spec s i.cell p hp
  refine ⟨l, fetchTicks_eq_indirectTicks _ ▸ hl, ?_⟩
  rw [exec_eq_addressFetch hi, e, go_andThen]
  simp [State.atTarget, State.withOperand, fetchedAr, isIndirect, hl]

/-! ### Taken or not -/

theorem branchExecute_taken {cond : State → Bool} {s : State} (h : cond s = true) :
    branchExecute cond s = .go ((s.setReg .ip s.dr).endTick .b1) := if_pos h

theorem branchExecute_notTaken {cond : State → Bool} {s : State} (h : cond s = false) : branchExecute cond s = .go s :=
  if_neg (ne_true_of_eq_false h)

/-- A branch whose condition the address fetch does not change completes by what the condition says of the state it
started from (43_branch.md R104). -/
theorem completesBranch_of_resolvedCell {i : Instr} (hi : i.cell.op.cls = some .branch) {cond : State → Bool}
    (hx : executeFlow i.cell.op = branchExecute cond) {s : State}
    (hcond : ∀ x p l, cond (s.atTarget x p l) = cond s) {p : Cell} (hp : resolvedCell s i.cell = some p) :
    CompletesBranch i (cond s) p s := by
  obtain ⟨l, hl, e⟩ := exec_of_target hi hp
  have hfetched : Frame [.ip, .cr, .dr, .ar] _ s (s.atTarget i.cell p l) := withOperand_frame s _ _ p hl (by simp)
  rw [hx] at e
  cases htaken : cond s with
  | true =>
    rw [branchExecute_taken ((hcond _ _ _).trans htaken)] at e
    have hframe := (hfetched.setReg (r := .ip) p (by simp)).endTick .b1
    exact ⟨_, e, rfl, rfl, rfl, rfl, hframe.regs, fun _ => rfl, hframe.ports, ⟨hframe.counters, rfl⟩, hframe.took⟩
  | false =>
    rw [branchExecute_notTaken ((hcond _ _ _).trans htaken)] at e
    exact ⟨_, e, rfl, rfl, rfl, rfl, hfetched.regs, fun _ => rfl, hfetched.ports, ⟨hfetched.counters, rfl⟩,
      hfetched.took⟩

/-- Settles O53: each row of the condition table reads a bit of `PS`, which the address fetch keeps. -/
theorem branchesFollowConditionTable : Obligations.BranchesFollowConditionTable := fun _ t v _ =>
  ⟨completesBranch_of_resolvedCell (i := .jc t v) rfl rfl fun _ _ _ => rfl,
    completesBranch_of_resolvedCell (i := .jnc t v) rfl rfl fun _ _ _ => rfl,
    completesBranch_of_resolvedCell (i := .jn t v) rfl rfl fun _ _ _ => rfl,
    completesBranch_of_resolvedCell (i := .jnn t v) rfl rfl fun _ _ _ => rfl,
    completesBranch_of_resolvedCell (i := .jz t v) rfl rfl fun _ _ _ => rfl,
    completesBranch_of_resolvedCell (i := .jnz t v) rfl rfl fun _ _ _ => rfl,
    completesBranch_of_resolvedCell (i := .jmp t v) rfl rfl fun _ _ _ => rfl⟩

/-! ### A pointer out of range -/

/-- An indirect operand outside `0..ADDR_MAX` resolves to no cell (30_encoding.md R45). -/
theorem resolvedCell_eq_none {s : State} {x : Cell} (hvt : x.vt = .addressIndirect)
    (hout : x.value < 0 ∨ (s.cfg.addrMax : Int) < x.value) : resolvedCell s x = none := by
  have hind : isIndirect x.vt = true := decide_eq_true hvt
  rw [resolvedCell, if_pos hind]
  exact (memRead_eq_none s _).mpr ((inRange_eq_false_iff s _).mpr hout)

/-- Settles O54: the read of the address fetch fails before the execute sequence, which alone looks at the flags. -/
theorem branchPointerOutOfRangeStops : Obligations.BranchPointerOutOfRangeStops := by
  intro s i hi hvt hout
  obtain ⟨-, -, e⟩ := addressFetch_none s i.cell (resolvedCell_eq_none hvt hout)
  refine ⟨_, ?_, withOperand_stops s i.cell i.cell i.cell (l := []) rfl .addressOutOfRange⟩
  rw [exec_eq_addressFetch hi, e, stop_andThen, outcome_eq, stop_state]
  simp [State.withOperand, State.withStatus]

end Sys2Proof.Machine

/-! PROOFS. The IO class (44_io.md): each instruction is its execute tick from the state the fetch leaves, and its frame
is that of a machine whose port has moved already. The decimal text of `OUT` comes from one loop, and `PartialNumeral` is
the loop's invariant. -/

namespace Sys2Proof.Machine

/-! ### `IN` and `OUT` -/

/-- An IO-class instruction runs no operand sequence either (30_encoding.md R49). -/
theorem exec_of_ioFlow {i : Instr} (hi : i.cell.op.cls = some .io) {s : State} {x : Flow}
    (hx : executeFlow i.cell.op (s.present i.cell) = x) : exec i s = .next x.state := by
  rw [exec_eq_meaningFlow, meaningFlow, operandFlow, hi, go_andThen, hx, outcome_eq]

/-- The input port is ready exactly when the queue has a head and the head has arrived (44_io.md R113). -/
theorem inputReady_iff (s : State) :
    inputReady s = true ↔ ∃ e rest, s.inq = e :: rest ∧ e.arrivesAt ≤ s.tick := by
  unfold inputReady
  cases s.inq <;> simp

/-- With a ready head event the execute tick of `IN` takes it (44_io.md R114). -/
theorem x1In_ready {s : State} {e : InputEvent} {rest : List InputEvent} (hq : s.inq = e :: rest)
    (ha : e.arrivesAt ≤ s.tick) :
    x1In s = .go (({ s with inq := rest }.setReg .ac ⟨.nop, e.char, .char⟩).endTick .x1) := by
  obtain ⟨e', rest', hq', -, hlatch⟩ | ⟨hnot, -⟩ := latchInput_spec s
  · obtain ⟨rfl, rfl⟩ : e = e' ∧ rest = rest' := by simpa [hq] using hq'
    rw [x1In, hlatch, go_andThen, tickGo_eq]
  · rw [(inputReady_iff s).mpr ⟨e, rest, hq, ha⟩] at hnot
    cases hnot

/-- Without one the tick group fails in its latch and does not end. -/
theorem x1In_notReady {s : State} (h : inputReady s = false) :
    x1In s = .stop (s.withStatus (.fatal .inputUnderrun)) := by
  obtain ⟨e, rest, hq, ha, -⟩ | ⟨-, hlatch⟩ := latchInput_spec s
  · rw [(inputReady_iff s).mpr ⟨e, rest, hq, ha⟩] at h
    cases h
  · rw [x1In, hlatch, stop_andThen]

/-- Settles O55: from the queue without its head on, `IN` is a write of `AC` and a tick. -/
theorem inReadsReadyCharacter : Obligations.InReadsReadyCharacter := by
  intro s t v e rest hq ha
  have hx := exec_of_ioFlow (i := .inp t v) rfl (x1In_ready (s := s.present ⟨.inp, v, t⟩) hq ha)
  have hfetched : Frame [.ac, .cr, .dr] 0 { s with inq := rest } (State.present { s with inq := rest } ⟨.inp, v, t⟩) :=
    present_frame _ _ (by simp)
  have hframe := (hfetched.setReg (r := .ac) ⟨.nop, e.char, .char⟩ (by simp)).endTick .x1
  obtain ⟨hinq, hout⟩ := hframe.ports
  exact ⟨_, hx, rfl, hinq, hout, ⟨rfl, rfl⟩, hframe.regs, fun _ => rfl, ⟨hframe.counters, rfl⟩, hframe.took⟩

/-- Settles O56: without a ready head event `IN` is only a new `STATUS` on the state after the fetch. -/
theorem inWithoutInputStops : Obligations.InWithoutInputStops := by
  intro s t v hnone
  have hnot : inputReady (s.present ⟨.inp, v, t⟩) = false := by
    rw [← Bool.not_eq_true, inputReady_iff]
    rintro ⟨e, rest, hq, ha⟩
    exact (hnone e rest hq).not_ge ha
  have hx := exec_of_ioFlow (i := .inp t v) rfl (x1In_notReady hnot)
  have hframe := (present_frame s ⟨.inp, v, t⟩ (List.Subset.refl _)).withStatus (.fatal .inputUnderrun)
  exact ⟨_, hx, rfl, ⟨rfl, rfl⟩, hframe.regs, fun _ => rfl, hframe.ports, hframe.counters, hframe.took⟩

/-- `OUT` writes one byte, the value mod 256, for a character or the newline value (44_io.md R116). -/
theorem outputBytes_of_byte {x : Cell} (h : x.vt = .char ∨ x.value = newline) :
    ∃ b : Byte, (b.toNat : Int) = x.value % 256 ∧ outputBytes x = [b] := by
  refine ⟨BitVec.ofInt 8 x.value, ?_, if_pos h⟩
  rw [BitVec.toNat_ofInt]
  exact Int.toNat_of_nonneg (Int.emod_nonneg _ (by decide))

theorem outputBytes_of_number {x : Cell} (h : ¬(x.vt = .char ∨ x.value = newline)) : outputBytes x = dec x.value :=
  if_neg h

/-- Settles O57: `OUT` is an append to the output stream and a tick. -/
theorem outWritesAccumulator : Obligations.OutWritesAccumulator := by
  intro s t v
  have hx := exec_of_ioFlow (i := .out t v) rfl (s := s) rfl
  have hframe := (present_frame (s.write (outputBytes s.ac)) ⟨.out, v, t⟩ (List.Subset.refl _)).endTick .x1
  obtain ⟨hinq, hout⟩ := hframe.ports
  refine ⟨_, hx, fun hbyte => ?_, fun hnumber => ?_, hinq, ⟨rfl, rfl⟩, hframe.regs, fun _ => rfl,
    ⟨hframe.counters, rfl⟩, hframe.took⟩
  · obtain ⟨b, hb, hbytes⟩ := outputBytes_of_byte hbyte
    exact ⟨b, hb, hout.trans (congrArg (s.out ++ ·) hbytes)⟩
  · exact hout.trans (congrArg (s.out ++ ·) (outputBytes_of_number hnumber))

/-! ### The decimal text -/

/-- The bytes of the ten decimal digits (44_io.md R117). -/
def IsDigitByte (b : Byte) : Prop := 0x30 ≤ b.toNat ∧ b.toNat ≤ 0x39

theorem toNat_digitByte {d : Nat} (h : d < 10) : (digitByte d).toNat = 0x30 + d := by
  rw [digitByte, BitVec.toNat_ofNat]
  omega

theorem isDigitByte_digitByte {d : Nat} (h : d < 10) : IsDigitByte (digitByte d) := by
  rw [IsDigitByte, toNat_digitByte h]
  omega

/-- One step of reading a numeral from its most significant digit on. -/
def readDigit (k : Nat) (b : Byte) : Nat := 10 * k + (b.toNat - 0x30)

theorem readDigit_digitByte (k : Nat) {d : Nat} (h : d < 10) : readDigit k (digitByte d) = 10 * k + d := by
  rw [readDigit, toNat_digitByte h, Nat.add_sub_cancel_left]

/-- `bs` are the last digits of the numeral of `n`, and `m` is the number its other digits stand for: the invariant of
`decDigits`. -/
structure PartialNumeral (n m : Nat) (bs : List Byte) : Prop where
  digits : ∀ b ∈ bs, IsDigitByte b
  value : bs.foldl readDigit m = n
  lead : n ≠ 0 → m ≠ 0

theorem PartialNumeral.nil (n : Nat) : PartialNumeral n n [] := ⟨nofun, rfl, id⟩

/-- Taking off the last of at least two digits. -/
theorem PartialNumeral.shift {n m : Nat} {bs : List Byte} (h : PartialNumeral n m bs) (hm : 10 ≤ m) :
    PartialNumeral n (m / 10) (digitByte (m % 10) :: bs) where
  digits := List.forall_mem_cons.mpr ⟨isDigitByte_digitByte (Nat.mod_lt m (by decide)), h.digits⟩
  value := by rw [List.foldl_cons, readDigit_digitByte _ (Nat.mod_lt m (by decide)), Nat.div_add_mod, h.value]
  lead _ := (Nat.div_pos hm (by decide)).ne'

/-- With fuel for its digits the loop ends with the leading digit in front of the rest. -/
theorem decDigits_spec {n : Nat} (fuel m : Nat) (bs : List Byte) (h : PartialNumeral n m bs) (hfuel : m < fuel) :
    ∃ d < 10, ∃ ds, decDigits fuel m bs = digitByte d :: ds ∧ PartialNumeral n d ds := by
  induction fuel generalizing m bs with
  | zero => omega
  | succ fuel ih =>
    unfold decDigits
    by_cases hm : m < 10
    · exact ⟨m, hm, bs, if_pos hm, h⟩
    · rw [if_neg hm]
      exact ih (m / 10) _ (h.shift (by omega)) (by omega)

theorem dec_natCast (n : Nat) : dec n = decDigits (n + 1) n [] := if_neg (by omega)

theorem dec_neg_natCast {n : Nat} (h : 0 < n) : dec (-(n : Int)) = 0x2D#8 :: dec n := by
  rw [dec_natCast, dec, if_pos (by omega), Int.natAbs_neg, Int.natAbs_natCast]

/-- The decimal text of a natural number: a leading digit, not 0 unless the number is, and the rest. -/
theorem dec_natCast_spec (n : Nat) : ∃ d < 10, ∃ ds, dec n = digitByte d :: ds ∧ PartialNumeral n d ds :=
  dec_natCast n ▸ decDigits_spec (n + 1) n [] (.nil n) n.lt_succ_self

/-- Settles O58, by the loop's invariant at its end. -/
theorem decimalTextIsShortest : Obligations.DecimalTextIsShortest := by
  refine ⟨fun n => ?_, fun _ => dec_neg_natCast⟩
  obtain ⟨d, hd, ds, e, hdigits, hvalue, hlead⟩ := dec_natCast_spec n
  have hread : (dec n).foldl readDigit 0 = n := by
    rw [e, List.foldl_cons, readDigit_digitByte 0 hd, mul_zero, zero_add, hvalue]
  have hhead : n ≠ 0 → (dec n).head? ≠ some 0x30#8 := fun hn h => by
    rw [e] at h
    have hbyte : (digitByte d).toNat = 0x30 := congrArg BitVec.toNat (Option.some.inj h)
    rw [toNat_digitByte hd] at hbyte
    exact hlead hn (by omega)
  have hall : ∀ b ∈ dec n, IsDigitByte b := e ▸ List.forall_mem_cons.mpr ⟨isDigitByte_digitByte hd, hdigits⟩
  exact ⟨hall, hread, e ▸ List.cons_ne_nil _ _, hhead, fun hn => hn ▸ rfl⟩

end Sys2Proof.Machine

/-! PROOFS. Terminations and the interrupt controller (60_exceptions.md): the trace's numbering signal by signal; how a
step stops, phase by phase (the start of the cycle, the meaning, the interrupt entry after it), so that each fatal cause
and each expected termination is read off the one phase that can raise it; and the entry's saved cells, which its exit
pops again. -/

namespace Sys2Proof.Machine

open Relation (ReflTransGen)

/-! ### The trace stays numbered -/

/-- The numbering speaks of the trace and the clock only. -/
theorem State.TraceNumbered.congr {s t : State} (h : s.TraceNumbered) (htrace : t.trace = s.trace)
    (htick : t.tick = s.tick) : t.TraceNumbered := by
  rw [State.TraceNumbered, htrace, htick]
  exact h

/-- A tick's tuple is stamped with the clock after it, the next number (60_exceptions.md R138). -/
theorem State.TraceNumbered.endTick {s : State} (h : s.TraceNumbered) (g : TickGroup) :
    (s.endTick g).TraceNumbered := by
  rw [State.TraceNumbered] at h ⊢
  simp [List.filterMap_append, h, List.range'_concat, TraceLine.tick, traceTuple, Nat.add_comm]

/-- A blank line has no number. -/
theorem State.TraceNumbered.endBlock {s : State} (h : s.TraceNumbered) : s.endBlock.TraceNumbered := by
  rw [State.TraceNumbered] at h ⊢
  simp [List.filterMap_append, h, TraceLine.tick]

theorem Data.keeps_traceNumbered {s t : State} (hst : Data s t) (h : s.TraceNumbered) : t.TraceNumbered := by
  cases hst with
  | tick g => exact h.endTick g
  | _ => exact h.congr (by simp) (by simp)

theorem Signal.keeps_traceNumbered {s t : State} (hst : Signal s t) (h : s.TraceNumbered) : t.TraceNumbered := by
  cases hst with
  | data hd => exact hd.keeps_traceNumbered h
  | block => exact h.endBlock
  | _ => exact h.congr (by simp) (by simp)

/-- Settles O26, signal by signal: only the end of a tick group moves the clock, and it adds the tuple of that tick. -/
theorem stepKeepsTraceNumbered : Obligations.StepKeepsTraceNumbered :=
  fun _ _ hs h => step_invariant State.TraceNumbered (fun _ _ hst => hst.keeps_traceNumbered) h hs

/-! ### When there is a next step -/

/-- No phase of a running machine's step answers a fault or a refusal: every meaning answers a next state. -/
theorem step_next_of_running {s : State} (hs : s.status = .running) : ∃ t, step s = .next t := by
  cases hu : cycleStart s with
  | stop t => exact ⟨t, by simp [step, hs, stoppedFault, hu]⟩
  | go u =>
    cases hi : instrOfCell u.cfg u.cr with
    | error e => exact ⟨_, step_of_instrOfCell_error hs hu hi⟩
    | ok i =>
      obtain ⟨v, hv, -⟩ := exec_ends i u
      exact ⟨completeCycle v, by rw [step_of_instrOfCell_ok hs hu hi, hv]; rfl⟩

theorem step_of_stoppedFault {s : State} {f : Fault} (h : stoppedFault s.status = some f) : step s = .fault f := by
  simp [step, h]

/-- Settles O20: the status alone decides, before any phase of the step. -/
theorem stepExistsExactlyWhileRunning : Obligations.StepExistsExactlyWhileRunning := fun _ =>
  ⟨step_next_of_running, fun h => step_of_stoppedFault (by rw [h]; rfl), fun h => step_of_stoppedFault (by rw [h]; rfl),
    fun _ h => step_of_stoppedFault (by rw [h]; rfl), rfl, rfl, rfl, fun _ => rfl⟩

/-! ### The interrupt check -/

/-- The two conditions of the interrupt check (60_exceptions.md R127). -/
theorem interruptDue_iff (s : State) :
    interruptDue s = true ↔ (∃ e rest, s.inq = e :: rest ∧ e.arrivesAt ≤ s.tick) ∧ psBit s 3 = true := by
  rw [interruptDue, Bool.and_eq_true, inputReady_iff, flagEI]

/-- A completed instruction's block ends, and the interrupt check follows (40_cycle_alu.md R73). -/
theorem completeCycle_of_running {s : State} (hs : s.status = .running) :
    completeCycle s = (interruptCheck s.endBlock).state := by
  simp only [completeCycle, hs]

/-- Settles O31: the end of the trace block moves neither of the check's two conditions. -/
theorem interruptTakenExactlyWhenDue : Obligations.InterruptTakenExactlyWhenDue := by
  intro s hs
  have hdue := interruptDue_iff s.endBlock
  rw [completeCycle_of_running hs, interruptCheck]
  exact ⟨fun h => by rw [if_pos (hdue.mpr h)], fun h => by rw [if_neg (mt hdue.mp h), go_state]⟩

/-- The two ways an interrupt entry can stop: at the nesting bound (60_exceptions.md R133), or with `AR` out of
range. -/
theorem interruptEntry_stop_cases {s t : State} (h : interruptEntry s = .stop t) :
    (t.status = .fatal .nestDepthExceeded ∧ nestExceeded t = true) ∨
      (t.status = .fatal .addressOutOfRange ∧ inRange t t.ar.value = false) := by
  cases hn : nestExceeded s with
  | true => rw [interruptEntry_nest s hn] at h; cases h; exact .inl ⟨rfl, hn⟩
  | false =>
    cases h1 : inRange s (entrySp1 s).value with
    | false => obtain ⟨tr, -, e⟩ := interruptEntry_noRoom1 s hn h1; rw [e] at h; cases h; exact .inr ⟨rfl, h1⟩
    | true =>
      cases h2 : inRange s (entrySp2 s).value with
      | false => obtain ⟨tr, -, e⟩ := interruptEntry_noRoom2 s hn h1 h2; rw [e] at h; cases h; exact .inr ⟨rfl, h2⟩
      | true =>
        cases hv : inRange s s.cfg.intVector with
        | false =>
          obtain ⟨tr, -, e⟩ := interruptEntry_noVector s hn h1 h2 hv
          rw [e] at h; cases h; exact .inr ⟨rfl, hv⟩
        | true => obtain ⟨tr, -, e⟩ := interruptEntry_go s hn h1 h2 hv _ rfl; rw [e] at h; cases h

/-- A completed entry leaves the machine in the status it had. -/
theorem interruptEntry_go_status {s t : State} (h : interruptEntry s = .go t) : t.status = s.status := by
  obtain ⟨-, e⟩ | ⟨-, ⟨u, hu, e⟩ | ⟨u, st, -, -, e⟩⟩ := interruptEntry_cases s <;> rw [e] at h <;> cases h
  obtain ⟨-, -, -, hs, -⟩ := data_frame hu
  exact hs

/-- After an expected termination the trace block ends, and nothing else follows (60_exceptions.md R121). -/
theorem completeCycle_of_expected {s : State} (h : s.status.expected = true) : completeCycle s = s.endBlock := by
  cases hs : s.status with
  | halt | interruptReturn => simp only [completeCycle, hs]
  | running | fatal _ => rw [hs] at h; cases h

/-- After a completed instruction only a stopped interrupt entry stops the machine. -/
theorem completeCycle_running_cases {s : State} (hs : s.status = .running) :
    (completeCycle s).status = .running ∨ interruptEntry s.endBlock = .stop (completeCycle s) := by
  rw [completeCycle_of_running hs, interruptCheck]
  split
  · cases he : interruptEntry s.endBlock with
    | go t => exact .inl ((interruptEntry_go_status he).trans hs)
    | stop t => exact .inr rfl
  · exact .inl hs

/-! ### How a meaning stops -/

/-- A meaning that has left the machine stopped ended in one stop after its datapath signals. -/
theorem Ends.stops {s t : State} (h : Ends s t) (hs : s.status = .running) (ht : t.status ≠ .running) :
    ∃ u, ReflTransGen Data s u ∧ Stops u t.status ∧ t = u.withStatus t.status := by
  obtain h | ⟨u, st, hu, hstop, rfl⟩ | ⟨u, hu, -, -, rfl⟩ := h
  · obtain ⟨-, -, -, hst, -⟩ := data_frame h
    exact absurd (hst.trans hs) ht
  · exact ⟨u, hu, hstop, rfl⟩
  · obtain ⟨-, -, -, hst, -⟩ := data_frame hu
    exact absurd (hst.trans hs) ht

/-- An execute tick that stops on a zero divisor writes nothing (41_address.md R87, R88). -/
theorem x1Alu_divideByZero_ac {op : AluOp} {s : State} (hs : s.status = .running)
    (h : (x1Alu op s).state.status = .fatal .divideByZero) : (x1Alu op s).state.ac = s.ac := by
  cases hf : aluFails op s.dr with
  | true => rw [x1Alu_stop hf]; rfl
  | false =>
    rw [x1Alu, aluToAc_go hf] at h
    exact absurd (hs.symm.trans h) nofun

/-- An arithmetic instruction that stops on a zero divisor has not written `AC` (41_address.md R87, R88). -/
theorem exec_divideByZero_ac {i : Instr} {op : AluOp} (hi : i.cell.op.cls = some .address)
    (hx : executeFlow i.cell.op = x1Alu op) {s t : State} (hs : s.status = .running) (ht : exec i s = .next t)
    (hst : t.status = .fatal .divideByZero) : t.ac = s.ac := by
  cases hp : resolvedCell s i.cell with
  | none =>
    obtain ⟨u, hu, hstatus, -⟩ := exec_of_pointerOutOfRange hi hp
    cases hu.symm.trans ht
    rw [hstatus] at hst; cases hst
  | some p =>
    cases hy : memRead s p.value with
    | none =>
      obtain ⟨u, hu, hstatus, -⟩ := exec_of_operandOutOfRange hi hp hy
      cases hu.symm.trans ht
      rw [hstatus] at hst; cases hst
    | some y =>
      obtain ⟨l, -, e⟩ := exec_of_operand hi ⟨hp, hy⟩
      rw [hx] at e
      cases e.symm.trans ht
      exact x1Alu_divideByZero_ac hs hst

/-- An `IN` that stops has taken nothing from the queue (44_io.md R114). -/
theorem exec_inputUnderrun_inq {i : Instr} (hi : i.cell.op = .inp) {s t : State} (hs : s.status = .running)
    (ht : exec i s = .next t) (hst : t.status = .fatal .inputUnderrun) : t.inq = s.inq := by
  have e := exec_of_ioFlow (i := i) (s := s) (by rw [hi]; rfl) rfl
  have hx : executeFlow i.cell.op = x1In := by rw [hi]; rfl
  rw [hx] at e
  obtain ⟨d, rest, -, -, hl⟩ | ⟨-, hl⟩ := latchInput_spec (s.present i.cell) <;> rw [x1In, hl] at e <;>
    cases e.symm.trans ht
  · exact absurd (hs.symm.trans hst) nofun
  · rfl

/-! ### How the start of a cycle ends -/

/-- A start that completes leaves the fetched cell in `CR` and `DR`, and its address in `AR` (40_cycle_alu.md R68). -/
theorem cycleStart_eq_go {s u : State} (h : cycleStart s = .go u) :
    ∃ x tr, memRead s s.ip.value = some x ∧ u = { s with
      ar := s.ip, ip := (alu s.cfg .add s.ip (Cell.const 1)).res, dr := x, cr := x, tick := s.tick + 3,
      icount := s.icount + 1, trace := tr } := by
  obtain ⟨-, e⟩ | ⟨-, ⟨tr, -, -, e⟩ | ⟨x, tr, hx, -, e⟩⟩ := cycleStart_spec s <;> rw [e] at h <;> cases h
  exact ⟨x, tr, hx, rfl⟩

/-- A start that stops has reached the ceiling (40_cycle_alu.md R74) or fetched out of range. -/
theorem cycleStart_stop_cases {s t : State} (h : cycleStart s = .stop t) :
    (limitReached s = true ∧ t = s.withStatus (.fatal .instructionLimitExceeded)) ∨
      (t.status = .fatal .addressOutOfRange ∧ inRange t t.ar.value = false) := by
  obtain ⟨hl, e⟩ | ⟨-, ⟨tr, hout, -, e⟩ | ⟨x, tr, -, -, e⟩⟩ := cycleStart_spec s <;> rw [e] at h <;> cases h
  · exact .inl ⟨hl, rfl⟩
  · exact .inr ⟨rfl, hout⟩

/-! ### What identifies a fatal condition -/

/-- What the state `t` shows after a step from `s` that ended in a fatal condition: the last column of the table of
causes (60_exceptions.md R123). -/
def FatalShows (s t : State) : FatalCause → Prop
  | .unknownOpcode =>
    (29 ≤ t.cr.op.number ∨ (t.cr.op.number = 16 ∧ t.cfg.hasDiv = false)) ∧ t.ar = s.ip ∧
      memRead s t.ar.value = some t.cr ∧ t.ip.value = t.ar.value + 1
  | .unknownAluOperation => False
  | .addressOutOfRange => t.ar.value < 0 ∨ (t.cfg.addrMax : Int) < t.ar.value
  | .inputUnderrun => t.cr.op = .inp ∧ inputReady t = false ∧ t.inq = s.inq
  | .instructionLimitExceeded => t.cfg.instrLimit = some t.icount ∧ t.ip = s.ip
  | .nestedHalt => t.cr.op = .hlt ∧ 0 < t.depth
  | .divideByZero => (t.cr.op = .div ∨ t.cr.op = .mod) ∧ t.dr.value = 0 ∧ t.ac = s.ac
  | .nestDepthExceeded => t.cfg.maxNest = some t.depth

/-- Inside the bound a reached ceiling is met exactly (40_cycle_alu.md R74). -/
theorem State.Inv.instrLimit_eq {s : State} (h : s.Inv) (hl : limitReached s = true) :
    s.cfg.instrLimit = some s.icount := by
  obtain ⟨n, hn, hle⟩ := (limitReached_iff s).mp hl
  rw [hn, le_antisymm hle (h.limit n hn)]

/-- The entry stops exactly at or above `MAX_NEST` (60_exceptions.md R133). -/
theorem nestExceeded_iff (s : State) : nestExceeded s = true ↔ ∃ n, s.cfg.maxNest = some n ∧ n ≤ s.depth := by
  simp [nestExceeded, Option.any_eq_true]

/-- Inside the bound an exceeded nesting depth is met exactly. -/
theorem State.Inv.maxNest_eq {s : State} (h : s.Inv) (hn : nestExceeded s = true) : s.cfg.maxNest = some s.depth := by
  obtain ⟨n, hmax, hle⟩ := (nestExceeded_iff s).mp hn
  rw [hmax, le_antisymm hle (h.nest n hmax)]

/-- The start of a cycle stops at the ceiling or at a fetch out of range. -/
theorem cycleStart_fatalShows {s t : State} {c : FatalCause} (hinv : s.Inv) (h : cycleStart s = .stop t)
    (ht : t.status = .fatal c) : FatalShows s t c := by
  obtain ⟨hl, rfl⟩ | ⟨hst, hout⟩ := cycleStart_stop_cases h
  · cases ht
    exact ⟨hinv.instrLimit_eq hl, rfl⟩
  · rw [hst] at ht
    cases ht
    exact (inRange_eq_false_iff t _).mp hout

/-- The decoder stops with the fetched cell in `CR`, its address in `AR`, and `IP` counted past it. -/
theorem unknownOpcode_fatalShows {s u : State} (hc : s.cfg.legal = true) (h : cycleStart s = .go u)
    (hi : instrOfCell u.cfg u.cr = .error .reservedOpcode) : FatalShows s (unknownOpcode u) .unknownOpcode := by
  have hop := instrOfCell_eq_error_iff.mp hi
  obtain ⟨x, tr, hx, rfl⟩ := cycleStart_eq_go h
  obtain ⟨h0, h1⟩ := (inRange_iff s _).mp ((memRead_eq_some s _ _).mp hx).1
  have hip := congrArg Cell.value (alu_add_one s.cfg hc s.ip h0 h1)
  exact ⟨hop, rfl, hx, hip⟩

/-- A meaning stops with what its instruction shows, when it starts from a state with the input queue and the
accumulator of `s`. -/
theorem exec_fatalShows {s u v : State} {i : Instr} {c : FatalCause} (hac : u.ac = s.ac) (hinq : u.inq = s.inq)
    (hu : u.status = .running) (hcell : i.cell = u.cr) (hv : exec i u = .next v) (hends : Ends u v)
    (hc : v.status = .fatal c) : FatalShows s v c := by
  obtain ⟨w, hw, hstop, hvw⟩ := hends.stops hu (by simp [hc])
  obtain ⟨-, -, -, -, hcr⟩ := data_frame hw
  rw [← hcell] at hcr
  have hvcr : v.cr = w.cr := by rw [hvw, withStatus_cr]
  rw [hc] at hstop hvw
  cases hstop with
  | nestedHalt hd hop => rw [hvw]; exact ⟨hop, Nat.pos_of_ne_zero hd⟩
  | address hout => rw [hvw]; exact (inRange_eq_false_iff w _).mp hout
  | divide h0 hop =>
    have hkeep : v.ac = u.ac := by
      rw [hcr] at hop
      obtain hop | hop := hop
      · exact exec_divideByZero_ac (op := .div) (by rw [hop]; rfl) (by rw [hop]; rfl) hu hv hc
      · exact exec_divideByZero_ac (op := .mod) (by rw [hop]; rfl) (by rw [hop]; rfl) hu hv hc
    exact ⟨hvcr ▸ hop, by rw [hvw]; exact h0, hkeep.trans hac⟩
  | input hready hop =>
    have hkeep : v.inq = u.inq := exec_inputUnderrun_inq (by rw [← hcr]; exact hop) hu hv hc
    exact ⟨hvcr ▸ hop, by rw [hvw]; exact hready, hkeep.trans hinq⟩

/-- The interrupt check after a completed instruction stops at the nesting bound or at an access out of range. -/
theorem completeCycle_fatalShows {s v : State} {c : FatalCause} (hv : v.status = .running)
    (hinv : (completeCycle v).Inv) (hc : (completeCycle v).status = .fatal c) : FatalShows s (completeCycle v) c := by
  obtain hrun | he := completeCycle_running_cases hv
  · rw [hrun] at hc; cases hc
  · obtain ⟨hst, hn⟩ | ⟨hst, hout⟩ := interruptEntry_stop_cases he <;> rw [hst] at hc <;> cases hc
    · exact hinv.maxNest_eq hn
    · exact (inRange_eq_false_iff _ _).mp hout

/-- Whichever phase of a step stops with a fatal condition, the state shows its cause. -/
theorem step_fatalShows {s t : State} {c : FatalCause} (hinv : s.Inv) (h : step s = .next t)
    (hc : t.status = .fatal c) : FatalShows s t c := by
  have htinv : t.Inv := stepKeepsInvariant s t hinv h
  obtain ⟨hrun, e | ⟨u, e, -, ⟨hi, rfl⟩ | ⟨i, v, -, hcell, hv, hends, rfl⟩⟩⟩ := step_cases h
  · exact cycleStart_fatalShows hinv e hc
  · cases hc
    exact unknownOpcode_fatalShows hinv.legal e hi
  · have ⟨hac, hinq, hus⟩ : u.ac = s.ac ∧ u.inq = s.inq ∧ u.status = .running := by
      obtain ⟨x, tr, -, rfl⟩ := cycleStart_eq_go e
      exact ⟨rfl, rfl, hrun⟩
    cases hvs : v.status with
    | running => exact completeCycle_fatalShows hvs htinv hc
    | fatal d =>
      rw [completeCycle_of_fatal hvs] at hc ⊢
      exact exec_fatalShows hac hinq hus hcell hv hends hc
    | halt | interruptReturn =>
      rw [completeCycle_of_expected (by rw [hvs]; rfl), endBlock_status, hvs] at hc
      cases hc

/-- Settles O28: `FatalShows` cause by cause. -/
theorem fatalCausesAreIdentified : Obligations.FatalCausesAreIdentified := fun _ _ hinv h =>
  ⟨step_fatalShows hinv h, step_fatalShows hinv h, step_fatalShows hinv h, step_fatalShows hinv h,
    step_fatalShows hinv h, step_fatalShows hinv h, step_fatalShows hinv h, step_fatalShows hinv h⟩

/-! ### Expected terminations -/

/-- An expected termination needs depth 0 and its own instruction in `CR` (42_addressless.md R95, R96). -/
theorem Stops.of_expected {s : State} {st : Status} (h : Stops s st) (he : st.expected = true) :
    s.depth = 0 ∧ (st = .halt → s.cr.op = .hlt) ∧ (st = .interruptReturn → s.cr.op = .iret) := by
  cases h with
  | halt hd hop => exact ⟨hd, fun _ => hop, nofun⟩
  | interruptReturn hd hop => exact ⟨hd, nofun, fun _ => hop⟩
  | _ => cases he

/-- `HLT` and `IRET` at depth 0 only set `STATUS`. -/
theorem exec_of_expectedStop {i : Instr} {s : State} {st : Status} (hi : s.present i.cell = s) (h : Stops s st)
    (he : st.expected = true) : exec i s = .next (s.withStatus st) := by
  have hcell : i.cell.op = s.cr.op := congrArg (fun u => u.cr.op) hi
  cases h with
  | halt hd hop =>
    rw [hop] at hcell
    refine exec_of_executeFlow (x := .stop (s.withStatus .halt)) (by rw [hcell]; rfl) ?_
    rw [hi, hcell, executeFlow, hltExecute_eq, if_pos hd]
  | interruptReturn hd hop =>
    rw [hop] at hcell
    refine exec_of_executeFlow (x := .stop (s.withStatus .interruptReturn)) (by rw [hcell]; rfl) ?_
    rw [hi, hcell, executeFlow, iretExecute_outside hd]
  | _ => cases he

/-- The reason of a stop at the end of a meaning held from its start, where the stop is an expected termination: no
datapath signal moves `DEPTH` or `CR`. -/
theorem Stops.of_data {s t : State} {st : Status} (h : Stops t st) (he : st.expected = true)
    (hst : ReflTransGen Data s t) : Stops s st := by
  obtain ⟨-, -, hdepth, -, hcr⟩ := data_frame hst
  cases h with
  | halt hd hop => exact .halt (hdepth ▸ hd) (hcr ▸ hop)
  | interruptReturn hd hop => exact .interruptReturn (hdepth ▸ hd) (hcr ▸ hop)
  | _ => cases he

/-- A meaning that ends the run as expected does nothing else. -/
theorem exec_expectedStop {u v : State} {i : Instr} (hu : u.status = .running) (hd : u.dr = u.cr)
    (hcell : i.cell = u.cr) (hv : exec i u = .next v) (hends : Ends u v) (he : v.status.expected = true) :
    ∃ st, st.expected = true ∧ Stops u st ∧ v = u.withStatus st := by
  obtain ⟨w, hw, hstop, -⟩ := hends.stops hu fun h => by rw [h] at he; cases he
  have hstops : Stops u v.status := hstop.of_data he hw
  have e := exec_of_expectedStop (present_self u i.cell (hd.trans hcell.symm) hcell.symm) hstops he
  exact ⟨v.status, he, hstops, by injection hv.symm.trans e⟩

/-- The interrupt check ends no run as expected: an expected termination was the meaning's. -/
theorem completeCycle_expected {v : State} (he : (completeCycle v).status.expected = true) :
    v.status.expected = true ∧ completeCycle v = v.endBlock := by
  cases hs : v.status with
  | running =>
    obtain hrun | hstop := completeCycle_running_cases hs
    · rw [hrun] at he; cases he
    · obtain ⟨hst, -⟩ | ⟨hst, -⟩ := interruptEntry_stop_cases hstop <;> rw [hst] at he <;> cases he
  | halt | interruptReturn => exact ⟨rfl, completeCycle_of_expected (by rw [hs]; rfl)⟩
  | fatal c => rw [completeCycle_of_fatal hs, hs] at he; cases he

/-- A step that ends the run as expected is its start, a new status and the end of the trace block. -/
theorem step_expectedStop {s t : State} (h : step s = .next t) (he : t.status.expected = true) :
    ∃ u st, cycleStart s = .go u ∧ st.expected = true ∧ Stops u st ∧ t = (u.withStatus st).endBlock := by
  obtain ⟨hrun, e | ⟨u, e, hd, ⟨-, rfl⟩ | ⟨i, v, -, hcell, hv, hends, rfl⟩⟩⟩ := step_cases h
  · obtain ⟨-, rfl⟩ | ⟨hst, -⟩ := cycleStart_stop_cases e
    · cases he
    · rw [hst] at he; cases he
  · cases he
  · have hus : u.status = .running := by
      obtain ⟨x, tr, -, rfl⟩ := cycleStart_eq_go e
      exact hrun
    obtain ⟨hve, hend⟩ := completeCycle_expected he
    obtain ⟨st, hst, hstops, rfl⟩ := exec_expectedStop hus hd hcell hv hends hve
    exact ⟨u, st, e, hst, hstops, hend⟩

/-- Settles O30: the start of the cycle has one way to complete, and the rest of the step moves only `STATUS` and the
trace. -/
theorem nothingFollowsExpectedStop : Obligations.NothingFollowsExpectedStop := by
  intro s t h ht
  have he : t.status.expected = true := by obtain ht | ht := ht <;> rw [ht] <;> rfl
  obtain ⟨u, st, hu, hst, hstops, rfl⟩ := step_expectedStop h he
  obtain ⟨hdepth, hhlt, hiret⟩ := hstops.of_expected hst
  obtain ⟨x, tr, -, rfl⟩ := cycleStart_eq_go hu
  exact ⟨hhlt, hiret, hdepth, ⟨rfl, rfl⟩, rfl, rfl, keepsRegs_of_fetched rfl rfl rfl, fun _ => rfl, ⟨rfl, rfl⟩, rfl,
    rfl, rfl, rfl⟩

/-! ### The cells an entry saves -/

/-- Below the bound an entry is not refused (60_exceptions.md R133). -/
theorem nestExceeded_eq_false {s : State} (h : ∀ n, s.cfg.maxNest = some n → s.depth < n) : nestExceeded s = false := by
  rw [← Bool.not_eq_true, nestExceeded_iff]
  rintro ⟨n, hn, hle⟩
  exact absurd hle (Nat.not_le.mpr (h n hn))

/-- An entry that completes was below the bound. -/
theorem nestExceeded_of_go {s u : State} (h : interruptEntry s = .go u) : nestExceeded s = false := by
  rw [← Bool.not_eq_true]
  intro hn
  rw [interruptEntry_nest s hn] at h
  cases h

theorem entrySp1_eq {s : State} (hc : s.cfg.legal = true) (h0 : 0 ≤ s.sp.value)
    (h1 : s.sp.value ≤ (s.cfg.addrMax : Int) + 1) : entrySp1 s = ⟨s.sp.op, s.sp.value - 1, s.sp.vt⟩ :=
  alu_sub_one s.cfg hc s.sp h0 h1

theorem entrySp2_eq {s : State} (hc : s.cfg.legal = true) (h0 : 1 ≤ s.sp.value)
    (h1 : s.sp.value ≤ (s.cfg.addrMax : Int) + 1) : entrySp2 s = ⟨s.sp.op, s.sp.value - 2, s.sp.vt⟩ := by
  rw [entrySp2, entrySp1_eq hc (by omega) h1, alu_sub_one s.cfg hc _ (Int.sub_nonneg.mpr h0) (by simp only; omega)]
  simp only [Cell.mk.injEq, true_and, and_true]
  omega

/-- The entry's first tick clears bit 3 of `PS` and keeps the rest (60_exceptions.md R128). -/
theorem entryPs_clearsEI {s u : State} (hc : s.cfg.legal = true) (hcfg : u.cfg = s.cfg) (hps : u.ps = entryPs s) :
    flagEI u = false ∧ KeepsPs (fun i => i ≠ 3) s u := by
  have hbit : ∀ i, psBit u i = (!decide (i = 3) && psBit s i) := fun i => by
    rw [psBit, hcfg, hps]
    exact alu_and_diMask_testBit s.cfg hc s.ps i
  exact ⟨hbit 3, fun i hi => by simp [hbit, hi], by rw [hps]; rfl, by rw [hps]; rfl⟩

/-- With room for two cells both addresses an entry pushes to exist. -/
theorem entrySp_inRange {s : State} (hc : s.cfg.legal = true) (h0 : 2 ≤ s.sp.value)
    (h1 : s.sp.value ≤ (s.cfg.addrMax : Int) + 1) :
    inRange s (entrySp1 s).value = true ∧ inRange s (entrySp2 s).value = true := by
  rw [entrySp1_eq hc (by omega) h1, entrySp2_eq hc (by omega) h1, inRange_iff, inRange_iff]
  dsimp only
  omega

/-- What an entry's two pushes leave in memory: `IP`, below it `PS`, and every other cell. -/
theorem memRead_of_entryMem {s u : State} (hc : s.cfg.legal = true) (h0 : 2 ≤ s.sp.value)
    (h1 : s.sp.value ≤ (s.cfg.addrMax : Int) + 1) (hcfg : u.cfg = s.cfg) (hmem : u.mem = entryMem s) (a : Int) :
    memRead u a = if a = s.sp.value - 2 then some (entryPs s) else
      if a = s.sp.value - 1 then some s.ip else memRead s a := by
  obtain ⟨hr1, hr2⟩ := entrySp_inRange hc h0 h1
  have hstores : memRead u a =
      memRead ((s.storeCell (entrySp1 s).value s.ip).storeCell (entrySp2 s).value (entryPs s)) a := by
    simp only [memRead, inRange, hcfg, hmem]
    rfl
  rw [hstores, memRead_storeCell (s.storeCell (entrySp1 s).value s.ip) _ a _ hr2, memRead_storeCell s _ a _ hr1,
    entrySp1_eq hc (by omega) h1, entrySp2_eq hc (by omega) h1]

/-- `INT_VECTOR` is a memory address of every legal configuration (00_scope.md R4). -/
theorem intVector_inRange {s : State} (hc : s.cfg.legal = true) : inRange s s.cfg.intVector = true :=
  (inRange_iff s _).mpr ⟨Int.natCast_nonneg _, Int.ofNat_le.mpr (intVector_of_legal s.cfg hc)⟩

/-- Settles O32: with room for both pushes no signal of the entry fails, and the vector is read after them. -/
theorem interruptEntrySavesAndVectors : Obligations.InterruptEntrySavesAndVectors := by
  intro s hc hn h0 h1
  obtain ⟨hr1, hr2⟩ := entrySp_inRange hc h0 h1
  have hvec := intVector_inRange hc
  obtain ⟨tr, hg, e⟩ := interruptEntry_go s hn hr1 hr2 hvec _ rfl
  have hread := memRead_of_entryMem (u := (interruptEntry s).state) hc h0 h1 (by rw [e]; rfl) (by rw [e]; rfl)
  obtain ⟨hei, hps⟩ := entryPs_clearsEI (u := (interruptEntry s).state) hc (by rw [e]; rfl) (by rw [e]; rfl)
  rw [e, go_state] at hread hei hps
  exact ⟨_, e, hei, hps, by rw [hread, if_neg (by omega), if_pos rfl], by rw [hread, if_pos rfl],
    fun a ha1 ha2 => by rw [hread, if_neg ha2, if_neg ha1], entrySp2_eq hc (by omega) h1, rfl,
    (memRead_eq_some _ _ _).mpr ⟨hvec, rfl⟩, rfl, keepsRegs_of_fields (by simp), ⟨rfl, rfl⟩, rfl, rfl, rfl, rfl, rfl,
    hg⟩

/-- Settles O33: the bound is checked before every signal, and the stores of the two pushes come before the vector's
read; counting `SP` down to -1 leaves memory. -/
theorem interruptEntryStops : Obligations.InterruptEntryStops := by
  intro s hc
  refine ⟨fun hn => ⟨_, interruptEntry_nest s ((nestExceeded_iff s).mpr hn), rfl⟩, fun hn hsp => ?_, fun hn hsp => ?_⟩
  · have hsp1 := entrySp1_eq hc (by omega) (by omega)
    rw [hsp] at hsp1
    have hout : inRange s (entrySp1 s).value = false :=
      (inRange_eq_false_iff s _).mpr (.inl (by rw [hsp1]; exact Int.negSucc_lt_zero 0))
    obtain ⟨tr, hg, e⟩ := interruptEntry_noRoom1 s (nestExceeded_eq_false hn) hout
    rw [hsp1] at e
    obtain ⟨hei, -⟩ := entryPs_clearsEI (s := s) (u := { s with ps := entryPs s }) hc rfl rfl
    exact ⟨_, e, rfl, rfl, rfl, rfl, hei, keepsRegs_of_fields (by simp), fun _ => rfl, ⟨rfl, rfl⟩, ⟨rfl, rfl, rfl⟩, rfl,
      hg⟩
  · have hsp1 := entrySp1_eq hc (by omega) (by omega)
    have hsp2 := entrySp2_eq hc (by omega) (by omega)
    rw [hsp] at hsp1 hsp2
    have hin : inRange s 0 = true := (inRange_iff s 0).mpr ⟨le_rfl, Int.natCast_nonneg _⟩
    have hin1 : inRange s (entrySp1 s).value = true := by rw [hsp1]; exact hin
    have hout : inRange s (entrySp2 s).value = false :=
      (inRange_eq_false_iff s _).mpr (.inl (by rw [hsp2]; exact Int.negSucc_lt_zero 0))
    obtain ⟨tr, hg, e⟩ := interruptEntry_noRoom2 s (nestExceeded_eq_false hn) hin1 hout
    rw [hsp1, hsp2] at e
    obtain ⟨hei, -⟩ := entryPs_clearsEI (s := s) (u := { s with ps := entryPs s }) hc rfl rfl
    have hsaved : memRead (s.storeCell 0 s.ip) 0 = some s.ip := memRead_storeCell_same s s.ip hin
    have hkept : KeepsMemoryBut 0 s (s.storeCell 0 s.ip) := storeCell_keepsMemoryBut s s.ip hin
    exact ⟨_, e, rfl, rfl, rfl, rfl, hei, hsaved, keepsRegs_of_fields (by simp), hkept, ⟨rfl, rfl⟩, ⟨rfl, rfl, rfl⟩,
      rfl, hg⟩

/-! ### The exit undoes the entry -/

/-- Two cells with the same tags whose word values have the same bits are equal. -/
theorem cell_eq_of_testBit {c : Config} (hc : c.legal = true) {x y : Cell} (hx : x.wf c = true) (hy : y.wf c = true)
    (hop : x.op = y.op) (hvt : x.vt = y.vt) (h : ∀ i, (tcW c x.value).testBit i = (tcW c y.value).testBit i) :
    x = y := by
  have hvalue : x.value = y.value := by
    rw [← sextW_tcW c hc x.value hx, Nat.eq_of_testBit_eq h, sextW_tcW c hc y.value hy]
  show x = ⟨y.op, y.value, y.vt⟩
  rw [← hop, ← hvalue, ← hvt]

/-- Setting `EI` gives back a `PS` that had it and has lost nothing else. -/
theorem eiSet_of_keepsPs {s u : State} (hc : s.cfg.legal = true) (hw : s.ps.wf s.cfg = true) (hei : flagEI s = true)
    (hcfg : u.cfg = s.cfg) (h : KeepsPs (fun i => i ≠ 3) s u) : (alu s.cfg .or u.ps eiMask).res = s.ps := by
  obtain ⟨hbits, hop, hvt⟩ := h
  refine cell_eq_of_testBit hc (alu_res_wf s.cfg hc _ _ _) hw hop hvt fun i => ?_
  rw [alu_or_eiMask_testBit s.cfg hc]
  by_cases hi : i = 3
  · rw [hi, decide_eq_true rfl, Bool.true_or]
    exact hei.symm
  · have hbit := hbits i hi
    rw [psBit, psBit, hcfg] at hbit
    rw [decide_eq_false hi, Bool.false_or, hbit]

/-- Settles O34: the exit pops the two cells the entry has pushed, and sets the bit it has cleared. -/
theorem exitUndoesEntry : Obligations.ExitUndoesEntry := by
  intro s u v hc hw hei h0 h1 hu hcfg hsp hdepth hm1 hm2
  obtain ⟨u', hu', -, hps, hip, hsaved, -, husp, -, -, -, -, -, hucfg, -, hudepth, -⟩ :=
    interruptEntrySavesAndVectors s hc (nestExceeded_of_go hu) h0 h1
  obtain rfl : u = u' := by injection hu.symm.trans hu'
  have hvcfg : v.cfg = s.cfg := hcfg.trans hucfg
  have hvsp : v.sp = ⟨s.sp.op, s.sp.value - 2, s.sp.vt⟩ := hsp.trans husp
  have hpsCell : memRead v v.sp.value = some u.ps := by rw [hvsp]; exact hm2.trans hsaved
  have hipCell : memRead v (v.sp.value + 1) = some s.ip := by
    rw [hvsp, show s.sp.value - 2 + 1 = s.sp.value - 1 by omega]
    exact hm1.trans hip
  have hr := ((memRead_eq_some v _ _).mp hpsCell).1
  have hr' := ((memRead_eq_some v _ _).mp hipCell).1
  have hsp1 := exitSp1_of_inRange (hvcfg ▸ hc) hr
  have hsp2 : exitSp2 v = s.sp := by
    rw [exitSp2_of_inRange (hvcfg ▸ hc) hr hr', hvsp]
    simp only [Int.sub_add_cancel]
  obtain ⟨tr, hg, e⟩ := interruptExit_go v u.ps s.ip hpsCell (by rw [hsp1]; exact hipCell)
  exact ⟨_, e, by rw [hvcfg]; exact eiSet_of_keepsPs hc hw hei hucfg hps, rfl, hsp2,
    by rw [hdepth, hudepth]; rfl, keepsRegs_of_fields (by simp), fun _ => rfl, ⟨rfl, rfl⟩, rfl, rfl, rfl, rfl, hg⟩

end Sys2Proof.Machine

/-! PROOFS. Reset and load (70_reset_and_hazards.md): a loaded state is the reset state after one store per term, so
what it reads and its invariant follow store by store; and each refusal is the case where one of the loader's own
functions answers nothing. -/

namespace Sys2Proof.Machine

/-! ### The reset state -/

theorem isWord_of_nonneg {c : Config} {v : Int} (h0 : 0 ≤ v) (h1 : v ≤ c.wordMax) : c.isWord v = true := by
  have hpos := half_pos c
  exact (isWord_iff c v).mpr ⟨by omega, h1⟩

/-- With a word for the start address and words for characters, the reset state has the invariant (10_state.md
section 9). -/
theorem boot_inv {c : Config} (hc : c.legal = true) {start : Int} (hstart : c.isWord start = true)
    {events : List InputEvent} (hchars : ∀ e ∈ events, c.isWord (e.char : Int) = true) :
    (State.boot c start events).Inv := by
  have hzero : Cell.zero.wf c = true := isWord_of_le_addrMax c hc 0 (Nat.zero_le _)
  have hsp : c.isWord ((c.addrMax : Int) + 1) = true := isWord_of_nonneg (by omega) (addrMax_of_legal c hc)
  exact {
    legal := hc, ac := hzero, ip := hstart, cr := hzero, ps := hzero, sp := hsp, dr := hzero, ar := hzero
    memForm := Memory.wf_nil, memCells := nofun, memRange := nofun, chars := hchars
    limit := fun n _ => Nat.zero_le n
    nest := fun n _ => Nat.zero_le n }

theorem boot_traceNumbered (c : Config) (start : Int) (events : List InputEvent) :
    (State.boot c start events).TraceNumbered := rfl

/-- Every address that exists holds the zero cell before the first term is loaded. -/
theorem memRead_boot {c : Config} (start : Int) (events : List InputEvent) {a : Int} (h0 : 0 ≤ a)
    (h1 : a ≤ (c.addrMax : Int)) : memRead (State.boot c start events) a = some Cell.zero :=
  (memRead_eq_some _ _ _).mpr ⟨(inRange_iff _ _).mpr ⟨h0, h1⟩, rfl⟩

/-- Settles O17: the reset state is the boot state of the default configuration, and 2048 is past its memory. -/
theorem resetHasInvariant : Obligations.ResetHasInvariant :=
  ⟨boot_inv (by decide) (by decide) nofun, boot_traceNumbered _ _ _, rfl, rfl, rfl, by decide,
    fun _ h0 h1 => memRead_boot 0 [] h0 h1, (memRead_eq_none _ _).mpr (by decide)⟩

/-! ### Loading terms is storing cells -/

/-- The memory of a state after the loader has placed a list of terms (70_reset_and_hazards.md R151). -/
def State.loadTerms (s : State) (ts : List Term) : State := { s with mem := ts.foldl (loadTerm s.cfg) s.mem }

/-- A term that loads: its index is an address and it has a cell, a word one. -/
structure Term.Loads (c : Config) (t : Term) : Prop where
  index_nonneg : 0 ≤ t.index
  index_le : t.index ≤ (c.addrMax : Int)
  cell : ∃ x, termCell c t = some x ∧ x.wf c = true

theorem Term.Loads.inRange {s : State} {t : Term} (h : t.Loads s.cfg) : inRange s t.index = true :=
  (inRange_iff s t.index).mpr ⟨h.index_nonneg, h.index_le⟩

/-- The first term's cell is stored, and the rest is loaded over it. -/
theorem loadTerms_cons {s : State} {t : Term} {x : Cell} (hx : termCell s.cfg t = some x) (ts : List Term) :
    s.loadTerms (t :: ts) = (s.storeCell t.index x).loadTerms ts := by
  simp only [State.loadTerms, State.storeCell, List.foldl_cons, loadTerm, hx]

theorem State.Inv.loadTerms {s : State} (h : s.Inv) {ts : List Term} (hts : ∀ t ∈ ts, t.Loads s.cfg) :
    (s.loadTerms ts).Inv := by
  induction ts generalizing s with
  | nil => exact h
  | cons t ts ih =>
    obtain ⟨ht, hts⟩ := List.forall_mem_cons.mp hts
    obtain ⟨x, hx, hwf⟩ := ht.cell
    rw [loadTerms_cons hx]
    exact ih (h.storeCell ht.inRange hwf) hts

/-- No load writes the trace or moves the clock. -/
theorem State.TraceNumbered.loadTerms {s : State} (h : s.TraceNumbered) (ts : List Term) :
    (s.loadTerms ts).TraceNumbered :=
  h.congr rfl rfl

/-- An address no term names keeps its cell. -/
theorem memRead_loadTerms_unnamed {s : State} {ts : List Term} (hts : ∀ t ∈ ts, t.Loads s.cfg) {a : Int}
    (ha : ∀ t ∈ ts, t.index ≠ a) : memRead (s.loadTerms ts) a = memRead s a := by
  induction ts generalizing s with
  | nil => rfl
  | cons t ts ih =>
    obtain ⟨ht, hts⟩ := List.forall_mem_cons.mp hts
    obtain ⟨hta, ha⟩ := List.forall_mem_cons.mp ha
    obtain ⟨x, hx, -⟩ := ht.cell
    rw [loadTerms_cons hx, ih (s := s.storeCell t.index x) hts ha, memRead_storeCell s _ a x ht.inRange,
      if_neg hta.symm]

/-- Where no two terms share an index, each term's cell stands at its index: no later store hits it. -/
theorem memRead_loadTerms_index {s : State} {ts : List Term} (hts : ∀ t ∈ ts, t.Loads s.cfg)
    (hdistinct : (ts.map Term.index).Nodup) {t : Term} (ht : t ∈ ts) {x : Cell} (hx : termCell s.cfg t = some x) :
    memRead (s.loadTerms ts) t.index = some x := by
  induction ts generalizing s with
  | nil => cases ht
  | cons u ts ih =>
    obtain ⟨hu, htail⟩ := List.forall_mem_cons.mp hts
    obtain ⟨hfresh, hrest⟩ := List.nodup_cons.mp hdistinct
    obtain ⟨y, hy, -⟩ := hu.cell
    rw [loadTerms_cons hy]
    rcases List.mem_cons.mp ht with rfl | ht
    · obtain rfl : x = y := Option.some.inj (hx.symm.trans hy)
      have hlater : ∀ v ∈ ts, v.index ≠ t.index := fun v hv heq => hfresh (heq ▸ List.mem_map_of_mem hv)
      rw [memRead_loadTerms_unnamed (s := s.storeCell t.index x) htail hlater, memRead_storeCell s _ _ x hu.inRange,
        if_pos rfl]
    · exact ih (s := s.storeCell u.index y) htail hrest ht hx

/-! ### What a refusal says -/

/-- A string is not among a table's names exactly where the lookup answers nothing. -/
theorem lookup_eq_none_iff_notMem_names {β : Type} (table : List (String × β)) (n : String) :
    table.lookup n = none ↔ n ∉ table.map Prod.fst := by
  simp only [List.lookup_eq_none_iff, bne_iff_ne, List.mem_map, not_exists, not_and]
  exact forall₂_congr fun _ _ => ne_comm

/-- `DIV` is the one mnemonic of its opcode (30_encoding.md R52). -/
theorem ofMnemonic_eq_div_iff (m : String) : Opcode.ofMnemonic m = some .div ↔ m = "DIV" := by
  refine ⟨fun h => ?_, fun h => h ▸ rfl⟩
  obtain ⟨before, after, htable, -⟩ := List.lookup_eq_some_iff.mp h
  have hmem : (m, Opcode.div) ∈ mnemonicTable := htable ▸ List.mem_append_right before List.mem_cons_self
  simpa [mnemonicTable] using hmem

theorem termOpcode_eq_none_iff (c : Config) (t : Term) :
    termOpcode c t = none ↔
      t.opcode ∉ mnemonicTable.map Prod.fst ∨ (t.opcode = "DIV" ∧ c.hasDiv = false) := by
  rw [← lookup_eq_none_iff_notMem_names, ← ofMnemonic_eq_div_iff, termOpcode, Opcode.ofMnemonic]
  cases mnemonicTable.lookup t.opcode with
  | none => simp
  | some op => simp

theorem termType_eq_none_iff (t : Term) :
    termType t = none ↔ ∃ n, t.operandType = some n ∧ n ∉ valueTypeNames.map Prod.fst := by
  simp only [← lookup_eq_none_iff_notMem_names]
  cases h : t.operandType with
  | none => simp [termType, h]
  | some n => simp [termType, h, ValueType.ofName]

/-- A missing operand is 0, which is a word of every configuration: only a given operand can be refused. -/
theorem isWord_termOperand_eq_false_iff (c : Config) (t : Term) :
    c.isWord (termOperand t) = false ↔ ∃ v, t.operand = some v ∧ c.isWord v = false := by
  have hzero : c.isWord 0 = true := by
    have hpos := half_pos c
    rw [isWord_iff]
    omega
  cases h : t.operand with
  | none => simp [termOperand, h, hzero]
  | some v => simp [termOperand, h]

theorem charCode_eq_some_iff (n : String) (k : Nat) : charCode n = some k ↔ ∃ ch, n.toList = [ch] ∧ ch.toNat = k := by
  unfold charCode
  split
  next ch h => simp [h]
  next h => exact ⟨nofun, fun ⟨ch, hch, _⟩ => absurd hch (h ch)⟩

theorem inputEvent_eq_none_iff (c : Config) (e : WireEvent) :
    inputEvent c e = none ↔ e.arrivesAt < 0 ∨ ∀ ch : Char, e.char.toList = [ch] → c.charMax < ch.toNat := by
  have hcode : (∀ ch : Char, e.char.toList = [ch] → c.charMax < ch.toNat) ↔
      ∀ k, charCode e.char = some k → c.charMax < k := by
    simp only [charCode_eq_some_iff]
    exact ⟨fun h k ⟨ch, hch, hk⟩ => hk ▸ h ch hch, fun h ch hch => h _ ⟨ch, hch, rfl⟩⟩
  rw [hcode]
  cases h : charCode e.char with
  | none => simp [inputEvent, h]
  | some k =>
    simp only [inputEvent, h, Option.some.injEq, forall_eq', ite_eq_right_iff, reduceCtorEq, imp_false]
    omega

/-- A character in the queue is one the configuration allows (30_encoding.md R51). -/
theorem char_le_charMax_of_inputEvent {c : Config} {w : WireEvent} {e : InputEvent} (h : inputEvent c w = some e) :
    e.char ≤ c.charMax := by
  unfold inputEvent at h
  split at h
  · cases h
  · split at h
    next hk => obtain rfl := Option.some.inj h; exact hk.2
    next => cases h

/-- Without a term, every term is below the start address. -/
theorem refuses_startAddress_iff (c : Config) (p : Program) (es : List WireEvent) :
    refuses c p es .startAddress = true ↔
      p.instructions = [] ∨ p.startAddress < 0 ∨ ∀ t ∈ p.instructions, t.index < p.startAddress := by
  have hempty : p.instructions = [] → ∀ t ∈ p.instructions, t.index < p.startAddress := fun h => by simp [h]
  simp only [refuses, Bool.or_eq_true, List.all_eq_true, decide_eq_true_eq]
  tauto

/-! ### When the loader answers a state -/

theorem exists_loadRefusal_iff {P : LoadRefusal → Prop} :
    (∃ r, P r) ↔ P .startAddress ∨ P .mnemonic ∨ P .index ∨ P .duplicateIndex ∨ P .operand ∨ P .operandType ∨
      P .event ∨ P .config := by
  constructor
  · rintro ⟨r, h⟩
    cases r <;> simp only [h, true_or, or_true]
  · rintro (h | h | h | h | h | h | h | h) <;> exact ⟨_, h⟩

theorem loadRefusals_eq_nil_iff (c : Config) (p : Program) (es : List WireEvent) :
    loadRefusals c p es = [] ↔ ∀ r, refuses c p es r = false := by
  simp only [loadRefusals, List.filter_eq_nil_iff, Bool.not_eq_true]
  exact ⟨fun h r => h r (by cases r <;> decide), fun h r _ => h r⟩

/-- The loader answers the reset state with the program's terms loaded, where no refusal holds. -/
theorem load_eq_ok_iff (c : Config) (p : Program) (es : List WireEvent) (s : State) :
    load c p es = .ok s ↔ (∀ r, refuses c p es r = false) ∧
      s = (State.boot c p.startAddress (es.filterMap (inputEvent c))).loadTerms p.instructions := by
  rw [← loadRefusals_eq_nil_iff, load]
  cases loadRefusals c p es with
  | nil => simp [State.loadTerms, State.boot, eq_comm]
  | cons r rs => simp

theorem load_eq_error_iff (c : Config) (p : Program) (es : List WireEvent) :
    (∃ rs, load c p es = .error rs) ↔ ∃ r, refuses c p es r = true := by
  have hnonempty : (∃ rs, load c p es = .error rs) ↔ loadRefusals c p es ≠ [] := by
    rw [load]
    cases loadRefusals c p es with
    | nil => simp
    | cons r rs => simp
  rw [hnonempty, Ne, loadRefusals_eq_nil_iff, not_forall]
  simp only [Bool.not_eq_false]

/-- Settles O16: each refusal is its row of the table, L1 to L8 in order. -/
theorem loaderRefusesExactly : Obligations.LoaderRefusesExactly := by
  intro c p es
  rw [load_eq_error_iff, exists_loadRefusal_iff, refuses_startAddress_iff]
  simp only [refuses, List.any_eq_true, Bool.or_eq_true, decide_eq_true_eq, Bool.not_eq_true', decide_eq_false_iff_not,
    Option.isNone_iff_eq_none, termOpcode_eq_none_iff, isWord_termOperand_eq_false_iff, termType_eq_none_iff,
    inputEvent_eq_none_iff]

/-- What L1 to L8 leave of the input (70_reset_and_hazards.md R152), said of the loader's own functions. -/
structure Accepted (c : Config) (p : Program) (es : List WireEvent) : Prop where
  legal : c.legal = true
  start_nonneg : 0 ≤ p.startAddress
  start_le : p.startAddress ≤ (c.addrMax : Int)
  loads : ∀ t ∈ p.instructions, t.Loads c
  distinct : (p.instructions.map Term.index).Nodup
  events : ∀ e ∈ es, (inputEvent c e).isSome

/-- A term that L2, L3, L5 and L6 accept loads. -/
theorem loads_of_not_refused {c : Config} {p : Program} {es : List WireEvent} (h : ∀ r, refuses c p es r = false)
    {t : Term} (ht : t ∈ p.instructions) : t.Loads c := by
  have hopcode := List.any_eq_false.mp (h .mnemonic) t ht
  have hindex := List.any_eq_false.mp (h .index) t ht
  have hoperand := List.any_eq_false.mp (h .operand) t ht
  have htype := List.any_eq_false.mp (h .operandType) t ht
  rw [Option.isNone_iff_eq_none] at hopcode htype
  obtain ⟨op, hop⟩ := Option.ne_none_iff_exists'.mp hopcode
  obtain ⟨vt, hvt⟩ := Option.ne_none_iff_exists'.mp htype
  simp only [Bool.or_eq_true, decide_eq_true_eq, not_or, Int.not_lt] at hindex
  obtain ⟨h0, h1⟩ := hindex
  exact ⟨h0, h1, ⟨op, termOperand t, vt⟩, by rw [termCell, hop, hvt], by simpa [Cell.wf] using hoperand⟩

/-- L1 gives a term at or past the start address, and its index is an address. -/
theorem accepted_of_not_refused {c : Config} {p : Program} {es : List WireEvent}
    (h : ∀ r, refuses c p es r = false) : Accepted c p es := by
  have hloads : ∀ t ∈ p.instructions, t.Loads c := fun t ht => loads_of_not_refused h ht
  have hstart := mt (refuses_startAddress_iff c p es).mpr (by simp [h])
  push Not at hstart
  obtain ⟨-, hnonneg, t, ht, hle⟩ := hstart
  exact {
    legal := by simpa [refuses] using h .config
    start_nonneg := hnonneg
    start_le := hle.trans (hloads t ht).index_le
    loads := hloads
    distinct := by simpa [refuses] using h .duplicateIndex
    events := by simpa [refuses, Option.isSome_iff_ne_none] using h .event }

/-- What the loader accepts, and the state it answers for it. -/
theorem load_ok {c : Config} {p : Program} {es : List WireEvent} {s : State} (h : load c p es = .ok s) :
    Accepted c p es ∧ s = (State.boot c p.startAddress (es.filterMap (inputEvent c))).loadTerms p.instructions := by
  obtain ⟨hnone, hs⟩ := (load_eq_ok_iff c p es s).mp h
  exact ⟨accepted_of_not_refused hnone, hs⟩

/-- Settles O15: memory is read store by store, and loading touches nothing else of the reset state. -/
theorem loadGivesResetState : Obligations.LoadGivesResetState := by
  intro c p es s h
  obtain ⟨hacc, rfl⟩ := load_ok h
  have hinq : es.map (inputEvent c) = (es.filterMap (inputEvent c)).map some := by
    rw [List.map_filterMap_some_eq_filter_map_isSome, List.filter_eq_self.mpr]
    simpa using hacc.events
  refine ⟨fun t ht => ?_, fun a h0 h1 ha => ?_, rfl, rfl, rfl, rfl, rfl, rfl, rfl, rfl, rfl, hinq, rfl, rfl, rfl, rfl⟩
  · obtain ⟨x, hx, -⟩ := (hacc.loads t ht).cell
    exact ⟨x, hx, memRead_loadTerms_index hacc.loads hacc.distinct ht hx⟩
  · rw [memRead_loadTerms_unnamed hacc.loads ha, memRead_boot _ _ h0 h1]

/-- Settles O18: the reset state has the invariant, and every term's store keeps it. -/
theorem loadHasInvariant : Obligations.LoadHasInvariant := by
  intro c p es s hcharMax h
  obtain ⟨hacc, rfl⟩ := load_ok h
  have hstart : c.isWord p.startAddress = true :=
    isWord_of_nonneg hacc.start_nonneg (by linarith [hacc.start_le, addrMax_of_legal c hacc.legal])
  have hchars : ∀ e ∈ es.filterMap (inputEvent c), c.isWord (e.char : Int) = true := fun e he => by
    obtain ⟨w, -, hw⟩ := List.mem_filterMap.mp he
    have hle := char_le_charMax_of_inputEvent hw
    exact isWord_of_nonneg (Int.natCast_nonneg _) (by omega)
  exact ⟨(boot_inv hacc.legal hstart hchars).loadTerms hacc.loads, (boot_traceNumbered _ _ _).loadTerms _⟩

end Sys2Proof.Machine
